-- ==== Sys2Proof/Word.lean ====
section
/-!
DEFINITION. The word types of the MSC: bytes of the buffer memory, 64-bit registers, byte strings
(00_scope R9). Everything a test could show wrong stands in Sys2Proof/Machine or Decode.
-/

namespace Sys2Proof

/-- One byte of the buffer memory (20_memory R60). -/
abbrev Byte := BitVec 8

/-- The value of a host-visible register, XLEN = 64 bits (00_scope R8), and of the command word. -/
abbrev Word := BitVec 64

/-- A byte string; index 0 is the byte at the lowest address (00_scope R9). -/
abbrev Bytes := List Byte

end Sys2Proof
end

