-- ==== Sys2Proof/Syntax.lean ====
section
/-!
DEFINITION. The syntax of the MSC: the twelve variants, the 25 commands (one constructor per row of the opcode
table), the fields of a command word, and the moves of the agents around the block.
-/

namespace Sys2Proof

/-- The twelve algorithm variants, in the order of their codes (00_scope R2; 30_encoding R93). -/
inductive Variant where
  | sha1
  | sha2_224
  | sha2_256
  | sha2_384
  | sha2_512
  | sha2_512_224
  | sha2_512_256
  | sha3_224
  | sha3_256
  | sha3_384
  | sha3_512
  | keccak_256
  deriving DecidableEq, Repr, Inhabited

/-- The 25 commands (30_encoding R100). A command has no operand field: its operands are the argument registers
(30_encoding R95). -/
inductive Instr where
  | hashSha1
  | hashSha2_224
  | hashSha2_256
  | hashSha2_384
  | hashSha2_512
  | hashSha2_512_224
  | hashSha2_512_256
  | hashSha3_224
  | hashSha3_256
  | hashSha3_384
  | hashSha3_512
  | hashKeccak_256
  | merklizeSha1
  | merklizeSha2_224
  | merklizeSha2_256
  | merklizeSha2_384
  | merklizeSha2_512
  | merklizeSha2_512_224
  | merklizeSha2_512_256
  | merklizeSha3_224
  | merklizeSha3_256
  | merklizeSha3_384
  | merklizeSha3_512
  | merklizeKeccak_256
  | clear
  deriving DecidableEq, Repr, Inhabited

/-- The three fields of a command word: OP [3:0], VARIANT [7:4], RSVD [63:8] (30_encoding R91). -/
structure RawCmd where
  op : BitVec 4
  variant : BitVec 4
  rsvd : BitVec 56
  deriving DecidableEq, Repr

/-- How the memory port answers the accesses of one unit step (20_memory R79; 93 U10; log 3). -/
inductive PortAnswer where
  /-- Every access succeeds. -/
  | ok
  /-- Access number `nth` of the step (counted from 0) fails. If it is a write, byte `j` of it has been written
  exactly when `subset` holds `true` at place `j`. -/
  | fail (nth : Nat) (subset : List Bool)
  deriving DecidableEq, Repr

/-- One step of one agent (10_state R33; log 1). -/
inductive Move where
  /-- HOST: `RegRead(offset)` (44_system R256). -/
  | regRead (offset : Nat)
  /-- HOST: `RegWrite(offset, value)` (44_system R257); offset 0x08 issues a command (44_system R250). -/
  | regWrite (offset : Nat) (value : Word)
  /-- HOST: read `n` bytes of buffer memory from `addr` upward (70_reset R322 H-4, H-5). -/
  | memRead (addr n : Nat)
  /-- HOST: write `bytes` to buffer memory from `addr` upward (70_reset R322 H-5, H-6). -/
  | memWrite (addr : Nat) (bytes : Bytes)
  /-- Unit `i` takes its next step, the memory port answering as `port` says (43_merger R223, R224). -/
  | unit (i : Nat) (port : PortAnswer)
  /-- MC takes its next step: level close or completion (43_merger R225, R229; 42_hash R192). -/
  | mc
  /-- The environment asserts reset (70_reset R311). `torn` lists LOADED units whose MemWrite was in progress, each
  with the bytes of it that have been written (70_reset R312). -/
  | reset (torn : List (Nat × List Bool))
  deriving DecidableEq, Repr

end Sys2Proof
end

