-- ==== Sys2Proof/WellFormed.lean ====
section
/-!
DEFINITION. Which terms of the syntax the spec gives a meaning: commands, command words and host moves.
-/

namespace Sys2Proof

/-- Every term of `Instr` is a command: a command has no operand field that could be out of range
(30_encoding R91, R95). -/
def Instr.wf (_ : Instr) : Bool := true

/-- A command word is a command: RSVD = 0; OP is 1 or 2 with a variant code up to 0xB, or OP is 3 with VARIANT = 0
(30_encoding R94). -/
def RawCmd.wf (r : RawCmd) : Bool :=
  r.rsvd == 0 && (((r.op == 1 || r.op == 2) && decide (r.variant.toNat ≤ 0xB)) || (r.op == 3 && r.variant == 0))

/-- A register access is defined: a whole register at a multiple of 8 below 0x80 (10_state R23). -/
def registerOffsetWf (offset : Nat) : Bool := offset % 8 == 0 && decide (offset < 0x80)

/-- A memory access is defined: at least one byte, none past the top of the address space (20_memory R62, R63). -/
def byteRangeWf (addr n : Nat) : Bool := decide (1 ≤ n) && decide (addr + n ≤ 2 ^ 64)

/-- A host move is one the spec defines (70_reset R322 H-12; 20_memory R62, R63). -/
def Move.wf : Move → Bool
  | .regRead offset => registerOffsetWf offset
  | .regWrite offset _ => registerOffsetWf offset
  | .memRead addr n => byteRangeWf addr n
  | .memWrite addr bytes => byteRangeWf addr bytes.length
  | .unit _ _ => true
  | .mc => true
  | .reset _ => true

end Sys2Proof
end

