-- ==== Sys2Proof/Decode.lean ====
section
/-!
DEFINITION. Decoding of the command word (30_encoding R94), total, and the encoder after it (30_encoding R100).
-/

namespace Sys2Proof

/-- The variant code (30_encoding R93). -/
def Variant.code : Variant → BitVec 4
  | .sha1 => 0x0
  | .sha2_224 => 0x1
  | .sha2_256 => 0x2
  | .sha2_384 => 0x3
  | .sha2_512 => 0x4
  | .sha2_512_224 => 0x5
  | .sha2_512_256 => 0x6
  | .sha3_224 => 0x7
  | .sha3_256 => 0x8
  | .sha3_384 => 0x9
  | .sha3_512 => 0xA
  | .keccak_256 => 0xB

/-- The variant a code names; 0xC to 0xF name none (30_encoding R93). -/
def variantOfCode (code : BitVec 4) : Option Variant :=
  match code.toNat with
  | 0x0 => some .sha1
  | 0x1 => some .sha2_224
  | 0x2 => some .sha2_256
  | 0x3 => some .sha2_384
  | 0x4 => some .sha2_512
  | 0x5 => some .sha2_512_224
  | 0x6 => some .sha2_512_256
  | 0x7 => some .sha3_224
  | 0x8 => some .sha3_256
  | 0x9 => some .sha3_384
  | 0xA => some .sha3_512
  | 0xB => some .keccak_256
  | _ => none

/-- The command HASH.v (30_encoding R92, R100). -/
def hashOf : Variant → Instr
  | .sha1 => .hashSha1
  | .sha2_224 => .hashSha2_224
  | .sha2_256 => .hashSha2_256
  | .sha2_384 => .hashSha2_384
  | .sha2_512 => .hashSha2_512
  | .sha2_512_224 => .hashSha2_512_224
  | .sha2_512_256 => .hashSha2_512_256
  | .sha3_224 => .hashSha3_224
  | .sha3_256 => .hashSha3_256
  | .sha3_384 => .hashSha3_384
  | .sha3_512 => .hashSha3_512
  | .keccak_256 => .hashKeccak_256

/-- The command MERKLIZE.v (30_encoding R92, R100). -/
def merklizeOf : Variant → Instr
  | .sha1 => .merklizeSha1
  | .sha2_224 => .merklizeSha2_224
  | .sha2_256 => .merklizeSha2_256
  | .sha2_384 => .merklizeSha2_384
  | .sha2_512 => .merklizeSha2_512
  | .sha2_512_224 => .merklizeSha2_512_224
  | .sha2_512_256 => .merklizeSha2_512_256
  | .sha3_224 => .merklizeSha3_224
  | .sha3_256 => .merklizeSha3_256
  | .sha3_384 => .merklizeSha3_384
  | .sha3_512 => .merklizeSha3_512
  | .keccak_256 => .merklizeKeccak_256

/-- The three fields of a command word (30_encoding R91). -/
def rawOfWord (c : Word) : RawCmd :=
  { op := c.extractLsb' 0 4, variant := c.extractLsb' 4 4, rsvd := c.extractLsb' 8 56 }

/-- The command word with the given fields (30_encoding R91). -/
def wordOfRaw (r : RawCmd) : Word := r.rsvd ++ r.variant ++ r.op

/-- What decoding a command word answers (30_encoding R94). -/
inductive Decoded where
  /-- A command. -/
  | cmd (i : Instr)
  /-- No command: leads to E_ILLEGAL_CMD (60_exceptions R271). -/
  | illegal
  /-- HASH or MERKLIZE with a reserved variant code: leads to E_VARIANT (60_exceptions R272). -/
  | badVariant (code : BitVec 4)
  deriving DecidableEq, Repr

/-- Decoding of the fields, in the order of 30_encoding R94: the reserved bits first. -/
def decodeRaw (r : RawCmd) : Decoded :=
  if r.rsvd ≠ 0 then .illegal
  else if r.op = 3 then
    if r.variant = 0 then .cmd .clear else .illegal
  else if r.op = 1 then
    match variantOfCode r.variant with
    | some v => .cmd (hashOf v)
    | none => .badVariant r.variant
  else if r.op = 2 then
    match variantOfCode r.variant with
    | some v => .cmd (merklizeOf v)
    | none => .badVariant r.variant
  else .illegal

/-- Decoding, total on 64-bit words (30_encoding R94). -/
def decode (c : Word) : Decoded := decodeRaw (rawOfWord c)

/-- The fields of a command's word (30_encoding R92, R93). -/
def rawOf : Instr → RawCmd
  | .hashSha1 => { op := 1, variant := Variant.code .sha1, rsvd := 0 }
  | .hashSha2_224 => { op := 1, variant := Variant.code .sha2_224, rsvd := 0 }
  | .hashSha2_256 => { op := 1, variant := Variant.code .sha2_256, rsvd := 0 }
  | .hashSha2_384 => { op := 1, variant := Variant.code .sha2_384, rsvd := 0 }
  | .hashSha2_512 => { op := 1, variant := Variant.code .sha2_512, rsvd := 0 }
  | .hashSha2_512_224 => { op := 1, variant := Variant.code .sha2_512_224, rsvd := 0 }
  | .hashSha2_512_256 => { op := 1, variant := Variant.code .sha2_512_256, rsvd := 0 }
  | .hashSha3_224 => { op := 1, variant := Variant.code .sha3_224, rsvd := 0 }
  | .hashSha3_256 => { op := 1, variant := Variant.code .sha3_256, rsvd := 0 }
  | .hashSha3_384 => { op := 1, variant := Variant.code .sha3_384, rsvd := 0 }
  | .hashSha3_512 => { op := 1, variant := Variant.code .sha3_512, rsvd := 0 }
  | .hashKeccak_256 => { op := 1, variant := Variant.code .keccak_256, rsvd := 0 }
  | .merklizeSha1 => { op := 2, variant := Variant.code .sha1, rsvd := 0 }
  | .merklizeSha2_224 => { op := 2, variant := Variant.code .sha2_224, rsvd := 0 }
  | .merklizeSha2_256 => { op := 2, variant := Variant.code .sha2_256, rsvd := 0 }
  | .merklizeSha2_384 => { op := 2, variant := Variant.code .sha2_384, rsvd := 0 }
  | .merklizeSha2_512 => { op := 2, variant := Variant.code .sha2_512, rsvd := 0 }
  | .merklizeSha2_512_224 => { op := 2, variant := Variant.code .sha2_512_224, rsvd := 0 }
  | .merklizeSha2_512_256 => { op := 2, variant := Variant.code .sha2_512_256, rsvd := 0 }
  | .merklizeSha3_224 => { op := 2, variant := Variant.code .sha3_224, rsvd := 0 }
  | .merklizeSha3_256 => { op := 2, variant := Variant.code .sha3_256, rsvd := 0 }
  | .merklizeSha3_384 => { op := 2, variant := Variant.code .sha3_384, rsvd := 0 }
  | .merklizeSha3_512 => { op := 2, variant := Variant.code .sha3_512, rsvd := 0 }
  | .merklizeKeccak_256 => { op := 2, variant := Variant.code .keccak_256, rsvd := 0 }
  | .clear => { op := 3, variant := 0, rsvd := 0 }

/-- The word of a command (30_encoding R100). -/
def encode (i : Instr) : Word := wordOfRaw (rawOf i)

/-- The 64-bit command word of an instruction whose table bits are `w`, every bit above `nbits` being 0 (log 23).
The command is one word (30_encoding R90), so a bit at place 64 or above belongs to no command word. -/
def tableWord (nbits w : Nat) : Option Word :=
  let v := w % 2 ^ nbits
  if v < 2 ^ 64 then some (BitVec.ofNat 64 v) else none

/-- The command the decoder reads from a word numbered as the opcode table numbers it; `none` where the decoder
answers Illegal or BadVariant. -/
def decodeTableWord (nbits w : Nat) : Option Instr :=
  match tableWord nbits w with
  | none => none
  | some c =>
    match decode c with
    | .cmd i => some i
    | .illegal => none
    | .badVariant _ => none

end Sys2Proof
end

