-- ==== Sys2Proof/Machine/State.lean ====
section
/-!
DEFINITION. The state of the MSC and of what the spec puts around it, as plain data (10_state R20), the reasons a
step can stop, and the state after reset (10_state R41; 70_reset R310).
-/

namespace Sys2Proof.Machine

open Sys2Proof

/-! ## Reasons a step can stop -/

/-- Faults. -/
inductive Fault where
  /-- A memory access takes in a byte at or above 2^64, which does not exist (20_memory R62, R63). Raised by a host
  move that asks for it; by a unit only in states no run reaches (60_exceptions R281). Safe (log 14). -/
  | noSuchAddress (addr : Nat)
  deriving DecidableEq, Repr

/-- Refusals. -/
inductive Refusal where
  /-- An instruction without a meaning yet, by its mnemonic; raised by `exec` alone. Safe. -/
  | notModelled (mnemonic : String)
  /-- A host register access at an offset that is no multiple of 8 below 0x80, which the spec does not define
  (10_state R23; 93 U8). Raised by a host move. Safe (log 13). -/
  | registerAccess (offset : Nat)
  /-- A host memory access of no bytes, which the spec does not define (20_memory R62, R63). Raised by a host move.
  Safe (log 14). -/
  | emptyAccess (addr : Nat)
  /-- A host write to a byte of SRC or DST while BUSY = 1, a move the spec takes from the host (20_memory R75;
  93 U4). Raised by a host move. Safe under the duty H-6 of 70_reset R322 (log 12). -/
  | hostWritesBusyRegion (addr : Nat)
  deriving DecidableEq, Repr

/-! ## Registers -/

/-- The argument registers x[0] to x[6], or a copy of them (10_state R21). -/
structure Args where
  /-- x[0] SRC_PTR -/
  srcPtr : Word
  /-- x[1] SRC_LEN -/
  srcLen : Word
  /-- x[2] LEAF_COUNT -/
  leafCount : Word
  /-- x[3] DST_PTR -/
  dstPtr : Word
  /-- x[4] DST_LEN -/
  dstLen : Word
  /-- x[5] ITMD_COUNT -/
  itmdCount : Word
  /-- x[6] BATCH -/
  batch : Word
  deriving DecidableEq, Repr

/-- The fields of STATUS that are not reserved (10_state R26; log 18). -/
structure Status where
  /-- bit 0 -/
  busy : Bool
  /-- bit 1 -/
  done : Bool
  /-- bit 2 -/
  err : Bool
  /-- bit 3 -/
  ovr : Bool
  /-- bits 15:8 -/
  errCode : Byte
  deriving DecidableEq, Repr

/-- The operations that are ever latched (10_state R31; 44_system R252). -/
inductive Op where
  | hash
  | merklize
  deriving DecidableEq, Repr

/-- LATCH, the command taken at the accepted CMD write (10_state R31). -/
structure Latch where
  op : Op
  variant : Variant
  a : Args
  deriving DecidableEq, Repr

/-! ## Engine registers (10_state R34 to R37) -/

/-- The eight working variables of a SHA-2 configuration (10_state R34). -/
structure Work (w : Nat) where
  a : BitVec w
  b : BitVec w
  c : BitVec w
  d : BitVec w
  e : BitVec w
  f : BitVec w
  g : BitVec w
  h : BitVec w
  deriving DecidableEq, Repr

/-- MD engine registers of a SHA-2 configuration of word width `w` (10_state R34). -/
structure MdRegs (w : Nat) where
  /-- PM, the padded message -/
  pm : Bytes
  /-- H[0..7] -/
  hs : List (BitVec w)
  /-- W, the schedule, W[0] first: all of it, or its last 16 words under WINDOW16 -/
  ws : List (BitVec w)
  /-- a .. h -/
  vars : Work w
  /-- round counter -/
  t : Nat
  /-- block counter -/
  j : Nat
  deriving DecidableEq, Repr

/-- The five working variables of the SHA-1 configuration (10_state R35). -/
structure Work1 where
  a : BitVec 32
  b : BitVec 32
  c : BitVec 32
  d : BitVec 32
  e : BitVec 32
  deriving DecidableEq, Repr

/-- MD engine registers of the SHA-1 configuration (10_state R35). -/
structure Sha1Regs where
  /-- PM, the padded message, one block -/
  pm : Bytes
  /-- H[0..4] -/
  hs : List (BitVec 32)
  /-- W, as in `MdRegs` -/
  ws : List (BitVec 32)
  /-- a .. e -/
  vars : Work1
  /-- round counter -/
  t : Nat
  /-- block counter -/
  j : Nat
  deriving DecidableEq, Repr

/-- KP engine registers for KP_PATH = LANE64 (10_state R36). -/
structure KpRegs where
  /-- PM, the padded message -/
  pm : Bytes
  /-- A[0..24], lane (x, y) at x + 5y -/
  a : List (BitVec 64)
  /-- C[0..4] -/
  c : List (BitVec 64)
  /-- D[0..4] -/
  d : List (BitVec 64)
  /-- Bt[0..24] -/
  bt : List (BitVec 64)
  /-- round counter -/
  rnd : Nat
  /-- block counter -/
  j : Nat
  deriving DecidableEq, Repr

/-- A pair of register files: even limbs and odd limbs (10_state R37). -/
structure Limbs where
  e : List (BitVec 32)
  o : List (BitVec 32)
  deriving DecidableEq, Repr

/-- KP engine registers for KP_PATH = ILV32 (10_state R37; 41_kp R177). -/
structure KpIlvRegs where
  /-- PM, the padded message -/
  pm : Bytes
  /-- AE[0..24], AO[0..24] -/
  a : Limbs
  /-- CE[0..4], CO[0..4] -/
  c : Limbs
  /-- DE[0..4], DO[0..4] -/
  d : Limbs
  /-- BE[0..24], BO[0..24] -/
  bt : Limbs
  /-- round counter -/
  rnd : Nat
  /-- block counter -/
  j : Nat
  deriving DecidableEq, Repr

/-- The registers of the engine that served a unit (10_state R34 to R37). -/
inductive EngineRegs where
  | sha1 (r : Sha1Regs)
  | md32 (r : MdRegs 32)
  | md64 (r : MdRegs 64)
  | lane64 (r : KpRegs)
  | ilv32 (r : KpIlvRegs)
  deriving DecidableEq, Repr

/-! ## Sequencing (10_state R30, R32) -/

/-- The phase of a unit (10_state R32). -/
inductive UnitPhase where
  | waiting
  /-- The two input digests are read and the digest computed; nothing is written yet. -/
  | loaded (regs : EngineRegs) (digest : Bytes)
  | finished
  deriving DecidableEq, Repr

/-- SEQ.phase (10_state R30). -/
inductive Phase where
  | idle
  | runHash
  | runLevel
  deriving DecidableEq, Repr

/-- SEQ (10_state R30). -/
structure Seq where
  phase : Phase
  /-- Index of the level being read. -/
  k : Nat
  /-- The units that have left WAITING, in rising order of index; a unit that is not listed is WAITING. -/
  units : List (Nat × UnitPhase)
  deriving DecidableEq, Repr

/-! ## Memory, the host's view, and the whole -/

/-- The buffer memory: the bytes that differ from what an unlisted address reads as, addresses strictly rising
(20_memory R60; log 4). -/
abbrev Memory := List Host.Cell

/-- What a port has answered the host (44_system R256; log 10). -/
inductive Reply where
  | reg (offset : Nat) (value : Word)
  | mem (addr : Nat) (bytes : Bytes)
  deriving DecidableEq, Repr

/-- The state (10_state R20). ID, CMD and `irq` hold nothing and are definitions (Flags, Ops). `agenda` and `replies`
are the model's own (log 1, log 10). -/
structure State where
  /-- x[0..6] -/
  x : Args
  /-- STATUS -/
  status : Status
  /-- ERRINFO -/
  errInfo : Word
  /-- CTRL.IE -/
  ie : Bool
  /-- LATCH -/
  latch : Latch
  /-- SEQ -/
  seq : Seq
  /-- the buffer memory -/
  mem : Memory
  /-- the moves to come, the next one first -/
  agenda : List Move
  /-- the answers the host has had, the latest first -/
  replies : List Reply
  deriving DecidableEq, Repr

/-- All argument registers 0 (10_state R41). -/
def Args.zero : Args :=
  { srcPtr := 0, srcLen := 0, leafCount := 0, dstPtr := 0, dstLen := 0, itmdCount := 0, batch := 0 }

/-- STATUS = 0 (10_state R41). -/
def Status.zero : Status := { busy := false, done := false, err := false, ovr := false, errCode := 0 }

/-- The state after reset (10_state R41; 70_reset R310). `latch`, `seq.k` and `seq.units` are unspecified there:
DESIGN CHOICE (log 5, log 6). Memory lists nothing: DESIGN CHOICE (log 4). -/
def State.reset : State :=
  { x := Args.zero
    status := Status.zero
    errInfo := 0
    ie := false
    latch := { op := .hash, variant := .sha1, a := Args.zero }
    seq := { phase := .idle, k := 0, units := [] }
    mem := []
    agenda := []
    replies := [] }

/-! ## One named update for each field -/

/-- `s` with `x` replaced. -/
def State.withX (s : State) (v : Args) : State := { s with x := v }

/-- `s` with `status` replaced. -/
def State.withStatus (s : State) (v : Status) : State := { s with status := v }

/-- `s` with `errInfo` replaced. -/
def State.withErrInfo (s : State) (v : Word) : State := { s with errInfo := v }

/-- `s` with `ie` replaced. -/
def State.withIe (s : State) (v : Bool) : State := { s with ie := v }

/-- `s` with `latch` replaced. -/
def State.withLatch (s : State) (v : Latch) : State := { s with latch := v }

/-- `s` with `seq` replaced. -/
def State.withSeq (s : State) (v : Seq) : State := { s with seq := v }

/-- `s` with `mem` replaced. -/
def State.withMem (s : State) (v : Memory) : State := { s with mem := v }

/-- `s` with `agenda` replaced. -/
def State.withAgenda (s : State) (v : List Move) : State := { s with agenda := v }

/-- `s` with `replies` replaced. -/
def State.withReplies (s : State) (v : List Reply) : State := { s with replies := v }

end Sys2Proof.Machine
end

