-- ==== Sys2Proof/Machine/Flags.lean ====
section
/-!
DEFINITION. The flags: STATUS and CTRL as words (10_state R26, R28), the `irq` output (10_state R39), the error codes
(60_exceptions R266). The engines have no flags (10_state R39; 40_md R143; 41_kp R173).
-/

namespace Sys2Proof.Machine

open Sys2Proof

/-- The error codes that are ever raised (60_exceptions R266). -/
inductive ErrCode where
  | illegalCmd
  | badVariant
  | leafCount
  | srcLen
  | dstLen
  | itmdCount
  | batch
  | wrap
  | overlap
  | shape
  | backend
  deriving DecidableEq, Repr

/-- The number of an error code (60_exceptions R266). -/
def ErrCode.byte : ErrCode → Byte
  | .illegalCmd => 0x01
  | .badVariant => 0x02
  | .leafCount => 0x03
  | .srcLen => 0x04
  | .dstLen => 0x05
  | .itmdCount => 0x06
  | .batch => 0x07
  | .wrap => 0x08
  | .overlap => 0x09
  | .shape => 0x0A
  | .backend => 0x10

/-- A flag as a number of one bit. -/
def flagBit (b : Bool) : BitVec 1 := BitVec.ofBool b

/-- What a read of STATUS gives: BUSY, DONE, ERR, OVR in bits 0 to 3, ERRCODE in bits 15:8, all else 0
(10_state R26). -/
def statusWord (t : Status) : Word :=
  (0 : BitVec 48) ++ t.errCode ++ (0 : BitVec 4) ++ flagBit t.ovr ++ flagBit t.err ++ flagBit t.done ++ flagBit t.busy

/-- What a read of CTRL gives: IE in bit 0, all else 0 (10_state R28). -/
def ctrlWord (ie : Bool) : Word := (0 : BitVec 63) ++ flagBit ie

/-- `irq = CTRL.IE & (STATUS.DONE | STATUS.ERR)` (10_state R39). -/
def irq (s : State) : Bool := s.ie && (s.status.done || s.status.err)

end Sys2Proof.Machine
end

