-- ==== Sys2Proof/Machine/Memory.lean ====
section
/-!
DEFINITION. Sparse tables in one canonical form, and the buffer memory on top of them (20_memory R60 to R63).
-/

namespace Sys2Proof.Machine

open Sys2Proof

/-! ## Sparse tables: entries in strictly rising order of key, none equal to the default -/

/-- The value at key `a`; `d` where nothing is listed. -/
def sparseGet {α : Type} (d : α) : List (Nat × α) → Nat → α
  | [], _ => d
  | (k, v) :: r, a => if a = k then v else sparseGet d r a

/-- The table with the value at key `a` replaced by `v`; a default value removes the entry. -/
def sparsePut {α : Type} [DecidableEq α] (d : α) : List (Nat × α) → Nat → α → List (Nat × α)
  | [], a, v => if v = d then [] else [(a, v)]
  | (k, w) :: r, a, v =>
    if a < k then
      if v = d then (k, w) :: r else (a, v) :: (k, w) :: r
    else if a = k then
      if v = d then r else (a, v) :: r
    else (k, w) :: sparsePut d r a v

/-- Every key of the table is at least `lo`, keys rise strictly, and no value is the default. -/
def sparseWfFrom {α : Type} [DecidableEq α] (d : α) : Nat → List (Nat × α) → Bool
  | _, [] => true
  | lo, (k, v) :: r => decide (lo ≤ k) && decide (v ≠ d) && sparseWfFrom d (k + 1) r

/-- The canonical form. -/
def sparseWf {α : Type} [DecidableEq α] (d : α) (m : List (Nat × α)) : Bool := sparseWfFrom d 0 m

/-! ## The buffer memory -/

/-- What an address that nothing has written reads as: the spec gives the memory no contents
(DESIGN CHOICE, unsafe: log 4). -/
def blankByte : Byte := 0

/-- The memory is in canonical form. -/
def Memory.wf (m : Memory) : Bool := sparseWf blankByte m

/-- Every listed address exists (20_memory R60). -/
def Memory.bounded (m : Memory) : Bool := m.all fun c => decide (c.1 < 2 ^ 64)

/-- The byte at an address (20_memory R60). -/
def readByte (m : Memory) (addr : Nat) : Byte := sparseGet blankByte m addr

/-- The memory with one byte replaced. -/
def writeByte (m : Memory) (addr : Nat) (b : Byte) : Memory := sparsePut blankByte m addr b

/-- `MemRead(addr, n)` where it succeeds: byte i of the answer is the byte at addr + i (20_memory R62). -/
def readBytes (m : Memory) (addr n : Nat) : Bytes := (List.range n).map fun i => readByte m (addr + i)

/-- `MemWrite(addr, n, s)` where it succeeds: byte i of `s` goes to addr + i (20_memory R63). -/
def writeBytes (m : Memory) (addr : Nat) : Bytes → Memory
  | [] => m
  | b :: r => writeBytes (writeByte m addr b) (addr + 1) r

/-- A MemWrite of which byte i has been performed exactly when `subset` holds `true` at place i
(20_memory R79: "may have written any subset of its bytes"). -/
def writeSome (m : Memory) (addr : Nat) : Bytes → List Bool → Memory
  | [], _ => m
  | _ :: _, [] => m
  | b :: r, w :: subset => writeSome (if w then writeByte m addr b else m) (addr + 1) r subset

/-- The half-open intervals [a, a + n) and [b, b + k) share a byte (60_exceptions R282). -/
def rangesMeet (a n b k : Nat) : Bool := decide (a < b + k) && decide (b < a + n)

/-! ## One access through the port -/

/-- What a sequence of accesses of a unit comes to. -/
inductive Access (α : Type) where
  /-- All performed. -/
  | performed (v : α)
  /-- The port answered the access at `addr` with a failure (20_memory R79). -/
  | failed (addr : Nat)
  /-- The access at `addr` takes in a byte that does not exist. -/
  | outside (addr : Nat)
  deriving DecidableEq, Repr

/-- The port fails access number `n` of the step. -/
def portFailsAt : PortAnswer → Nat → Bool
  | .ok, _ => false
  | .fail nth _, n => nth == n

/-- The bytes a failing write has performed all the same. -/
def portTorn : PortAnswer → List Bool
  | .ok => []
  | .fail _ subset => subset

/-- The MemReads of a load step, in order, from access number `n` on; their bytes joined (43_merger R223;
42_hash R190). -/
def readAll (m : Memory) (port : PortAnswer) : Nat → List (Nat × Nat) → Access Bytes
  | _, [] => .performed []
  | n, (addr, len) :: r =>
    if 2 ^ 64 < addr + len then .outside addr
    else if portFailsAt port n then .failed addr
    else
      match readAll m port (n + 1) r with
      | .performed bs => .performed (readBytes m addr len ++ bs)
      | .failed a => .failed a
      | .outside a => .outside a

end Sys2Proof.Machine
end

