-- ==== Sys2Proof/Machine/Operands.lean ====
section
/-!
DEFINITION. The operands of a command: the variant parameter table (30_encoding R96), the argument registers by
number (10_state R21, R23), the regions (20_memory R61), the tree quantities (43_merger R211), the batch sizes
(43_merger R218) and the addresses of a unit (43_merger R214 to R216, R220).
-/

namespace Sys2Proof.Machine

open Sys2Proof

/-! ## The variant parameter table (30_encoding R96) -/

/-- Which engine runs the variant, and in which configuration. -/
inductive Design where
  | sha1
  | md32
  | md64
  | sponge
  deriving DecidableEq, Repr

/-- Column design. -/
def designOf : Variant → Design
  | .sha1 => .sha1
  | .sha2_224 => .md32
  | .sha2_256 => .md32
  | .sha2_384 => .md64
  | .sha2_512 => .md64
  | .sha2_512_224 => .md64
  | .sha2_512_256 => .md64
  | .sha3_224 => .sponge
  | .sha3_256 => .sponge
  | .sha3_384 => .sponge
  | .sha3_512 => .sponge
  | .keccak_256 => .sponge

/-- Column dlen: the digest length in bytes. -/
def dlen : Variant → Nat
  | .sha1 => 20
  | .sha2_224 => 28
  | .sha2_256 => 32
  | .sha2_384 => 48
  | .sha2_512 => 64
  | .sha2_512_224 => 28
  | .sha2_512_256 => 32
  | .sha3_224 => 28
  | .sha3_256 => 32
  | .sha3_384 => 48
  | .sha3_512 => 64
  | .keccak_256 => 32

/-- Column slot: the stride of a digest in a MERKLIZE buffer, dlen but for SHA2_512_224 (43_merger R216). -/
def slotOf : Variant → Nat
  | .sha1 => 20
  | .sha2_224 => 28
  | .sha2_256 => 32
  | .sha2_384 => 48
  | .sha2_512 => 64
  | .sha2_512_224 => 32
  | .sha2_512_256 => 32
  | .sha3_224 => 28
  | .sha3_256 => 32
  | .sha3_384 => 48
  | .sha3_512 => 64
  | .keccak_256 => 32

/-- Column block B (MD) or rate r (KP), in bytes. -/
def blockOf : Variant → Nat
  | .sha1 => 64
  | .sha2_224 => 64
  | .sha2_256 => 64
  | .sha2_384 => 128
  | .sha2_512 => 128
  | .sha2_512_224 => 128
  | .sha2_512_256 => 128
  | .sha3_224 => 144
  | .sha3_256 => 136
  | .sha3_384 => 104
  | .sha3_512 => 72
  | .keccak_256 => 136

/-- Column suffix, for the sponge variants (41_kp R162); no other variant reads it. -/
def suffixOf : Variant → Byte
  | .keccak_256 => 0x01
  | _ => 0x06

/-! ## Argument registers by number (10_state R21) -/

/-- x[i]; there is no register of another number. -/
def argGet (x : Args) : Nat → Option Word
  | 0 => some x.srcPtr
  | 1 => some x.srcLen
  | 2 => some x.leafCount
  | 3 => some x.dstPtr
  | 4 => some x.dstLen
  | 5 => some x.itmdCount
  | 6 => some x.batch
  | _ => none

/-- x[i] <- v, all 64 bits (10_state R22). -/
def argSet (x : Args) (i : Nat) (v : Word) : Args :=
  match i with
  | 0 => { x with srcPtr := v }
  | 1 => { x with srcLen := v }
  | 2 => { x with leafCount := v }
  | 3 => { x with dstPtr := v }
  | 4 => { x with dstLen := v }
  | 5 => { x with itmdCount := v }
  | 6 => { x with batch := v }
  | _ => x

/-! ## Tree quantities (43_merger R211) -/

/-- The bit test of 60_exceptions R273: N >= 2 and N & (N - 1) = 0. -/
def isLeafCount (n : Nat) : Bool := decide (2 ≤ n) && (n &&& (n - 1)) == 0

/-- L = log2 N. -/
def levels (n : Nat) : Nat := Nat.log2 n

/-- S_k = N / 2^k, the digests in level k. -/
def levelSize (n k : Nat) : Nat := n / 2 ^ k

/-- P_k = S_k / 2, the units that read level k. -/
def pairCount (n k : Nat) : Nat := levelSize n k / 2

/-- off_k = N - 2 * S_k, the DST slot where level k starts, for k >= 1 (43_merger R215). -/
def levelOffset (n k : Nat) : Nat := n - 2 * levelSize n k

/-! ## Batches (43_merger R218) -/

/-- b_k = min(BATCH, P_k). -/
def batchSize (batch n k : Nat) : Nat := min batch (pairCount n k)

/-- Level k is dispatched as P_k / b_k groups. -/
def groupCount (batch n k : Nat) : Nat := pairCount n k / batchSize batch n k

/-- The group that holds unit i of level k. -/
def groupOf (batch n k i : Nat) : Nat := i / batchSize batch n k

/-- BATCH >= 1 and b_k divides P_k at every level k < L (60_exceptions R277). -/
def batchFits (batch n : Nat) : Bool :=
  decide (1 ≤ batch) && (List.range (levels n)).all fun k => pairCount n k % batchSize batch n k == 0

/-! ## Addresses (43_merger R214, R220) -/

/-- Slot j of SRC. -/
def srcSlot (v : Variant) (a : Args) (j : Nat) : Nat := a.srcPtr.toNat + j * slotOf v

/-- Slot j of DST. -/
def dstSlot (v : Variant) (a : Args) (j : Nat) : Nat := a.dstPtr.toNat + j * slotOf v

/-- Where digest i of level k lies: a leaf in SRC, any other in DST from slot off_k on (43_merger R215, R220). -/
def digestAddr (v : Variant) (a : Args) (k i : Nat) : Nat :=
  match k with
  | 0 => srcSlot v a i
  | k + 1 => dstSlot v a (levelOffset a.leafCount.toNat (k + 1) + i)

/-- How many units the running command has at the moment: one for HASH (44_system R252), P_k for level k of MERKLIZE
(43_merger R221, R225), none while IDLE. -/
def unitCount (s : State) : Nat :=
  match s.seq.phase with
  | .idle => 0
  | .runHash => 1
  | .runLevel => pairCount s.latch.a.leafCount.toNat s.seq.k

/-- The MemReads of unit i's load step, address and length: 2*dlen bytes at a[0] for HASH (42_hash R190), the two
input digests for MERKLIZE (43_merger R223). -/
def unitReads (s : State) (i : Nat) : List (Nat × Nat) :=
  match s.seq.phase with
  | .idle => []
  | .runHash => [(s.latch.a.srcPtr.toNat, 2 * dlen s.latch.variant)]
  | .runLevel =>
    [(digestAddr s.latch.variant s.latch.a s.seq.k (2 * i), dlen s.latch.variant),
     (digestAddr s.latch.variant s.latch.a s.seq.k (2 * i + 1), dlen s.latch.variant)]

/-- The address of unit i's MemWrite: a[3] for HASH (42_hash R190), the slot of digest i of level k + 1 for MERKLIZE
(43_merger R224). -/
def unitOut (s : State) (i : Nat) : Nat :=
  match s.seq.phase with
  | .idle => 0
  | .runHash => s.latch.a.dstPtr.toNat
  | .runLevel => digestAddr s.latch.variant s.latch.a (s.seq.k + 1) i

end Sys2Proof.Machine
end

