-- ==== Sys2Proof/Machine/Ops.lean ====
section
/-!
DEFINITION. The shared operations of the MC on registers: the precondition checks, taking an error and returning from
one, accepting, dropping and finishing a command, and the CMD write around them (44_system R250; 60_exceptions).
-/

namespace Sys2Proof.Machine

open Sys2Proof

/-- What one step answers. -/
abbrev Result := Host.Outcome State Fault Refusal

/-- The constant ID register (10_state R24). -/
def idWord : Word := 0x00000FFF4D534831

/-! ## Taking an error, and returning from one -/

/-- `raise(code, info)` inside the CMD write: ERR, ERRCODE and ERRINFO, nothing else (60_exceptions R270). -/
def raiseError (e : ErrCode) (info : Word) (s : State) : State :=
  (s.withStatus { s.status with err := true, errCode := e.byte }).withErrInfo info

/-- The backend failure of a running command: BUSY falls, E_BACKEND with the address of the failed access, all units
dropped (60_exceptions R284). -/
def failBackend (addr : Nat) (s : State) : State :=
  ((s.withStatus { s.status with busy := false, err := true, errCode := ErrCode.backend.byte }).withErrInfo
    (BitVec.ofNat 64 addr)).withSeq { s.seq with phase := .idle, units := [] }

/-- CLEAR, the return from the error state: DONE, ERR, OVR, ERRCODE and ERRINFO fall (44_system R255; 60_exceptions
R285). -/
def acknowledge (s : State) : State :=
  (s.withStatus { s.status with done := false, err := false, ovr := false, errCode := 0 }).withErrInfo 0

/-! ## The life of a command -/

/-- A dropped CMD write: OVR rises, nothing else (44_system R251). -/
def dropCommand (s : State) : State := s.withStatus { s.status with ovr := true }

/-- The previous result is no longer that of the last command (44_system R250). -/
def clearDone (s : State) : State := s.withStatus { s.status with done := false }

/-- SEQ after an accept: one WAITING unit for HASH, the WAITING units of level 0 for MERKLIZE (44_system R252). -/
def seqAtAccept (op : Op) (q : Seq) : Seq :=
  match op with
  | .hash => { q with phase := .runHash, units := [] }
  | .merklize => { phase := .runLevel, k := 0, units := [] }

/-- `accept(op, v)`: LATCH, BUSY, SEQ; no memory access (44_system R252). -/
def acceptCommand (op : Op) (v : Variant) (s : State) : State :=
  ((s.withLatch { op := op, variant := v, a := s.x }).withStatus { s.status with busy := true }).withSeq
    (seqAtAccept op s.seq)

/-- Completion: BUSY falls, DONE rises, SEQ is IDLE (42_hash R192; 43_merger R229; log 20). -/
def completeCommand (s : State) : State :=
  (s.withStatus { s.status with busy := false, done := true }).withSeq { s.seq with phase := .idle }

/-! ## Precondition checks; `none` is Ok (60_exceptions R269) -/

/-- The region of `len` bytes at `base` passes 2^64 (60_exceptions R281). -/
def wraps (base len : Word) : Bool := decide (2 ^ 64 < base.toNat + len.toNat)

/-- `check_hash(v, x)` (42_hash R190; 60_exceptions R280, R281). -/
def checkHash (v : Variant) (x : Args) : Option (ErrCode × Word) :=
  if x.srcLen.toNat ≠ 2 * dlen v then some (.shape, x.srcLen)
  else if x.dstLen.toNat ≠ dlen v then some (.shape, x.dstLen)
  else if wraps x.srcPtr x.srcLen then some (.wrap, x.srcPtr)
  else if wraps x.dstPtr x.dstLen then some (.wrap, x.dstPtr)
  else none

/-- `check_merklize(v, x)` (43_merger R212; 60_exceptions R273 to R277, R281, R282). Products and sums are natural
numbers (00_scope R11). -/
def checkMerklize (v : Variant) (x : Args) : Option (ErrCode × Word) :=
  if isLeafCount x.leafCount.toNat = false then some (.leafCount, x.leafCount)
  else if x.srcLen.toNat ≠ x.leafCount.toNat * slotOf v then some (.srcLen, x.srcLen)
  else if x.itmdCount.toNat ≠ x.leafCount.toNat - 1 then some (.itmdCount, x.itmdCount)
  else if x.dstLen.toNat ≠ (x.itmdCount.toNat + 1) * slotOf v then some (.dstLen, x.dstLen)
  else if batchFits x.batch.toNat x.leafCount.toNat = false then some (.batch, x.batch)
  else if wraps x.srcPtr x.srcLen then some (.wrap, x.srcPtr)
  else if wraps x.dstPtr x.dstLen then some (.wrap, x.dstPtr)
  else if rangesMeet x.srcPtr.toNat x.srcLen.toNat x.dstPtr.toNat x.dstLen.toNat then some (.overlap, x.dstPtr)
  else none

/-! ## The CMD write (44_system R250) -/

/-- A command other than CLEAR is dropped while BUSY = 1 and while ERR = 1. -/
def dropped (s : State) : Bool := s.status.busy || s.status.err

/-- The CMD write of a decoded HASH or MERKLIZE: dropped, refused with the first failing check, or accepted. -/
def issueCommand (op : Op) (v : Variant) (check : Option (ErrCode × Word)) (s : State) : State :=
  if dropped s then dropCommand s
  else
    match check with
    | some (e, info) => raiseError e info (clearDone s)
    | none => acceptCommand op v (clearDone s)

/-- The CMD write of HASH.v (42_hash R190). -/
def issueHash (v : Variant) (s : State) : Result := .next (issueCommand .hash v (checkHash v s.x) s)

/-- The CMD write of MERKLIZE.v (43_merger R212, R221). -/
def issueMerklize (v : Variant) (s : State) : Result := .next (issueCommand .merklize v (checkMerklize v s.x) s)

/-- The CMD write of CLEAR: dropped while BUSY = 1 only (44_system R255). -/
def issueClear (s : State) : Result := .next (if s.status.busy then dropCommand s else acknowledge s)

/-- The CMD write of a word that is no command (30_encoding R98; 60_exceptions R271, R272). -/
def issueBadWord (e : ErrCode) (c : Word) (s : State) : Result :=
  .next (if dropped s then dropCommand s else raiseError e c (clearDone s))

end Sys2Proof.Machine
end

