-- ==== Sys2Proof/Machine/Clear.lean ====
section
/-!
DEFINITION. CLEAR (44_system R255).
-/

namespace Sys2Proof.Machine

open Sys2Proof

/-- CLEAR, word 0x03 (44_system R255). -/
def execClear (s : State) : Host.Outcome State Fault Refusal := issueClear s

end Sys2Proof.Machine
end

