-- ==== Sys2Proof/Machine/Hash.lean ====
section
/-!
DEFINITION. The HASH commands: what the CMD write of each does (42_hash R190). The unit and MC steps that follow are in Units.
-/

namespace Sys2Proof.Machine

open Sys2Proof

/-- HASH.SHA1, word 0x01 (42_hash R193). -/
def execHashSha1 (s : State) : Host.Outcome State Fault Refusal := issueHash .sha1 s

/-- HASH.SHA2_224, word 0x11 (42_hash R194). -/
def execHashSha2_224 (s : State) : Host.Outcome State Fault Refusal := issueHash .sha2_224 s

/-- HASH.SHA2_256, word 0x21 (42_hash R195). -/
def execHashSha2_256 (s : State) : Host.Outcome State Fault Refusal := issueHash .sha2_256 s

/-- HASH.SHA2_384, word 0x31 (42_hash R196). -/
def execHashSha2_384 (s : State) : Host.Outcome State Fault Refusal := issueHash .sha2_384 s

/-- HASH.SHA2_512, word 0x41 (42_hash R197). -/
def execHashSha2_512 (s : State) : Host.Outcome State Fault Refusal := issueHash .sha2_512 s

/-- HASH.SHA2_512_224, word 0x51 (42_hash R198). -/
def execHashSha2_512_224 (s : State) : Host.Outcome State Fault Refusal := issueHash .sha2_512_224 s

/-- HASH.SHA2_512_256, word 0x61 (42_hash R199). -/
def execHashSha2_512_256 (s : State) : Host.Outcome State Fault Refusal := issueHash .sha2_512_256 s

/-- HASH.SHA3_224, word 0x71 (42_hash R200). -/
def execHashSha3_224 (s : State) : Host.Outcome State Fault Refusal := issueHash .sha3_224 s

/-- HASH.SHA3_256, word 0x81 (42_hash R201). -/
def execHashSha3_256 (s : State) : Host.Outcome State Fault Refusal := issueHash .sha3_256 s

/-- HASH.SHA3_384, word 0x91 (42_hash R202). -/
def execHashSha3_384 (s : State) : Host.Outcome State Fault Refusal := issueHash .sha3_384 s

/-- HASH.SHA3_512, word 0xA1 (42_hash R203). -/
def execHashSha3_512 (s : State) : Host.Outcome State Fault Refusal := issueHash .sha3_512 s

/-- HASH.KECCAK_256, word 0xB1 (42_hash R204). -/
def execHashKeccak_256 (s : State) : Host.Outcome State Fault Refusal := issueHash .keccak_256 s

end Sys2Proof.Machine
end

