-- ==== Sys2Proof/Machine/Merklize.lean ====
section
/-!
DEFINITION. The MERKLIZE commands: what the CMD write of each does (43_merger R212, R221). The unit and MC steps that follow are
in Units.
-/

namespace Sys2Proof.Machine

open Sys2Proof

/-- MERKLIZE.SHA1, word 0x02 (43_merger R231). -/
def execMerklizeSha1 (s : State) : Host.Outcome State Fault Refusal := issueMerklize .sha1 s

/-- MERKLIZE.SHA2_224, word 0x12 (43_merger R232). -/
def execMerklizeSha2_224 (s : State) : Host.Outcome State Fault Refusal := issueMerklize .sha2_224 s

/-- MERKLIZE.SHA2_256, word 0x22 (43_merger R233). -/
def execMerklizeSha2_256 (s : State) : Host.Outcome State Fault Refusal := issueMerklize .sha2_256 s

/-- MERKLIZE.SHA2_384, word 0x32 (43_merger R234). -/
def execMerklizeSha2_384 (s : State) : Host.Outcome State Fault Refusal := issueMerklize .sha2_384 s

/-- MERKLIZE.SHA2_512, word 0x42 (43_merger R235). -/
def execMerklizeSha2_512 (s : State) : Host.Outcome State Fault Refusal := issueMerklize .sha2_512 s

/-- MERKLIZE.SHA2_512_224, word 0x52 (43_merger R236). -/
def execMerklizeSha2_512_224 (s : State) : Host.Outcome State Fault Refusal := issueMerklize .sha2_512_224 s

/-- MERKLIZE.SHA2_512_256, word 0x62 (43_merger R237). -/
def execMerklizeSha2_512_256 (s : State) : Host.Outcome State Fault Refusal := issueMerklize .sha2_512_256 s

/-- MERKLIZE.SHA3_224, word 0x72 (43_merger R238). -/
def execMerklizeSha3_224 (s : State) : Host.Outcome State Fault Refusal := issueMerklize .sha3_224 s

/-- MERKLIZE.SHA3_256, word 0x82 (43_merger R239). -/
def execMerklizeSha3_256 (s : State) : Host.Outcome State Fault Refusal := issueMerklize .sha3_256 s

/-- MERKLIZE.SHA3_384, word 0x92 (43_merger R240). -/
def execMerklizeSha3_384 (s : State) : Host.Outcome State Fault Refusal := issueMerklize .sha3_384 s

/-- MERKLIZE.SHA3_512, word 0xA2 (43_merger R241). -/
def execMerklizeSha3_512 (s : State) : Host.Outcome State Fault Refusal := issueMerklize .sha3_512 s

/-- MERKLIZE.KECCAK_256, word 0xB2 (43_merger R242). -/
def execMerklizeKeccak_256 (s : State) : Host.Outcome State Fault Refusal := issueMerklize .keccak_256 s

end Sys2Proof.Machine
end

