-- ==== Sys2Proof/Machine/Dispatch.lean ====
section
/-!
DEFINITION. The meaning of each command: its CMD write (44_system R250).
-/

namespace Sys2Proof.Machine

open Sys2Proof

def exec (i : Instr) (s : State) : Host.Outcome State Fault Refusal :=
  match i with
  | .hashSha1 => Sys2Proof.Machine.execHashSha1 s
  | .hashSha2_224 => Sys2Proof.Machine.execHashSha2_224 s
  | .hashSha2_256 => Sys2Proof.Machine.execHashSha2_256 s
  | .hashSha2_384 => Sys2Proof.Machine.execHashSha2_384 s
  | .hashSha2_512 => Sys2Proof.Machine.execHashSha2_512 s
  | .hashSha2_512_224 => Sys2Proof.Machine.execHashSha2_512_224 s
  | .hashSha2_512_256 => Sys2Proof.Machine.execHashSha2_512_256 s
  | .hashSha3_224 => Sys2Proof.Machine.execHashSha3_224 s
  | .hashSha3_256 => Sys2Proof.Machine.execHashSha3_256 s
  | .hashSha3_384 => Sys2Proof.Machine.execHashSha3_384 s
  | .hashSha3_512 => Sys2Proof.Machine.execHashSha3_512 s
  | .hashKeccak_256 => Sys2Proof.Machine.execHashKeccak_256 s
  | .merklizeSha1 => Sys2Proof.Machine.execMerklizeSha1 s
  | .merklizeSha2_224 => Sys2Proof.Machine.execMerklizeSha2_224 s
  | .merklizeSha2_256 => Sys2Proof.Machine.execMerklizeSha2_256 s
  | .merklizeSha2_384 => Sys2Proof.Machine.execMerklizeSha2_384 s
  | .merklizeSha2_512 => Sys2Proof.Machine.execMerklizeSha2_512 s
  | .merklizeSha2_512_224 => Sys2Proof.Machine.execMerklizeSha2_512_224 s
  | .merklizeSha2_512_256 => Sys2Proof.Machine.execMerklizeSha2_512_256 s
  | .merklizeSha3_224 => Sys2Proof.Machine.execMerklizeSha3_224 s
  | .merklizeSha3_256 => Sys2Proof.Machine.execMerklizeSha3_256 s
  | .merklizeSha3_384 => Sys2Proof.Machine.execMerklizeSha3_384 s
  | .merklizeSha3_512 => Sys2Proof.Machine.execMerklizeSha3_512 s
  | .merklizeKeccak_256 => Sys2Proof.Machine.execMerklizeKeccak_256 s
  | .clear => Sys2Proof.Machine.execClear s

end Sys2Proof.Machine
end

