-- ==== Sys2Proof/Config.lean ====
section
/-!
DEFINITION. What one build of the hardware fixes and the spec leaves open (00_scope R8, 10_state R42):
constants without a body, so that no proof can see their value.
-/

namespace Sys2Proof

/-- KP_PATH: whether the KP engine computes on 64-bit lanes or on interleaved 32-bit limbs (00_scope R8). -/
inductive KpPath where
  | lane64
  | ilv32
  deriving DecidableEq, Repr, Inhabited

/-- MD_SCHED: whether the MD engine holds the whole message schedule or its last 16 words (00_scope R8; 92 D34). -/
inductive MdSched where
  | full
  | window16
  deriving DecidableEq, Repr, Inhabited

/-- KP_PATH of this build (log 8). -/
opaque Config.kpPath : KpPath

/-- MD_SCHED of this build (log 8). -/
opaque Config.mdSched : MdSched

/-- The compression units beyond the first (log 9). -/
opaque Config.extraLanes : Nat

/-- NLANES, at least 1 (00_scope R8; 92 D28). It names a bound on the units in flight that no result depends on;
the step offers every enabled unit step, whatever NLANES is (93 U1; log 9). -/
def Config.nLanes : Nat := Config.extraLanes + 1

end Sys2Proof
end

