-- ==== Sys2Proof/Machine/TableRows.lean ====
section
/-!
DEFINITION. The rows in which the spec prints its tables of 64-bit constants (40_md R135; 41_kp R170).
-/

namespace Sys2Proof.Machine

open Sys2Proof

/-- The four words of a printed row, the first one the most significant. -/
def rowWords (r : BitVec 256) : List (BitVec 64) :=
  [r.extractLsb' 192 64, r.extractLsb' 128 64, r.extractLsb' 64 64, r.extractLsb' 0 64]

end Sys2Proof.Machine
end

