-- ==== Sys2Proof/Machine/KpTables.lean ====
section
/-!
DEFINITION. The constant tables of the KP engine (41_kp R166, R170, R178), as the spec prints them. They are not state
(10_state R38).
-/

namespace Sys2Proof.Machine

open Sys2Proof

/-- The offsets of ρ in the rows of 41_kp R166: row y, column x. -/
def rhoRows : List (List Nat) :=
  [[0, 1, 62, 28, 27], [36, 44, 6, 55, 20], [3, 10, 43, 25, 39], [41, 45, 15, 21, 8], [18, 2, 61, 56, 14]]

/-- RHO in lane-index order: the offset of lane (x, y) at place x + 5y (41_kp R166). -/
def rhoTable : List Nat := rhoRows.flatten

/-- RC as 41_kp R170 prints it: a row of four words is one number, its first word the most significant. -/
def rcRows : List (BitVec 256) :=
  [0x0000000000000001_0000000000008082_800000000000808a_8000000080008000,
   0x000000000000808b_0000000080000001_8000000080008081_8000000000008009,
   0x000000000000008a_0000000000000088_0000000080008009_000000008000000a,
   0x000000008000808b_800000000000008b_8000000000008089_8000000000008003,
   0x8000000000008002_8000000000000080_000000000000800a_800000008000000a,
   0x8000000080008081_8000000000008080_0000000080000001_8000000080008008]

/-- RC[0..23] (41_kp R170). -/
def rcTable : List (BitVec 64) := rcRows.flatMap rowWords

/-- (RCE, RCO)[0..23] (41_kp R178). -/
def rcLimbTable : List (BitVec 32 × BitVec 32) :=
  [(0x00000001, 0x00000000), (0x00000000, 0x00000089), (0x00000000, 0x8000008b),
   (0x00000000, 0x80008080), (0x00000001, 0x0000008b), (0x00000001, 0x00008000),
   (0x00000001, 0x80008088), (0x00000001, 0x80000082), (0x00000000, 0x0000000b),
   (0x00000000, 0x0000000a), (0x00000001, 0x00008082), (0x00000000, 0x00008003),
   (0x00000001, 0x0000808b), (0x00000001, 0x8000000b), (0x00000001, 0x8000008a),
   (0x00000001, 0x80000081), (0x00000000, 0x80000081), (0x00000000, 0x80000008),
   (0x00000000, 0x00000083), (0x00000000, 0x80008003), (0x00000001, 0x80008088),
   (0x00000000, 0x80000088), (0x00000001, 0x00008000), (0x00000000, 0x80008082)]

end Sys2Proof.Machine
end

