-- ==== Sys2Proof/Machine/MdEngine.lean ====
section
/-!
DEFINITION. The MD engine: SHA-2 on 32-bit and 64-bit words, and SHA-1 (40_md). Each step is written over the
registers of 10_state R34, R35. The same values come out under both message-schedule stores (92 D34).
-/

namespace Sys2Proof.Machine

open Sys2Proof

/-! ## Words and bytes (00_scope R10; 40_md R121) -/

/-- `ROTR_w(v, n)` for 0 < n < w. -/
def rotr {w : Nat} (v : BitVec w) (n : Nat) : BitVec w := (v >>> n) ||| (v <<< (w - n))

/-- `ROTL_w(v, n)` for 0 <= n < w. -/
def rotl {w : Nat} (v : BitVec w) (n : Nat) : BitVec w := (v <<< n) ||| (v >>> (w - n))

/-- `SHR(v, n)`. -/
def shr {w : Nat} (v : BitVec w) (n : Nat) : BitVec w := v >>> n

/-- `be_w(s)`: the first byte is the most significant. -/
def beWord (w : Nat) (s : Bytes) : BitVec w := BitVec.ofNat w (s.foldl (fun n b => n * 256 + b.toNat) 0)

/-- `tobe_w(v)`: the w/8 bytes of v, most significant first. -/
def toBe {w : Nat} (v : BitVec w) : Bytes := (List.range (w / 8)).map fun i => v.extractLsb' (w - 8 - 8 * i) 8

/-- The big-endian encoding of a number in `len` bytes. -/
def beNat : Nat → Nat → Bytes
  | 0, _ => []
  | len + 1, v => BitVec.ofNat 8 (v / 256 ^ len) :: beNat len v

/-! ## Pad and parse (40_md R123, R124) -/

/-- The number of blocks of `B` bytes that hold `n` bytes, the byte 0x80 and the length field of B/8 bytes. -/
def mdBlocks (B n : Nat) : Nat := (n + 1 + B / 8 + (B - 1)) / B

/-- PM for blocks of `B` bytes; the length field has LF = B/8 bytes: 8 for B = 64, 16 for B = 128. -/
def mdPad (B : Nat) (m : Bytes) : Bytes :=
  let n := m.length
  m ++ [0x80] ++ List.replicate (mdBlocks B n * B - B / 8 - (n + 1)) 0 ++ beNat (B / 8) (8 * n)

/-- M[j][0..15], the words of block j. -/
def mdWords (w B : Nat) (pm : Bytes) (j : Nat) : List (BitVec w) :=
  (List.range 16).map fun i => beWord w ((pm.drop (j * B + i * (w / 8))).take (w / 8))

/-! ## SHA-2 logical functions (40_md R122) -/

/-- What fixes a SHA-2 configuration: the rotation amounts of the four Sigma functions (the third of a small sigma is
a shift) and the round constants, one for each round. -/
structure MdConfig (w : Nat) where
  bigSigma0 : Nat × Nat × Nat
  bigSigma1 : Nat × Nat × Nat
  smallSigma0 : Nat × Nat × Nat
  smallSigma1 : Nat × Nat × Nat
  k : List (BitVec w)

/-- w = 32: K256, 64 rounds. -/
def md32 : MdConfig 32 :=
  { bigSigma0 := (2, 13, 22), bigSigma1 := (6, 11, 25), smallSigma0 := (7, 18, 3), smallSigma1 := (17, 19, 10),
    k := k256 }

/-- w = 64: K512, 80 rounds. -/
def md64 : MdConfig 64 :=
  { bigSigma0 := (28, 34, 39), bigSigma1 := (14, 18, 41), smallSigma0 := (1, 8, 7), smallSigma1 := (19, 61, 6),
    k := k512 }

/-- Ch(x, y, z). -/
def ch {w : Nat} (x y z : BitVec w) : BitVec w := (x &&& y) ^^^ (~~~x &&& z)

/-- Maj(x, y, z). -/
def maj {w : Nat} (x y z : BitVec w) : BitVec w := (x &&& y) ^^^ (x &&& z) ^^^ (y &&& z)

/-- A big Sigma: three rotations. -/
def bigSigma {w : Nat} (r : Nat × Nat × Nat) (x : BitVec w) : BitVec w := rotr x r.1 ^^^ rotr x r.2.1 ^^^ rotr x r.2.2

/-- A small sigma: two rotations and a shift. -/
def smallSigma {w : Nat} (r : Nat × Nat × Nat) (x : BitVec w) : BitVec w := rotr x r.1 ^^^ rotr x r.2.1 ^^^ shr x r.2.2

/-! ## Expand (40_md R127, R138) -/

/-- The next schedule word from those before it, the latest first: W[t-2], W[t-7], W[t-15], W[t-16] stand at places
1, 6, 14, 15. -/
def expandNext {w : Nat} (c : MdConfig w) (latest : List (BitVec w)) : BitVec w :=
  smallSigma c.smallSigma1 (latest.getD 1 0) + latest.getD 6 0 + smallSigma c.smallSigma0 (latest.getD 14 0)
    + latest.getD 15 0

/-- The next SHA-1 schedule word: W[t-3], W[t-8], W[t-14], W[t-16] stand at places 2, 7, 13, 15. -/
def expandNext1 (latest : List (BitVec 32)) : BitVec 32 :=
  rotl (latest.getD 2 0 ^^^ latest.getD 7 0 ^^^ latest.getD 13 0 ^^^ latest.getD 15 0) 1

/-- `n` more schedule words in front, each from those before it. -/
def extend {α : Type} (next : List α → α) : Nat → List α → List α
  | 0, latest => latest
  | n + 1, latest => extend next n (next latest :: latest)

/-- The whole schedule W[0..R-1] from the 16 words of a block. -/
def schedule {α : Type} (next : List α → α) (rounds : Nat) (m : List α) : List α :=
  (extend next (rounds - 16) m.reverse).reverse

/-! ## Rounds (40_md R128 to R130, R137, R139, R141) -/

/-- One SHA-2 round with round constant `k` and schedule word `x` (40_md R129). -/
def mdRound {w : Nat} (c : MdConfig w) (k x : BitVec w) (s : Work w) : Work w :=
  let t1 := s.h + bigSigma c.bigSigma1 s.e + ch s.e s.f s.g + k + x
  let t2 := bigSigma c.bigSigma0 s.a + maj s.a s.b s.c
  { a := t1 + t2, b := s.a, c := s.b, d := s.c, e := s.d + t1, f := s.e, g := s.f, h := s.g }

/-- f_t (40_md R137). -/
def sha1F (t : Nat) (b c d : BitVec 32) : BitVec 32 :=
  if t < 20 then (b &&& c) ^^^ (~~~b &&& d)
  else if t < 40 then b ^^^ c ^^^ d
  else if t < 60 then (b &&& c) ^^^ (b &&& d) ^^^ (c &&& d)
  else b ^^^ c ^^^ d

/-- K1_t (40_md R137). -/
def sha1K (t : Nat) : BitVec 32 :=
  if t < 20 then 0x5a827999
  else if t < 40 then 0x6ed9eba1
  else if t < 60 then 0x8f1bbcdc
  else 0xca62c1d6

/-- SHA-1 round `t` with schedule word `x` (40_md R139). -/
def sha1Round (t : Nat) (x : BitVec 32) (s : Work1) : Work1 :=
  { a := rotl s.a 5 + sha1F t s.b s.c s.d + s.e + sha1K t + x, b := s.a, c := rotl s.b 30, d := s.c, e := s.d }

/-- SHA-1 has 80 rounds (40_md R136). -/
def sha1Rounds : Nat := 80

/-- (a .. h) <- H (40_md R128). -/
def workOf {w : Nat} (hs : List (BitVec w)) : Work w :=
  { a := hs.getD 0 0, b := hs.getD 1 0, c := hs.getD 2 0, d := hs.getD 3 0,
    e := hs.getD 4 0, f := hs.getD 5 0, g := hs.getD 6 0, h := hs.getD 7 0 }

/-- a .. h in order. -/
def workList {w : Nat} (s : Work w) : List (BitVec w) := [s.a, s.b, s.c, s.d, s.e, s.f, s.g, s.h]

/-- (a .. e) <- H (40_md R139). -/
def work1Of (hs : List (BitVec 32)) : Work1 :=
  { a := hs.getD 0 0, b := hs.getD 1 0, c := hs.getD 2 0, d := hs.getD 3 0, e := hs.getD 4 0 }

/-- a .. e in order. -/
def work1List (s : Work1) : List (BitVec 32) := [s.a, s.b, s.c, s.d, s.e]

/-- H[i] <- H[i] + (a ..)[i] (40_md R130, R141). -/
def feedForward {w : Nat} (hs vars : List (BitVec w)) : List (BitVec w) := List.zipWith (· + ·) hs vars

/-- The rounds of a block with the whole schedule in store: round `t` uses the word at place t. -/
def runFull {σ α : Type} (round : Nat → α → σ → σ) (ws : List α) (s : σ) : σ :=
  ws.zipIdx.foldl (fun s x => round x.2 x.1 s) s

/-- One round with the last 16 schedule words in store, the latest first: rounds 0 to 15 use the words of the block
`m`, a later round first makes its word and drops the oldest (92 D34). -/
def windowStep {σ α : Type} (next : List α → α) (zero : α) (round : Nat → α → σ → σ) (m : List α)
    (p : List α × σ) (t : Nat) : List α × σ :=
  if t < 16 then (p.1, round t (m.getD t zero) p.2)
  else (next p.1 :: p.1.take 15, round t (next p.1) p.2)

/-- The rounds of a block with the last 16 schedule words in store. -/
def runWindow {σ α : Type} (next : List α → α) (zero : α) (round : Nat → α → σ → σ) (rounds : Nat) (m : List α)
    (s : σ) : List α × σ :=
  (List.range rounds).foldl (windowStep next zero round m) (m.reverse, s)

/-! ## The block loop over the registers (40_md R125, R136) -/

/-- One block of a SHA-2 configuration (40_md R125). -/
def mdBlock {w : Nat} (sched : MdSched) (c : MdConfig w) (B : Nat) (r : MdRegs w) (j : Nat) : MdRegs w :=
  let m := mdWords w B r.pm j
  let round := fun t x s => mdRound c (c.k.getD t 0) x s
  match sched with
  | .full =>
    let ws := schedule (expandNext c) c.k.length m
    let vars := runFull round ws (workOf r.hs)
    { r with hs := feedForward r.hs (workList vars), ws := ws, vars := vars, t := c.k.length - 1, j := j }
  | .window16 =>
    let p := runWindow (expandNext c) 0 round c.k.length m (workOf r.hs)
    { r with hs := feedForward r.hs (workList p.2), ws := p.1.reverse, vars := p.2, t := c.k.length - 1, j := j }

/-- A whole SHA-2 compression over the registers (40_md R125): pad, H <- IV, then the blocks in order. The schedule
and the working variables are written before they are read (10_state R41; log 7). -/
def mdRun {w : Nat} (sched : MdSched) (c : MdConfig w) (B : Nat) (iv : List (BitVec w)) (m : Bytes) : MdRegs w :=
  (List.range (mdBlocks B m.length)).foldl (mdBlock sched c B)
    { pm := mdPad B m, hs := iv, ws := [], vars := workOf iv, t := 0, j := 0 }

/-- One block of the SHA-1 configuration (40_md R136). -/
def sha1Block (sched : MdSched) (r : Sha1Regs) (j : Nat) : Sha1Regs :=
  let m := mdWords 32 64 r.pm j
  match sched with
  | .full =>
    let ws := schedule expandNext1 sha1Rounds m
    let vars := runFull sha1Round ws (work1Of r.hs)
    { r with hs := feedForward r.hs (work1List vars), ws := ws, vars := vars, t := sha1Rounds - 1, j := j }
  | .window16 =>
    let p := runWindow expandNext1 0 sha1Round sha1Rounds m (work1Of r.hs)
    { r with hs := feedForward r.hs (work1List p.2), ws := p.1.reverse, vars := p.2, t := sha1Rounds - 1, j := j }

/-- A whole SHA-1 compression over the registers (40_md R136). -/
def sha1Run (sched : MdSched) (m : Bytes) : Sha1Regs :=
  (List.range (mdBlocks 64 m.length)).foldl (sha1Block sched)
    { pm := mdPad 64 m, hs := ivSha1, ws := [], vars := work1Of ivSha1, t := 0, j := 0 }

/-! ## Truncate and emit (40_md R131, R141) -/

/-- The words of H in big-endian bytes, cut to the digest length. -/
def mdEmit {w : Nat} (len : Nat) (hs : List (BitVec w)) : Bytes := (hs.flatMap toBe).take len

/-- The initialisation vectors of the 32-bit SHA-2 variants (40_md R126, R133); only SHA2_224 and SHA2_256 ask. -/
def iv32Of : Variant → List (BitVec 32)
  | .sha2_224 => iv224
  | _ => iv256

/-- The initialisation vectors of the 64-bit SHA-2 variants (40_md R126, R134); only the four of them ask. -/
def iv64Of : Variant → List (BitVec 64)
  | .sha2_384 => iv384
  | .sha2_512_224 => iv512_224
  | .sha2_512_256 => iv512_256
  | _ => iv512

end Sys2Proof.Machine
end

