-- ==== Sys2Proof/Machine/KpEngine.lean ====
section
/-!
DEFINITION. The KP engine: the Keccak sponge on 64-bit lanes and on interleaved 32-bit limbs (41_kp). The five step
mappings are plain functions on the 25 lanes; the engine writes them over the registers of 10_state R36, R37.
-/

namespace Sys2Proof.Machine

open Sys2Proof

/-! ## Lanes and bytes (41_kp R161) -/

/-- `le64(s)`: the first byte is the least significant. -/
def leLane (s : Bytes) : BitVec 64 := BitVec.ofNat 64 (s.foldr (fun b n => b.toNat + 256 * n) 0)

/-- `tole64(v)`: the 8 bytes of v, least significant first. -/
def toLe (v : BitVec 64) : Bytes := (List.range 8).map fun i => v.extractLsb' (8 * i) 8

/-- Lane i of a state or a row of temporaries. -/
def lane (a : List (BitVec 64)) (i : Nat) : BitVec 64 := a.getD i 0

/-! ## Pad and absorb (41_kp R162, R163) -/

/-- The number of rate blocks for `n` input bytes. -/
def kpBlocks (r n : Nat) : Nat := n / r + 1

/-- PM: the input, the suffix byte, zeros, and 0x80 XORed into the last byte. -/
def kpPad (r : Nat) (suffix : Byte) (m : Bytes) : Bytes :=
  let len := kpBlocks r m.length * r
  let pm := m ++ suffix :: List.replicate (len - (m.length + 1)) 0
  pm.modify (len - 1) (· ^^^ 0x80)

/-- Lane i of block j of PM. -/
def blockLane (r : Nat) (pm : Bytes) (j i : Nat) : BitVec 64 := leLane ((pm.drop (j * r + 8 * i)).take 8)

/-- A[i] <- A[i] ^ lane i of block j for i < r/8; the capacity lanes stay (41_kp R163). -/
def absorb (r : Nat) (pm : Bytes) (j : Nat) (a : List (BitVec 64)) : List (BitVec 64) :=
  (List.range 25).map fun i => if i < r / 8 then lane a i ^^^ blockLane r pm j i else lane a i

/-! ## The step mappings on lanes (41_kp R165 to R169) -/

/-- C[x], the parity of column x. -/
def thetaC (a : List (BitVec 64)) : List (BitVec 64) :=
  (List.range 5).map fun x => lane a x ^^^ lane a (x + 5) ^^^ lane a (x + 10) ^^^ lane a (x + 15) ^^^ lane a (x + 20)

/-- D[x]. -/
def thetaD (c : List (BitVec 64)) : List (BitVec 64) :=
  (List.range 5).map fun x => lane c ((x + 4) % 5) ^^^ rotl (lane c ((x + 1) % 5)) 1

/-- A[x+5y] ^ D[x]. -/
def thetaA (a d : List (BitVec 64)) : List (BitVec 64) := (List.range 25).map fun i => lane a i ^^^ lane d (i % 5)

/-- θ (41_kp R165). -/
def theta (a : List (BitVec 64)) : List (BitVec 64) := thetaA a (thetaD (thetaC a))

/-- ρ (41_kp R166). -/
def rho (a : List (BitVec 64)) : List (BitVec 64) := (List.range 25).map fun i => rotl (lane a i) (rhoTable.getD i 0)

/-- The place lane i moves to under π: (x, y) to (y, (2x + 3y) mod 5) (41_kp R167). -/
def piDest (i : Nat) : Nat := i / 5 + 5 * ((2 * (i % 5) + 3 * (i / 5)) % 5)

/-- The place the lane at `j` came from under π: with j = X + 5Y, y = X and x = (X + 3Y) mod 5. -/
def piSource (j : Nat) : Nat := (j % 5 + 3 * (j / 5)) % 5 + 5 * (j % 5)

/-- π (41_kp R167). -/
def piStep (a : List (BitVec 64)) : List (BitVec 64) := (List.range 25).map fun j => lane a (piSource j)

/-- χ (41_kp R168). -/
def chi (b : List (BitVec 64)) : List (BitVec 64) :=
  (List.range 25).map fun i =>
    lane b i ^^^ (~~~lane b ((i % 5 + 1) % 5 + 5 * (i / 5)) &&& lane b ((i % 5 + 2) % 5 + 5 * (i / 5)))

/-- ι (41_kp R169). -/
def iota (a : List (BitVec 64)) (rnd : Nat) : List (BitVec 64) := a.modify 0 (· ^^^ rcTable.getD rnd 0)

/-- The rounds of Keccak-p (41_kp R164). -/
def kpRounds : Nat := 24

/-- One round: ι (χ (π (ρ (θ A)))) (41_kp R164). -/
def keccakRound (a : List (BitVec 64)) (rnd : Nat) : List (BitVec 64) := iota (chi (piStep (rho (theta a)))) rnd

/-- Keccak-p[1600, 24] (41_kp R164). -/
def keccakP (a : List (BitVec 64)) : List (BitVec 64) := (List.range kpRounds).foldl keccakRound a

/-! ## The LANE64 engine over its registers (10_state R36) -/

/-- One round over the registers. -/
def kpRoundRegs (r : KpRegs) (rnd : Nat) : KpRegs :=
  let c := thetaC r.a
  let d := thetaD c
  let bt := piStep (rho (thetaA r.a d))
  { r with c := c, d := d, bt := bt, a := iota (chi bt) rnd, rnd := rnd }

/-- Absorb block j and permute. -/
def kpBlock (rate : Nat) (r : KpRegs) (j : Nat) : KpRegs :=
  (List.range kpRounds).foldl kpRoundRegs { r with a := absorb rate r.pm j r.a, j := j }

/-- A whole sponge run over the registers: A <- 0, then the blocks in order (41_kp R163). -/
def kpRun (rate : Nat) (suffix : Byte) (m : Bytes) : KpRegs :=
  (List.range (kpBlocks rate m.length)).foldl (kpBlock rate)
    { pm := kpPad rate suffix m, a := List.replicate 25 0, c := [], d := [], bt := [], rnd := 0, j := 0 }

/-- Squeeze: the first `len` bytes of the state (41_kp R171). -/
def squeeze (len : Nat) (a : List (BitVec 64)) : Bytes := (a.flatMap toLe).take len

/-! ## Bit interleaving (41_kp R174 to R176) -/

/-- The word of `n` bits whose bit i is `f i`. -/
def gatherBits (f : Nat → Bool) : (n : Nat) → BitVec n
  | 0 => 0
  | n + 1 => BitVec.cons (f n) (gatherBits f n)

/-- `to_bit_interleaved`: (E, O) with E[n] = wd[2n], O[n] = wd[2n+1] (41_kp R174). -/
def toInterleaved (wd : BitVec 64) : BitVec 32 × BitVec 32 :=
  (gatherBits (fun n => wd.getLsbD (2 * n)) 32, gatherBits (fun n => wd.getLsbD (2 * n + 1)) 32)

/-- `from_bit_interleaved`: wd[2n] = E[n], wd[2n+1] = O[n] (41_kp R174). -/
def fromInterleaved (p : BitVec 32 × BitVec 32) : BitVec 64 :=
  gatherBits (fun i => if i % 2 = 0 then p.1.getLsbD (i / 2) else p.2.getLsbD (i / 2)) 64

/-- `ROTL_64(., n)` on limbs: the limbs swap when the amount is odd (41_kp R176). -/
def rotlLimbs (p : BitVec 32 × BitVec 32) (n : Nat) : BitVec 32 × BitVec 32 :=
  if n % 2 = 0 then (rotl p.1 (n / 2), rotl p.2 (n / 2))
  else (rotl p.2 ((n / 2 + 1) % 32), rotl p.1 (n / 2))

/-- The lane-wise conversion of a state, `il(A)` of 41_kp R179. -/
def interleaveAll (a : List (BitVec 64)) : Limbs :=
  { e := a.map fun v => (toInterleaved v).1, o := a.map fun v => (toInterleaved v).2 }

/-- Lanes back from limbs. -/
def deinterleaveAll (a : Limbs) : List (BitVec 64) := List.zipWith (fun e o => fromInterleaved (e, o)) a.e a.o

/-- The limb at place i of one file. -/
def limb (f : List (BitVec 32)) (i : Nat) : BitVec 32 := f.getD i 0

/-! ## The step mappings on limbs (41_kp R177, R178) -/

/-- CE[x], CO[x]. -/
def thetaCIlv (a : Limbs) : Limbs :=
  let col := fun f => (List.range 5).map fun x =>
    limb f x ^^^ limb f (x + 5) ^^^ limb f (x + 10) ^^^ limb f (x + 15) ^^^ limb f (x + 20)
  { e := col a.e, o := col a.o }

/-- DE[x], DO[x]: the even limb of a rotation by 1 is the odd limb rotated by 1, the odd limb is the even one. -/
def thetaDIlv (c : Limbs) : Limbs :=
  { e := (List.range 5).map fun x => limb c.e ((x + 4) % 5) ^^^ rotl (limb c.o ((x + 1) % 5)) 1
    o := (List.range 5).map fun x => limb c.o ((x + 4) % 5) ^^^ limb c.e ((x + 1) % 5) }

/-- AE[x+5y] ^ DE[x], AO[x+5y] ^ DO[x]. -/
def thetaAIlv (a d : Limbs) : Limbs :=
  let add := fun f g => (List.range 25).map fun i => limb f i ^^^ limb g (i % 5)
  { e := add a.e d.e, o := add a.o d.o }

/-- ρ on limbs. -/
def rhoIlv (a : Limbs) : Limbs :=
  let rot := fun i => rotlLimbs (limb a.e i, limb a.o i) (rhoTable.getD i 0)
  { e := (List.range 25).map fun i => (rot i).1, o := (List.range 25).map fun i => (rot i).2 }

/-- π on limbs. -/
def piStepIlv (a : Limbs) : Limbs :=
  { e := (List.range 25).map fun j => limb a.e (piSource j), o := (List.range 25).map fun j => limb a.o (piSource j) }

/-- χ on limbs. -/
def chiIlv (b : Limbs) : Limbs :=
  let row := fun f => (List.range 25).map fun i =>
    limb f i ^^^ (~~~limb f ((i % 5 + 1) % 5 + 5 * (i / 5)) &&& limb f ((i % 5 + 2) % 5 + 5 * (i / 5)))
  { e := row b.e, o := row b.o }

/-- ι on limbs, with the table (RCE, RCO) of 41_kp R178. -/
def iotaIlv (a : Limbs) (rnd : Nat) : Limbs :=
  { e := a.e.modify 0 (· ^^^ (rcLimbTable.getD rnd (0, 0)).1), o := a.o.modify 0 (· ^^^ (rcLimbTable.getD rnd (0, 0)).2) }

/-- One round on limbs. -/
def keccakRoundIlv (a : Limbs) (rnd : Nat) : Limbs :=
  iotaIlv (chiIlv (piStepIlv (rhoIlv (thetaAIlv a (thetaDIlv (thetaCIlv a)))))) rnd

/-- `keccak_p_ilv` (41_kp R179). -/
def keccakPIlv (a : Limbs) : Limbs := (List.range kpRounds).foldl keccakRoundIlv a

/-! ## The ILV32 engine over its registers (10_state R37): lanes are converted on absorb and back on squeeze -/

/-- A[i] <- A[i] ^ lane i of block j, on limbs. -/
def absorbIlv (rate : Nat) (pm : Bytes) (j : Nat) (a : Limbs) : Limbs :=
  let add := fun (f : List (BitVec 32)) (part : BitVec 32 × BitVec 32 → BitVec 32) =>
    (List.range 25).map fun i =>
      if i < rate / 8 then limb f i ^^^ part (toInterleaved (blockLane rate pm j i)) else limb f i
  { e := add a.e (·.1), o := add a.o (·.2) }

/-- One round over the registers. -/
def kpIlvRoundRegs (r : KpIlvRegs) (rnd : Nat) : KpIlvRegs :=
  let c := thetaCIlv r.a
  let d := thetaDIlv c
  let bt := piStepIlv (rhoIlv (thetaAIlv r.a d))
  { r with c := c, d := d, bt := bt, a := iotaIlv (chiIlv bt) rnd, rnd := rnd }

/-- Absorb block j and permute. -/
def kpIlvBlock (rate : Nat) (r : KpIlvRegs) (j : Nat) : KpIlvRegs :=
  (List.range kpRounds).foldl kpIlvRoundRegs { r with a := absorbIlv rate r.pm j r.a, j := j }

/-- A whole sponge run over the registers. -/
def kpIlvRun (rate : Nat) (suffix : Byte) (m : Bytes) : KpIlvRegs :=
  (List.range (kpBlocks rate m.length)).foldl (kpIlvBlock rate)
    { pm := kpPad rate suffix m, a := { e := List.replicate 25 0, o := List.replicate 25 0 },
      c := { e := [], o := [] }, d := { e := [], o := [] }, bt := { e := [], o := [] }, rnd := 0, j := 0 }

end Sys2Proof.Machine
end

