-- ==== Sys2Proof/Machine/Compress.lean ====
section
/-!
DEFINITION. `compress`, the function every unit computes (42_hash R189), and the engine registers a unit ends with.
-/

namespace Sys2Proof.Machine

open Sys2Proof

/-- The engine that serves variant `v`, run on `m`, under the given KP_PATH and MD_SCHED (40_md R120; 41_kp R160). -/
def runEngine (path : KpPath) (sched : MdSched) (v : Variant) (m : Bytes) : EngineRegs :=
  match designOf v with
  | .sha1 => .sha1 (sha1Run sched m)
  | .md32 => .md32 (mdRun sched md32 (blockOf v) (iv32Of v) m)
  | .md64 => .md64 (mdRun sched md64 (blockOf v) (iv64Of v) m)
  | .sponge =>
    match path with
    | .lane64 => .lane64 (kpRun (blockOf v) (suffixOf v) m)
    | .ilv32 => .ilv32 (kpIlvRun (blockOf v) (suffixOf v) m)

/-- The digest in the engine's registers: truncate and emit (40_md R131, R141) or squeeze (41_kp R171). -/
def digestOf (v : Variant) : EngineRegs → Bytes
  | .sha1 r => mdEmit (dlen v) r.hs
  | .md32 r => mdEmit (dlen v) r.hs
  | .md64 r => mdEmit (dlen v) r.hs
  | .lane64 r => squeeze (dlen v) r.a
  | .ilv32 r => squeeze (dlen v) (deinterleaveAll r.a)

/-- `compress(v, m)` (42_hash R189). KP_PATH and MD_SCHED do not change a digest (41_kp R179; 92 D34), so it is
computed on lanes with the whole schedule (log 8). -/
def compress (v : Variant) (m : Bytes) : Bytes := digestOf v (runEngine .lane64 .full v m)

end Sys2Proof.Machine
end

