-- ==== Sys2Proof/Machine/Units.lean ====
section
/-!
DEFINITION. The steps of a running command: the units' load and store steps (43_merger R223, R224; 42_hash R190), the
MC's level close and completion (43_merger R225, R229; 42_hash R192), and reset (70_reset R311, R312).
-/

namespace Sys2Proof.Machine

open Sys2Proof

/-! ## Units -/

/-- The phase of unit i (10_state R32). -/
def unitPhase (s : State) (i : Nat) : UnitPhase := sparseGet .waiting s.seq.units i

/-- Unit i moves to a phase. -/
def setUnit (i : Nat) (p : UnitPhase) (s : State) : State :=
  s.withSeq { s.seq with units := sparsePut .waiting s.seq.units i p }

/-- The unit phase is FINISHED. -/
def isFinished : UnitPhase → Bool
  | .waiting => false
  | .loaded _ _ => false
  | .finished => true

/-- The unit phase is LOADED: the unit is in flight. -/
def isLoaded : UnitPhase → Bool
  | .waiting => false
  | .loaded _ _ => true
  | .finished => false

/-- The load step of unit i: read, compress, LOADED; a failing read ends the command (43_merger R223). -/
def loadStep (i : Nat) (port : PortAnswer) (s : State) : Result :=
  match readAll s.mem port 0 (unitReads s i) with
  | .performed m =>
    .next (setUnit i
      (.loaded (runEngine Config.kpPath Config.mdSched s.latch.variant m) (compress s.latch.variant m)) s)
  | .failed addr => .next (failBackend addr s)
  | .outside addr => .fault (.noSuchAddress addr)

/-- The store step of unit i with digest `d`: write, FINISHED; a failing write performs a subset of its bytes and
ends the command (43_merger R224; 60_exceptions R284). -/
def storeStep (i : Nat) (d : Bytes) (port : PortAnswer) (s : State) : Result :=
  if 2 ^ 64 < unitOut s i + d.length then .fault (.noSuchAddress (unitOut s i))
  else if portFailsAt port 0 then
    .next (failBackend (unitOut s i) (s.withMem (writeSome s.mem (unitOut s i) d (portTorn port))))
  else .next (setUnit i .finished (s.withMem (writeBytes s.mem (unitOut s i) d)))

/-- The next step of unit i, if it has one: units of the open level only, WAITING to LOADED to FINISHED
(43_merger R222; 10_state R32). A unit with no enabled step takes none (log 1). -/
def unitStep (i : Nat) (port : PortAnswer) (s : State) : Result :=
  if i < unitCount s then
    match unitPhase s i with
    | .waiting => loadStep i port s
    | .loaded _ d => storeStep i d port s
    | .finished => .next s
  else .next s

/-! ## The MC -/

/-- The first place from `n` on at which the list of units that have left WAITING does not show a FINISHED unit. -/
def firstUnfinished : Nat → List (Nat × UnitPhase) → Nat
  | n, [] => n
  | n, (i, p) :: r => if i = n ∧ isFinished p = true then firstUnfinished (n + 1) r else n

/-- Every unit of the running command's open level is FINISHED: the barrier (10_state R32; 43_merger R225). -/
def barrier (s : State) : Bool := decide (unitCount s ≤ firstUnfinished 0 s.seq.units)

/-- The next level opens with all its units WAITING (43_merger R225). -/
def openNextLevel (s : State) : State := s.withSeq { s.seq with k := s.seq.k + 1, units := [] }

/-- The MC's step, if it has one: level close or completion (43_merger R225, R229; 42_hash R192). -/
def mcStep (s : State) : Result :=
  match s.seq.phase with
  | .idle => .next s
  | .runHash => if barrier s then .next (completeCommand s) else .next s
  | .runLevel =>
    if barrier s then
      if levelSize s.latch.a.leafCount.toNat (s.seq.k + 1) = 1 then .next (completeCommand s)
      else .next (openNextLevel s)
    else .next s

/-- What the MSC does when no move is listed: the MC's step at the barrier, else the next step of the first unit that
is not FINISHED, every access succeeding; nothing while IDLE (43_merger R226; 70_reset R325, R326; log 2). -/
def idleMove (s : State) : Result :=
  match s.seq.phase with
  | .idle => .next s
  | .runHash | .runLevel => if barrier s then mcStep s else unitStep (firstUnfinished 0 s.seq.units) .ok s

/-! ## Reset -/

/-- Memory after the MemWrites that were in progress at a reset (70_reset R312; log 16). -/
def tearStores (s : State) : List (Nat × List Bool) → Memory → Memory
  | [], m => m
  | (i, subset) :: r, m =>
    match (if i < unitCount s then unitPhase s i else .waiting) with
    | .loaded _ d =>
      if 2 ^ 64 < unitOut s i + d.length then tearStores s r m
      else tearStores s r (writeSome m (unitOut s i) d subset)
    | .waiting | .finished => tearStores s r m

/-- Reset: every register of the MSC at its reset value, memory unchanged but for writes in progress; what is not the
MSC's own, the agenda and the host's answers, stays (70_reset R310 to R312). -/
def resetStep (torn : List (Nat × List Bool)) (s : State) : State :=
  ((State.reset.withMem (tearStores s torn s.mem)).withAgenda s.agenda).withReplies s.replies

end Sys2Proof.Machine
end

