-- ==== Sys2Proof/Machine/HostPort.lean ====
section
/-!
DEFINITION. The host's accesses to the register port and to the buffer memory (44_system R250, R256, R257; 70_reset
R322), and one move of any agent (10_state R33).
-/

namespace Sys2Proof.Machine

open Sys2Proof

/-! ## The register port -/

/-- The value a read gives (10_state R23; 44_system R256). -/
def regValue (s : State) (offset : Nat) : Word :=
  if offset = 0x00 then idWord
  else if offset = 0x10 then statusWord s.status
  else if offset = 0x18 then s.errInfo
  else if offset = 0x20 then ctrlWord s.ie
  else if 0x40 ≤ offset then (argGet s.x ((offset - 0x40) / 8)).getD 0
  else 0

/-- `RegRead(offset)`: no side effect but the answer (44_system R256). -/
def regRead (offset : Nat) (s : State) : Result :=
  if registerOffsetWf offset then .next (s.withReplies (.reg offset (regValue s offset) :: s.replies))
  else .refused (.registerAccess offset)

/-- The write of a word to CMD (44_system R250). A word that is dropped has the same effect whatever it decodes to
(44_system R251; log 24). -/
def cmdWrite (c : Word) (s : State) : Result :=
  match decode c with
  | .cmd i => exec i s
  | .illegal => issueBadWord .illegalCmd c s
  | .badVariant _ => issueBadWord .badVariant c s

/-- `RegWrite(offset, v)`: CMD issues, CTRL keeps bit 0, x[i] keeps all bits, every other write is ignored
(44_system R257). -/
def regWrite (offset : Nat) (v : Word) (s : State) : Result :=
  if registerOffsetWf offset then
    if offset = 0x08 then cmdWrite v s
    else if offset = 0x20 then .next (s.withIe (v.getLsbD 0))
    else if 0x40 ≤ offset then .next (s.withX (argSet s.x ((offset - 0x40) / 8) v))
    else .next s
  else .refused (.registerAccess offset)

/-! ## The host's accesses to buffer memory -/

/-- The access meets SRC or DST of the running command (20_memory R61, R75). -/
def meetsRegions (s : State) (addr n : Nat) : Bool :=
  rangesMeet addr n s.latch.a.srcPtr.toNat s.latch.a.srcLen.toNat
    || rangesMeet addr n s.latch.a.dstPtr.toNat s.latch.a.dstLen.toNat

/-- The host reads memory, at any time (70_reset R322 H-4, H-5). -/
def hostRead (addr n : Nat) (s : State) : Result :=
  if n = 0 then .refused (.emptyAccess addr)
  else if 2 ^ 64 < addr + n then .fault (.noSuchAddress addr)
  else .next (s.withReplies (.mem addr (readBytes s.mem addr n) :: s.replies))

/-- The host writes memory; while BUSY = 1 it has no such move into SRC or DST (70_reset R322 H-5, H-6; log 12). -/
def hostWrite (addr : Nat) (bytes : Bytes) (s : State) : Result :=
  if bytes.length = 0 then .refused (.emptyAccess addr)
  else if 2 ^ 64 < addr + bytes.length then .fault (.noSuchAddress addr)
  else if s.status.busy && meetsRegions s addr bytes.length then .refused (.hostWritesBusyRegion addr)
  else .next (s.withMem (writeBytes s.mem addr bytes))

/-! ## One move -/

/-- One step of one agent (10_state R33). -/
def perform (m : Move) (s : State) : Result :=
  match m with
  | .regRead offset => regRead offset s
  | .regWrite offset v => regWrite offset v s
  | .memRead addr n => hostRead addr n s
  | .memWrite addr bytes => hostWrite addr bytes s
  | .unit i port => unitStep i port s
  | .mc => mcStep s
  | .reset torn => .next (resetStep torn s)

/-- The move at the head of the agenda, which it leaves; with no move listed, the MSC's own (log 1, log 2). -/
def stepAgenda (s : State) : Result :=
  match s.agenda with
  | [] => idleMove s
  | m :: rest => perform m (s.withAgenda rest)

/-- The agenda with the CMD write of a table word in front (log 17, log 23). -/
def fetchWordMove (nbits w : Nat) : Move := .regWrite 0x08 (BitVec.ofNat 64 (w % 2 ^ nbits))

end Sys2Proof.Machine
end

