-- ==== Sys2Proof/Machine/Step.lean ====
section
/-!
DEFINITION. One step of the machine with its surroundings, and where a command word is placed so that the next step
issues it.
-/

namespace Sys2Proof.Machine

open Sys2Proof

/-- One step: one step of one agent (10_state R33). -/
def step (s : State) : Host.Outcome State Fault Refusal := stepAgenda s

/-- `s` with the CMD write of the table word as the next move (log 17). -/
def State.withFetchWord (s : State) (nbits w : Nat) : State := s.withAgenda (fetchWordMove nbits w :: s.agenda)

end Sys2Proof.Machine
end

