-- ==== Sys2Proof/Machine/HostProgram.lean ====
section
/-!
DEFINITION. The notation for host programs (30_encoding R101) and the two pseudo-instructions with their expansions
(30_encoding R102), as lists of host moves. WAIT, which repeats a read of STATUS, is the reads the host makes.
-/

namespace Sys2Proof.Machine

open Sys2Proof

/-- The offset of x[i] (10_state R23). -/
def argOffset (i : Nat) : Nat := 0x40 + 8 * i

/-- `WR x<i>, v`. -/
def writeArg (i : Nat) (v : Word) : Move := .regWrite (argOffset i) v

/-- `WR CMD` with a command's word: `HASH.<V>`, `MERKLIZE.<V>`, `CLEAR`. -/
def issue (i : Instr) : Move := .regWrite 0x08 (encode i)

/-- `RD STATUS`. -/
def readStatus : Move := .regRead 0x10

/-- `RD ERRINFO`. -/
def readErrInfo : Move := .regRead 0x18

/-- `WAIT` that reads STATUS `n` times: how many reads it takes is the host's (DESIGN CHOICE, log 25). -/
def waitReads (n : Nat) : List Move := List.replicate n readStatus

/-- `hash.<V> in, out`, up to its WAIT. -/
def hashProgram (v : Variant) (src dst : Word) : List Move :=
  [writeArg 0 src, writeArg 1 (BitVec.ofNat 64 (2 * dlen v)), writeArg 3 dst,
   writeArg 4 (BitVec.ofNat 64 (dlen v)), issue (hashOf v)]

/-- `merklize.<V> leaves, n, out, batch`, up to its WAIT (30_encoding R102). DESIGN CHOICE, log 25: for an n that the
preconditions exclude R102 does not say what is written; the model writes 0 to x[5] for n = 0, and n, n * slot and
n - 1 modulo 2^64. -/
def merklizeProgram (v : Variant) (leaves : Word) (n : Nat) (dst batch : Word) : List Move :=
  [writeArg 0 leaves, writeArg 1 (BitVec.ofNat 64 (n * slotOf v)), writeArg 2 (BitVec.ofNat 64 n), writeArg 3 dst,
   writeArg 4 (BitVec.ofNat 64 (n * slotOf v)), writeArg 5 (BitVec.ofNat 64 (n - 1)), writeArg 6 batch,
   issue (merklizeOf v)]

end Sys2Proof.Machine
end

