-- ==== Sys2Proof/Safety.lean ====
section
/-!
DEFINITION. What a sound state is, in the words claims use: the machine's invariant, what a running MERKLIZE has
built so far, and how many steps a running command has left.
-/

namespace Sys2Proof.Machine

open Sys2Proof

/-- A unit's phase is one a running command of the variant can give it: a LOADED unit holds dlen bytes
(10_state R32). -/
def phaseSound (v : Variant) : UnitPhase → Prop
  | .waiting => True
  | .loaded _ d => d.length = dlen v
  | .finished => True

/-- The error record is one of the table: 0 and 0 without an error, a listed code with one (10_state R26, R27;
60_exceptions R266). -/
def errorRecordSound (s : State) : Prop :=
  (s.status.err = false → s.status.errCode = 0 ∧ s.errInfo = 0) ∧
    (s.status.err = true → ∃ e : ErrCode, s.status.errCode = e.byte)

/-- BUSY, DONE and ERR are pairwise exclusive (10_state R26). -/
def flagsExclusive (t : Status) : Prop :=
  ¬(t.busy = true ∧ t.done = true) ∧ ¬(t.busy = true ∧ t.err = true) ∧ ¬(t.done = true ∧ t.err = true)

/-- The sequencer and the latch fit each other: the running command has passed its checks, the level exists, the
units listed are units of it (10_state R30, R31; 44_system R252). -/
structure SeqSound (s : State) : Prop where
  hash : s.seq.phase = .runHash → s.latch.op = .hash ∧ checkHash s.latch.variant s.latch.a = none
  level : s.seq.phase = .runLevel → s.latch.op = .merklize ∧ checkMerklize s.latch.variant s.latch.a = none ∧
    s.seq.k < levels s.latch.a.leafCount.toNat
  table : s.seq.phase ≠ .idle → sparseWf UnitPhase.waiting s.seq.units = true
  units : s.seq.phase ≠ .idle → ∀ p ∈ s.seq.units, p.1 < unitCount s ∧ phaseSound s.latch.variant p.2

/-- The machine's invariant: the memory keeps its canonical form inside the address space, SEQ.phase is IDLE exactly
when BUSY = 0 (10_state R30), and the three soundness conditions above hold. -/
structure Inv (s : State) : Prop where
  memWf : Memory.wf s.mem = true
  memBounded : Memory.bounded s.mem = true
  idle : s.seq.phase = .idle ↔ s.status.busy = false
  flags : flagsExclusive s.status
  errors : errorRecordSound s
  seq : SeqSound s

/-! ## The tree (43_merger R227) -/

/-- `lev_k[i]` over the leaves that stand in memory `m`: a leaf, or the compression of its two children
(43_merger R227). -/
def treeDigest (m : Memory) (v : Variant) (a : Args) : Nat → Nat → Bytes
  | 0, j => readBytes m (digestAddr v a 0 j) (dlen v)
  | k + 1, i => compress v (treeDigest m v a k (2 * i) ++ treeDigest m v a k (2 * i + 1))

/-- Level k stands in memory: each of its digests is `lev_k[i]`. -/
def LevelStands (m : Memory) (v : Variant) (a : Args) (k : Nat) : Prop :=
  ∀ i, i < levelSize a.leafCount.toNat k → readBytes m (digestAddr v a k i) (dlen v) = treeDigest m v a k i

/-- What unit i of the open level has done agrees with the tree. -/
def UnitAgrees (s : State) (i : Nat) : Prop :=
  match unitPhase s i with
  | .waiting => True
  | .loaded _ d => d = treeDigest s.mem s.latch.variant s.latch.a (s.seq.k + 1) i
  | .finished => readBytes s.mem (unitOut s i) (dlen s.latch.variant) =
      treeDigest s.mem s.latch.variant s.latch.a (s.seq.k + 1) i

/-- While a MERKLIZE runs, every level up to the one being read stands, and every unit's work agrees with the tree;
this holds for every order of unit steps (43_merger R226, R227). -/
def TreeSound (s : State) : Prop :=
  s.seq.phase = .runLevel →
    (∀ k, k ≤ s.seq.k → LevelStands s.mem s.latch.variant s.latch.a k) ∧ ∀ i, i < unitCount s → UnitAgrees s i

/-! ## Progress (70_reset R325) -/

/-- The steps a unit has left. -/
def phaseStepsLeft : UnitPhase → Nat
  | .waiting => 2
  | .loaded _ _ => 1
  | .finished => 0

/-- The unit steps left in the open level. -/
def unitStepsLeft (s : State) : Nat := ((List.range (unitCount s)).map fun i => phaseStepsLeft (unitPhase s i)).sum

/-- The MSC steps a running command has left when no access fails: those of the open level's units, its close, and
for every level above it two for each of its units and one close (70_reset R325). -/
def stepsLeft (s : State) : Nat :=
  match s.seq.phase with
  | .idle => 0
  | .runHash => unitStepsLeft s + 1
  | .runLevel =>
    unitStepsLeft s + 1 + 2 * (levelSize s.latch.a.leafCount.toNat (s.seq.k + 1) - 1)
      + (levels s.latch.a.leafCount.toNat - 1 - s.seq.k)

/-! ## States and sets claims name -/

/-- The MSC takes commands: BUSY = 0 and ERR = 0 (44_system R250). -/
def Ready (s : State) : Prop := s.status.busy = false ∧ s.status.err = false

/-- `s` after a command has been refused with an error code and its ERRINFO (44_system R250; 60_exceptions R270). -/
def refusedWith (code : Byte) (info : Word) (s : State) : State :=
  { s with status := { s.status with done := false, err := true, errCode := code }, errInfo := info }

/-- The first byte of the level whose digests the units of level k read (43_merger R220). -/
def levelBase (v : Variant) (a : Args) (k : Nat) : Nat :=
  if k = 0 then a.srcPtr.toNat
  else a.dstPtr.toNat + (a.leafCount.toNat - 2 * (a.leafCount.toNat / 2 ^ k)) * slotOf v

/-- Address `c` is a digest byte of one of the first N - 1 slots of DST: the bytes a MERKLIZE writes
(20_memory R67). -/
def InTreeBytes (v : Variant) (a : Args) (c : Nat) : Prop :=
  ∃ q, q + 1 < a.leafCount.toNat ∧ a.dstPtr.toNat + q * slotOf v ≤ c ∧ c < a.dstPtr.toNat + q * slotOf v + dlen v

/-- Address `c` lies in SRC (20_memory R61). -/
def InSrc (a : Args) (c : Nat) : Prop := a.srcPtr.toNat ≤ c ∧ c < a.srcPtr.toNat + a.srcLen.toNat

/-- Address `c` lies in DST (20_memory R61). -/
def InDst (a : Args) (c : Nat) : Prop := a.dstPtr.toNat ≤ c ∧ c < a.dstPtr.toNat + a.dstLen.toNat

/-- The lane the walk of 41_kp R166 visits at step t, as (x, y). -/
def rhoWalk : Nat → Nat × Nat
  | 0 => (1, 0)
  | t + 1 => ((rhoWalk t).2, (2 * (rhoWalk t).1 + 3 * (rhoWalk t).2) % 5)

/-! ## Lanes (93 U1; log 9) -/

/-- The units in flight. -/
def unitsInFlight (s : State) : Nat := (s.seq.units.filter fun p => isLoaded p.2).length

/-- No more units are in flight than a block with `n` compression units can hold. -/
def lanesFit (n : Nat) (s : State) : Bool := decide (unitsInFlight s ≤ n)

end Sys2Proof.Machine
end

