-- ==== Sys2Proof/Certificates/Slice0/Obligations.lean ====
section
/-!
DEFINITION. The statements for the provers. OBLIGATIONS.json lists them with the rules they formalise. "The model's
choice" in a docstring marks a clause that rests on a log entry and not on a rule.
-/

open Sys2Proof Sys2Proof.Machine

/-! ## Encoding -/

/-- Decoding and encoding are inverse on commands (30_encoding R94, R100): each command's word decodes to it, a word
that decodes to a command is that command's word, and different commands have different words. -/
def Obligations.DecodeEncodeAgree : Prop :=
  (∀ i : Instr, i.wf = true → decode (encode i) = .cmd i) ∧
    (∀ (c : Word) (i : Instr), decode c = .cmd i → c = encode i) ∧
    (∀ i j : Instr, encode i = encode j → i = j) ∧
    ∀ i : Instr, decodeTableWord 64 (encode i).toNat = some i

/-- 30_encoding R94 on the number the word is: the answers in the order of the tests, the 25 words that are commands,
and the errors the other words lead to. -/
def Obligations.DecodeFollowsFields : Prop :=
  (∀ c : Word, 0x100 ≤ c.toNat → decode c = .illegal) ∧
    (∀ c : Word, c.toNat < 0x100 → c.toNat % 16 = 3 → c.toNat / 16 = 0 → decode c = .cmd .clear) ∧
    (∀ c : Word, c.toNat < 0x100 → c.toNat % 16 = 3 → c.toNat / 16 ≠ 0 → decode c = .illegal) ∧
    (∀ (c : Word) (v : Variant), c.toNat = 16 * v.code.toNat + 1 → decode c = .cmd (hashOf v)) ∧
    (∀ (c : Word) (v : Variant), c.toNat = 16 * v.code.toNat + 2 → decode c = .cmd (merklizeOf v)) ∧
    (∀ c : Word, c.toNat < 0x100 → (c.toNat % 16 = 1 ∨ c.toNat % 16 = 2) → 0xC ≤ c.toNat / 16 →
      decode c = .badVariant (BitVec.ofNat 4 (c.toNat / 16))) ∧
    (∀ c : Word, c.toNat % 16 = 0 ∨ 4 ≤ c.toNat % 16 → decode c = .illegal) ∧
    (∀ c : Word, (∃ i, decode c = .cmd i) ↔
      c.toNat = 0x03 ∨ ∃ n, n ≤ 0xB ∧ (c.toNat = 16 * n + 1 ∨ c.toNat = 16 * n + 2)) ∧
    (∀ (c : Word) (s : State), Ready s → decode c = .illegal →
      perform (.regWrite 0x08 c) s = .next (refusedWith 0x01 c s)) ∧
    ∀ (c : Word) (n : BitVec 4) (s : State), Ready s → decode c = .badVariant n →
      perform (.regWrite 0x08 c) s = .next (refusedWith 0x02 c s)

/-- A few words of 30_encoding R100, and words that are no command (30_encoding R94, R98). -/
def Obligations.SpecWordsDecode : Prop :=
  decode 0x01 = .cmd .hashSha1 ∧ decode 0x51 = .cmd .hashSha2_512_224 ∧ decode 0xB1 = .cmd .hashKeccak_256 ∧
    decode 0x02 = .cmd .merklizeSha1 ∧ decode 0x92 = .cmd .merklizeSha3_384 ∧ decode 0x03 = .cmd .clear ∧
    decode 0x00 = .illegal ∧ decode 0x13 = .illegal ∧ decode 0x101 = .illegal ∧ decode 0x1C1 = .illegal ∧
    decode 0xC1 = .badVariant 0xC ∧ decode 0xF2 = .badVariant 0xF

/-- 60_exceptions R271, R272: which words raise E_ILLEGAL_CMD and which E_VARIANT, with ERRINFO the word; nothing
else changes. -/
def Obligations.BadWordsRaise : Prop :=
  ∀ (s : State) (c : Word), Ready s →
    (0x100 ≤ c.toNat ∨ c.toNat % 16 = 0 ∨ 4 ≤ c.toNat % 16 ∨ (c.toNat % 16 = 3 ∧ c.toNat / 16 ≠ 0) →
      perform (.regWrite 0x08 c) s = .next (refusedWith 0x01 c s)) ∧
    (c.toNat < 0x100 → (c.toNat % 16 = 1 ∨ c.toNat % 16 = 2) → 0xC ≤ c.toNat / 16 →
      perform (.regWrite 0x08 c) s = .next (refusedWith 0x02 c s))

/-! ## The machine's step -/

/-- When the next move writes a command's word to CMD, the step is exec of that command on the state without that
move; and `withFetchWord` places such a move (44_system R250; log 17 for the agenda, the model's choice). -/
def Obligations.StepRunsDecodedCommand : Prop :=
  (∀ (s : State) (c : Word) (i : Instr) (rest : List Move),
    s.agenda = .regWrite 0x08 c :: rest → decode c = .cmd i → i.wf = true → step s = exec i (s.withAgenda rest)) ∧
    ∀ (s : State) (nbits w : Nat) (i : Instr),
      decodeTableWord nbits w = some i → step (s.withFetchWord nbits w) = exec i s

/-- The values reset leaves where the spec gives them (10_state R41; 70_reset R310), and what a command issued without
its arguments is answered with (70_reset R313). -/
def Obligations.ResetValues : Prop :=
  (∀ n, n < 7 → argGet State.reset.x n = some 0) ∧
    regValue State.reset 0x00 = 0x00000FFF4D534831 ∧ regValue State.reset 0x08 = 0 ∧
    regValue State.reset 0x10 = 0 ∧ State.reset.errInfo = 0 ∧ State.reset.ie = false ∧
    irq State.reset = false ∧ State.reset.seq.phase = .idle ∧
    (∀ v, exec (hashOf v) State.reset = .next (refusedWith 0x0A 0 State.reset)) ∧
    ∀ v, exec (merklizeOf v) State.reset = .next (refusedWith 0x03 0 State.reset)

/-- The state after reset is sound. -/
def Obligations.ResetIsSound : Prop := Inv State.reset ∧ TreeSound State.reset

/-- Every step, of every agent, keeps the machine's invariant: the memory's canonical form, SEQ.phase = IDLE exactly
when BUSY = 0 (10_state R30), BUSY, DONE and ERR exclusive and ERRCODE a listed code exactly when ERR = 1 (10_state
R26), the running command checked, its level existing and its units its own (10_state R31, R32). -/
def Obligations.StepKeepsInvariant : Prop :=
  ∀ s t : State, Inv s → step s = .next t → Inv t

/-! ## Issuing a command -/

/-- 42_hash R190 step 1, 44_system R252: every HASH.v (v any of the twelve) with legal arguments is accepted, and what
that changes; its one unit is WAITING. That SEQ.k stays is log 6, the model's choice. -/
def Obligations.HashAccepts : Prop :=
  ∀ (v : Variant) (s : State), Ready s →
    s.x.srcLen.toNat = 2 * dlen v → s.x.dstLen.toNat = dlen v →
    s.x.srcPtr.toNat + 2 * dlen v ≤ 2 ^ 64 → s.x.dstPtr.toNat + dlen v ≤ 2 ^ 64 →
    ∃ t, exec (hashOf v) s = .next t ∧
      t = { s with
        latch := { op := .hash, variant := v, a := s.x }
        status := { s.status with busy := true, done := false }
        seq := { s.seq with phase := .runHash, units := [] } } ∧
      unitCount t = 1 ∧ unitPhase t 0 = .waiting

/-- 43_merger R212, R221: every MERKLIZE.v (v any of the twelve) with legal arguments is accepted, and what that
changes; its N/2 units of level 0 are WAITING. -/
def Obligations.MerklizeAccepts : Prop :=
  ∀ (v : Variant) (s : State) (L : Nat), Ready s →
    1 ≤ L → s.x.leafCount.toNat = 2 ^ L → s.x.srcLen.toNat = 2 ^ L * slotOf v →
    s.x.itmdCount.toNat + 1 = 2 ^ L → s.x.dstLen.toNat = 2 ^ L * slotOf v →
    1 ≤ s.x.batch.toNat → (∀ k, k < L → min s.x.batch.toNat (2 ^ (L - 1 - k)) ∣ 2 ^ (L - 1 - k)) →
    s.x.srcPtr.toNat + 2 ^ L * slotOf v ≤ 2 ^ 64 → s.x.dstPtr.toNat + 2 ^ L * slotOf v ≤ 2 ^ 64 →
    (∀ c, ¬(InSrc s.x c ∧ InDst s.x c)) →
    ∃ t, exec (merklizeOf v) s = .next t ∧
      t = { s with
        latch := { op := .merklize, variant := v, a := s.x }
        status := { s.status with busy := true, done := false }
        seq := { phase := .runLevel, k := 0, units := [] } } ∧
      unitCount t = 2 ^ (L - 1) ∧ ∀ i, unitPhase t i = .waiting

/-- 42_hash R190, 60_exceptions R280, R281: the tests of HASH.v in their order; the first that fails is reported, and
nothing else changes. -/
def Obligations.HashRefusesInOrder : Prop :=
  ∀ (v : Variant) (s : State), Ready s →
    (s.x.srcLen.toNat ≠ 2 * dlen v → exec (hashOf v) s = .next (refusedWith 0x0A s.x.srcLen s)) ∧
    (s.x.srcLen.toNat = 2 * dlen v →
      (s.x.dstLen.toNat ≠ dlen v → exec (hashOf v) s = .next (refusedWith 0x0A s.x.dstLen s)) ∧
      (s.x.dstLen.toNat = dlen v →
        (2 ^ 64 < s.x.srcPtr.toNat + 2 * dlen v → exec (hashOf v) s = .next (refusedWith 0x08 s.x.srcPtr s)) ∧
        (s.x.srcPtr.toNat + 2 * dlen v ≤ 2 ^ 64 → 2 ^ 64 < s.x.dstPtr.toNat + dlen v →
          exec (hashOf v) s = .next (refusedWith 0x08 s.x.dstPtr s))))

/-- 43_merger R212, 60_exceptions R273 to R277, R281, R282: the tests of MERKLIZE.v in their order; the first that
fails is reported, and nothing else changes. -/
def Obligations.MerklizeRefusesInOrder : Prop :=
  ∀ (v : Variant) (s : State), Ready s →
    ((¬∃ L, 1 ≤ L ∧ s.x.leafCount.toNat = 2 ^ L) →
      exec (merklizeOf v) s = .next (refusedWith 0x03 s.x.leafCount s)) ∧
    ∀ L, 1 ≤ L → s.x.leafCount.toNat = 2 ^ L →
      (s.x.srcLen.toNat ≠ 2 ^ L * slotOf v → exec (merklizeOf v) s = .next (refusedWith 0x04 s.x.srcLen s)) ∧
      (s.x.srcLen.toNat = 2 ^ L * slotOf v →
        (s.x.itmdCount.toNat + 1 ≠ 2 ^ L → exec (merklizeOf v) s = .next (refusedWith 0x06 s.x.itmdCount s)) ∧
        (s.x.itmdCount.toNat + 1 = 2 ^ L →
          (s.x.dstLen.toNat ≠ 2 ^ L * slotOf v → exec (merklizeOf v) s = .next (refusedWith 0x05 s.x.dstLen s)) ∧
          (s.x.dstLen.toNat = 2 ^ L * slotOf v →
            (s.x.batch.toNat = 0 ∨
                (∃ k, k < L ∧ ¬min s.x.batch.toNat (2 ^ (L - 1 - k)) ∣ 2 ^ (L - 1 - k)) →
              exec (merklizeOf v) s = .next (refusedWith 0x07 s.x.batch s)) ∧
            (1 ≤ s.x.batch.toNat → (∀ k, k < L → min s.x.batch.toNat (2 ^ (L - 1 - k)) ∣ 2 ^ (L - 1 - k)) →
              (2 ^ 64 < s.x.srcPtr.toNat + s.x.srcLen.toNat →
                exec (merklizeOf v) s = .next (refusedWith 0x08 s.x.srcPtr s)) ∧
              (s.x.srcPtr.toNat + s.x.srcLen.toNat ≤ 2 ^ 64 →
                2 ^ 64 < s.x.dstPtr.toNat + s.x.dstLen.toNat →
                exec (merklizeOf v) s = .next (refusedWith 0x08 s.x.dstPtr s)) ∧
              (s.x.srcPtr.toNat + s.x.srcLen.toNat ≤ 2 ^ 64 →
                s.x.dstPtr.toNat + s.x.dstLen.toNat ≤ 2 ^ 64 → (∃ c, InSrc s.x c ∧ InDst s.x c) →
                exec (merklizeOf v) s = .next (refusedWith 0x09 s.x.dstPtr s))))))

/-- 44_system R251: a CMD write while BUSY = 1, or while ERR = 1 and not a CLEAR, sets OVR and nothing else, whatever
the word; OVR then stays until a CLEAR that is taken or a reset; OVR does not drive `irq`. -/
def Obligations.DroppedWriteOnlySetsOvr : Prop :=
  (∀ (s : State) (c : Word), s.status.busy = true ∨ (s.status.err = true ∧ c ≠ 0x03) →
    perform (.regWrite 0x08 c) s = .next { s with status := { s.status with ovr := true } }) ∧
    (∀ s t : State, step s = .next t → s.status.ovr = true → t.status.ovr = true ∨
      (∃ rest, s.agenda = .regWrite 0x08 0x03 :: rest ∧ s.status.busy = false) ∨
      ∃ torn rest, s.agenda = .reset torn :: rest) ∧
    ∀ (s : State) (b : Bool), irq { s with status := { s.status with ovr := b } } = irq s

/-- 44_system R255: CLEAR. Its word is the only one with OP = 3 that is legal; with BUSY = 0 it clears DONE, ERR, OVR,
ERRCODE and ERRINFO and changes nothing else, so `irq` falls; with BUSY = 1 it is dropped; it raises nothing; no other command is accepted
while ERR = 1. -/
def Obligations.ClearEffect : Prop :=
  encode .clear = 0x03 ∧ (∀ c : Word, c.toNat % 16 = 3 → c ≠ 0x03 → decode c = .illegal) ∧
    (∀ s : State, s.status.busy = false → ∃ t, exec .clear s = .next t ∧ irq t = false ∧
      t = { s with
        status := { busy := false, done := false, err := false, ovr := false, errCode := 0 }
        errInfo := 0 }) ∧
    (∀ s : State, s.status.busy = true →
      exec .clear s = .next { s with status := { s.status with ovr := true } }) ∧
    ∀ (i : Instr) (s : State), i ≠ .clear → s.status.err = true →
      exec i s = .next { s with status := { s.status with ovr := true } }

/-- 30_encoding R102: the host programs `hash.v` and `merklize.v`, up to their WAIT, write the arguments and have the
command accepted. That the moves follow one another, with no other agent's step between, is the agenda's doing (log 1, the
model's choice). -/
def Obligations.ProgramsIssueCommands : Prop :=
  (∀ (v : Variant) (src dst : Word) (rest : List Move) (s : State), Ready s →
    s.agenda = hashProgram v src dst ++ rest →
    src.toNat + 2 * dlen v ≤ 2 ^ 64 → dst.toNat + dlen v ≤ 2 ^ 64 →
    ∃ t, Host.Core.run Sys2Proof.core 5 s = .next t ∧
      t.x = { s.x with
        srcPtr := src, srcLen := BitVec.ofNat 64 (2 * dlen v), dstPtr := dst, dstLen := BitVec.ofNat 64 (dlen v) } ∧
      t.latch = { op := .hash, variant := v, a := t.x } ∧ t.status.busy = true ∧ t.seq.phase = .runHash ∧
      t.mem = s.mem ∧ t.agenda = rest) ∧
    ∀ (v : Variant) (leaves dst batch : Word) (n L : Nat) (rest : List Move) (s : State), Ready s →
      s.agenda = merklizeProgram v leaves n dst batch ++ rest →
      1 ≤ L → n = 2 ^ L → leaves.toNat + n * slotOf v ≤ 2 ^ 64 → dst.toNat + n * slotOf v ≤ 2 ^ 64 →
      (leaves.toNat + n * slotOf v ≤ dst.toNat ∨ dst.toNat + n * slotOf v ≤ leaves.toNat) →
      (∃ m, m ≤ 63 ∧ batch.toNat = 2 ^ m) →
      ∃ t, Host.Core.run Sys2Proof.core 8 s = .next t ∧
        t.x = { srcPtr := leaves, srcLen := BitVec.ofNat 64 (n * slotOf v), leafCount := BitVec.ofNat 64 n
                dstPtr := dst, dstLen := BitVec.ofNat 64 (n * slotOf v), itmdCount := BitVec.ofNat 64 (n - 1)
                batch := batch } ∧
        t.latch = { op := .merklize, variant := v, a := t.x } ∧ t.status.busy = true ∧
        t.seq = { phase := .runLevel, k := 0, units := [] } ∧ t.mem = s.mem ∧ t.agenda = rest

/-! ## The tree -/

/-- 43_merger R211: the tree quantities of every legal leaf count. -/
def Obligations.TreeQuantities : Prop :=
  ∀ n, n < 2 ^ 64 → isLeafCount n = true →
    1 ≤ levels n ∧ levels n ≤ 63 ∧ n = 2 ^ levels n ∧ levelSize n 0 = n ∧ levelSize n (levels n) = 1 ∧
      (∀ k, k ≤ levels n → levelSize n k * 2 ^ k = n) ∧
      (∀ k, k < levels n → 2 * levelSize n (k + 1) = levelSize n k ∧ pairCount n k = levelSize n (k + 1)) ∧
      ((List.range (levels n)).map (pairCount n)).sum = n - 1

/-- 60_exceptions R273, 92 D33: the leaf counts an accepted MERKLIZE can have. -/
def Obligations.LeafCountBounds : Prop :=
  (∀ n, isLeafCount n = true ↔ ∃ L, 1 ≤ L ∧ n = 2 ^ L) ∧
    ∀ (v : Variant) (x : Args), checkMerklize v x = none →
      x.leafCount.toNat ≤ 2 ^ 59 ∧ (32 ≤ slotOf v → x.leafCount.toNat ≤ 2 ^ 58) ∧
        (slotOf v = 64 → x.leafCount.toNat ≤ 2 ^ 57) ∧ levels x.leafCount.toNat ≤ 59

/-- 43_merger R218: which batch sizes fit a tree of 2^L leaves, and the groups they make. -/
def Obligations.BatchRule : Prop :=
  (∀ L B : Nat, 1 ≤ L → (batchFits B (2 ^ L) = true ↔ 1 ≤ B ∧ (2 ^ L / 2 ≤ B ∨ ∃ m, B = 2 ^ m))) ∧
    ∀ L B k : Nat, batchFits B (2 ^ L) = true → k < L →
      batchSize B (2 ^ L) k = min B (2 ^ L / 2 ^ k / 2) ∧
        groupCount B (2 ^ L) k * batchSize B (2 ^ L) k = pairCount (2 ^ L) k ∧
        ∀ i, i < pairCount (2 ^ L) k → groupOf B (2 ^ L) k i < groupCount B (2 ^ L) k ∧
          groupOf B (2 ^ L) k i * batchSize B (2 ^ L) k ≤ i ∧
          i < (groupOf B (2 ^ L) k i + 1) * batchSize B (2 ^ L) k

/-- 43_merger R215, R224: the map from units to DST slots is one-to-one onto slots 0 to N - 2. -/
def Obligations.SlotsWrittenOnce : Prop :=
  ∀ L, 1 ≤ L →
    (∀ k i, k < L → i < pairCount (2 ^ L) k → levelOffset (2 ^ L) (k + 1) + i < 2 ^ L - 1) ∧
      ∀ q, q < 2 ^ L - 1 →
        ∃ k i, (k < L ∧ i < pairCount (2 ^ L) k ∧ levelOffset (2 ^ L) (k + 1) + i = q) ∧
          ∀ k' i', k' < L → i' < pairCount (2 ^ L) k' → levelOffset (2 ^ L) (k' + 1) + i' = q → k' = k ∧ i' = i

/-- 43_merger R217, R220, 20_memory R71: for a checked MERKLIZE, in bytes: what the units of a level read lies inside
SRC or DST and is written by no unit of that level, no two units of a level write the same byte, and no unit writes a
byte of SRC. -/
def Obligations.LevelsDisjoint : Prop :=
  ∀ (v : Variant) (x : Args) (k : Nat), checkMerklize v x = none → k < levels x.leafCount.toNat →
    (∀ i j c c', i < levelSize x.leafCount.toNat k → j < pairCount x.leafCount.toNat k → c < dlen v → c' < dlen v →
      digestAddr v x k i + c ≠ digestAddr v x (k + 1) j + c') ∧
    (∀ i j c c', i < pairCount x.leafCount.toNat k → j < pairCount x.leafCount.toNat k → c < dlen v → c' < dlen v →
      i ≠ j → digestAddr v x (k + 1) i + c ≠ digestAddr v x (k + 1) j + c') ∧
    (∀ i c, i < levelSize x.leafCount.toNat k → c < dlen v →
      (k = 0 → InSrc x (digestAddr v x k i + c)) ∧ (0 < k → InDst x (digestAddr v x k i + c))) ∧
    ∀ j c, j < pairCount x.leafCount.toNat k → c < dlen v →
      InDst x (digestAddr v x (k + 1) j + c) ∧ ¬InSrc x (digestAddr v x (k + 1) j + c)

/-- 43_merger R216, R227, R236: the tree is a function of the dlen digest bytes of each leaf slot; the pad bytes of a
slot and all other memory play no part. -/
def Obligations.OnlyDigestBytesMatter : Prop :=
  ∀ (v : Variant) (a : Args) (m m' : Memory) (L : Nat), a.leafCount.toNat = 2 ^ L →
    (∀ j, j < 2 ^ L → ∀ c, c < dlen v →
      readByte m (a.srcPtr.toNat + j * slotOf v + c) = readByte m' (a.srcPtr.toNat + j * slotOf v + c)) →
    ∀ k i, k ≤ L → i < levelSize (2 ^ L) k → treeDigest m v a k i = treeDigest m' v a k i

/-! ## The steps of a running command -/

/-- 42_hash R190 step 2, 43_merger R223: a WAITING unit whose reads succeed becomes LOADED with the compression of
what it read; nothing else changes. That a LOADED unit keeps its engine's registers with the values the compression
ends with is log 7, that the digest beside them is computed apart from them is log 8, both the model's choice. -/
def Obligations.UnitLoads : Prop :=
  ∀ (s : State) (i : Nat) (port : PortAnswer) (rest : List Move),
    Inv s → s.agenda = .unit i port :: rest → i < unitCount s → unitPhase s i = .waiting →
    (∀ n, n < (unitReads s i).length → portFailsAt port n = false) →
    ∃ t m, step s = .next t ∧
      (s.seq.phase = .runHash → m = readBytes s.mem s.latch.a.srcPtr.toNat (2 * dlen s.latch.variant)) ∧
      (s.seq.phase = .runLevel → m =
        readBytes s.mem (levelBase s.latch.variant s.latch.a s.seq.k + 2 * i * slotOf s.latch.variant)
            (dlen s.latch.variant) ++
          readBytes s.mem (levelBase s.latch.variant s.latch.a s.seq.k + (2 * i + 1) * slotOf s.latch.variant)
            (dlen s.latch.variant)) ∧
      unitPhase t i =
        .loaded (runEngine Config.kpPath Config.mdSched s.latch.variant m) (compress s.latch.variant m) ∧
      (∀ j, j ≠ i → unitPhase t j = unitPhase s j) ∧
      t = { s with agenda := rest, seq := { s.seq with units := t.seq.units } }

/-- 42_hash R190 step 3, 43_merger R224: a LOADED unit whose write succeeds becomes FINISHED with its dlen digest bytes
at its address; no other byte and nothing else changes. -/
def Obligations.UnitStores : Prop :=
  ∀ (s : State) (i : Nat) (regs : EngineRegs) (d : Bytes) (port : PortAnswer) (rest : List Move),
    Inv s → s.agenda = .unit i port :: rest → i < unitCount s → unitPhase s i = .loaded regs d →
    portFailsAt port 0 = false →
    ∃ t, step s = .next t ∧ d.length = dlen s.latch.variant ∧
      (s.seq.phase = .runHash → unitOut s i = s.latch.a.dstPtr.toNat) ∧
      (s.seq.phase = .runLevel → unitOut s i = s.latch.a.dstPtr.toNat +
        (s.latch.a.leafCount.toNat - 2 * (s.latch.a.leafCount.toNat / 2 ^ (s.seq.k + 1)) + i)
          * slotOf s.latch.variant) ∧
      readBytes t.mem (unitOut s i) (dlen s.latch.variant) = d ∧
      (∀ c, c < unitOut s i ∨ unitOut s i + dlen s.latch.variant ≤ c → readByte t.mem c = readByte s.mem c) ∧
      unitPhase t i = .finished ∧ (∀ j, j ≠ i → unitPhase t j = unitPhase s j) ∧
      t = { s with agenda := rest, mem := t.mem, seq := { s.seq with units := t.seq.units } }

/-- 60_exceptions R284, 20_memory R79: the failure of a unit's access ends the command with E_BACKEND, the address of
the failed access in ERRINFO and no unit left; a failing write has performed the bytes the environment chose, a
failing read none. That the unit's move carries the environment's choice is log 3, that memory is kept step by step
is log 15, that SEQ.k and LATCH stay over the failure is log 20 (93 U3 leaves them any value between commands), all
three the model's choice. -/
def Obligations.BackendFailure : Prop :=
  (∀ (s : State) (i nth : Nat) (subset : List Bool) (rest : List Move),
    Inv s → s.agenda = .unit i (.fail nth subset) :: rest → i < unitCount s → unitPhase s i = .waiting →
    nth < (unitReads s i).length →
    ∃ addr len, (unitReads s i)[nth]? = some (addr, len) ∧
      step s = .next { s with
        agenda := rest
        status := { s.status with busy := false, done := false, err := true, errCode := 0x10 }
        errInfo := BitVec.ofNat 64 addr
        seq := { s.seq with phase := .idle, units := [] } }) ∧
    ∀ (s : State) (i : Nat) (regs : EngineRegs) (d : Bytes) (subset : List Bool) (rest : List Move),
      Inv s → s.agenda = .unit i (.fail 0 subset) :: rest → i < unitCount s → unitPhase s i = .loaded regs d →
      ∃ t, step s = .next t ∧
        t = { s with
          agenda := rest
          mem := t.mem
          status := { s.status with busy := false, done := false, err := true, errCode := 0x10 }
          errInfo := BitVec.ofNat 64 (unitOut s i)
          seq := { s.seq with phase := .idle, units := [] } } ∧
        (∀ j, j < d.length → readByte t.mem (unitOut s i + j) =
          if subset.getD j false then d.getD j 0 else readByte s.mem (unitOut s i + j)) ∧
        ∀ c, c < unitOut s i ∨ unitOut s i + d.length ≤ c → readByte t.mem c = readByte s.mem c

/-- 43_merger R222, R225, R229, 42_hash R192, 20_memory R72: the MC's step waits for every unit of the open level;
then it opens the next level, with all its units WAITING, or completes the command. That SEQ.k, the units and LATCH
stay over the completion is log 20, the model's choice. -/
def Obligations.LevelClose : Prop :=
  ∀ (s : State) (rest : List Move), Inv s → s.agenda = .mc :: rest →
    ((∃ i, i < unitCount s ∧ unitPhase s i ≠ .finished) → step s = .next (s.withAgenda rest)) ∧
    ((∀ i, i < unitCount s → unitPhase s i = .finished) →
      (s.seq.phase = .idle → step s = .next (s.withAgenda rest)) ∧
      (s.seq.phase = .runHash ∨
          (s.seq.phase = .runLevel ∧ s.latch.a.leafCount.toNat / 2 ^ (s.seq.k + 1) = 1) →
        step s = .next { s with
          agenda := rest
          status := { s.status with busy := false, done := true }
          seq := { s.seq with phase := .idle } }) ∧
      (s.seq.phase = .runLevel → s.latch.a.leafCount.toNat / 2 ^ (s.seq.k + 1) ≠ 1 →
        ∃ t, step s = .next t ∧
          t = { s with agenda := rest, seq := { phase := .runLevel, k := s.seq.k + 1, units := [] } } ∧
          unitCount t = s.latch.a.leafCount.toNat / 2 ^ (s.seq.k + 1) / 2 ∧ ∀ i, unitPhase t i = .waiting))

/-- 20_memory R73: DONE rises only in a completion step, when every unit of the last level has performed its store;
the step changes STATUS and SEQ.phase, and no argument, CTRL.IE, ERRINFO or byte of memory. That SEQ.k, SEQ.units and
LATCH stay too is log 20, the model's choice: 93 U3 leaves them any value between commands. -/
def Obligations.CompletionOrdering : Prop :=
  ∀ s t : State, Inv s → step s = .next t → s.status.done = false → t.status.done = true →
    (s.seq.phase = .runHash ∨ (s.seq.phase = .runLevel ∧ s.seq.k + 1 = levels s.latch.a.leafCount.toNat)) ∧
      (∀ i, i < unitCount s → unitPhase s i = .finished) ∧
      t = { s with
        agenda := t.agenda
        status := { s.status with busy := false, done := true }
        seq := { s.seq with phase := .idle } }

/-- 20_memory R67, 42_hash R192: which step changes which byte: a host write its own bytes, and none of SRC or DST
while BUSY; the step of a LOADED unit, listed or the MSC's own with no move listed, its digest bytes of DST; a reset
digest bytes of a LOADED unit that it names as in the middle of its write (log 16, the model's choice); no other step
any byte. -/
def Obligations.CommandFrame : Prop :=
  ∀ (s t : State) (c : Nat), Inv s → step s = .next t → readByte t.mem c ≠ readByte s.mem c →
    (∃ addr bytes rest, s.agenda = .memWrite addr bytes :: rest ∧ addr ≤ c ∧ c < addr + bytes.length ∧
      (s.status.busy = true → ¬InSrc s.latch.a c ∧ ¬InDst s.latch.a c)) ∨
    (∃ i regs d,
      (s.agenda = [] ∨ (∃ port rest, s.agenda = .unit i port :: rest) ∨
        ∃ torn subset rest, s.agenda = .reset torn :: rest ∧ (i, subset) ∈ torn) ∧
      i < unitCount s ∧ unitPhase s i = .loaded regs d ∧
      unitOut s i ≤ c ∧ c < unitOut s i + dlen s.latch.variant ∧
      (s.seq.phase = .runHash ∧ InDst s.latch.a c ∨
        s.seq.phase = .runLevel ∧ InTreeBytes s.latch.variant s.latch.a c ∧ ¬InSrc s.latch.a c))

/-- 43_merger R228 (a): no step changes a byte of SRC while a MERKLIZE runs, not even one that ends it. -/
def Obligations.LeavesNeverWritten : Prop :=
  ∀ (s t : State) (c : Nat), Inv s → s.seq.phase = .runLevel → step s = .next t → InSrc s.latch.a c →
    readByte t.mem c = readByte s.mem c

/-- 43_merger R226, 20_memory R71: the steps of two units of a level, when no access fails, lead to the same state in
both orders. -/
def Obligations.UnitStepsCommute : Prop :=
  ∀ (s s₁ s₁₂ : State) (i j : Nat) (p q : PortAnswer), Inv s → i ≠ j →
    (∀ n, n < 2 → portFailsAt p n = false) → (∀ n, n < 2 → portFailsAt q n = false) →
    unitStep i p s = .next s₁ → unitStep j q s₁ = .next s₁₂ →
    ∃ s₂, unitStep j q s = .next s₂ ∧ unitStep i p s₂ = .next s₁₂

/-- 43_merger R227, for every order of steps, host moves and failures in between included: each step keeps all levels
up to the one being read standing and the work of every unit in agreement with the tree, and when a MERKLIZE completes
every level up to the root stands. -/
def Obligations.MerklizeBuildsTree : Prop :=
  ∀ s t : State, Inv s → TreeSound s → step s = .next t →
    TreeSound t ∧
      (s.seq.phase = .runLevel → t.status.done = true →
        ∀ k, k ≤ levels s.latch.a.leafCount.toNat → LevelStands t.mem s.latch.variant s.latch.a k)

/-- 70_reset R325: every enabled unit step and every enabled MC step, when no access fails, lowers the count of steps
left by one, and so does the MSC's own move with no move listed (log 2, the model's choice); the count is 0 exactly when the MSC is idle, 3 at the accept of a HASH and
2 * (N - 1) + L at the accept of a MERKLIZE. -/
def Obligations.ProgressCount : Prop :=
  (∀ s : State, Inv s → (stepsLeft s = 0 ↔ s.status.busy = false)) ∧
    (∀ s : State, Inv s → s.status.busy = true → ∃ t, idleMove s = .next t ∧ stepsLeft t + 1 = stepsLeft s) ∧
    (∀ (s : State) (i : Nat), Inv s → i < unitCount s → unitPhase s i ≠ .finished →
      ∃ t, unitStep i .ok s = .next t ∧ stepsLeft t + 1 = stepsLeft s) ∧
    (∀ s : State, Inv s → s.status.busy = true → (∀ i, i < unitCount s → unitPhase s i = .finished) →
      ∃ t, mcStep s = .next t ∧ stepsLeft t + 1 = stepsLeft s) ∧
    (∀ (v : Variant) (s t : State), exec (hashOf v) s = .next t → s.status.busy = false → t.status.busy = true →
      stepsLeft t = 3) ∧
    ∀ (v : Variant) (s t : State), exec (merklizeOf v) s = .next t → s.status.busy = false → t.status.busy = true →
      stepsLeft t = 2 * (s.x.leafCount.toNat - 1) + levels s.x.leafCount.toNat

/-! ## Whole commands -/

/-- 42_hash R190: a HASH.v, its two unit steps and its MC step: the digest of the input as it stood at the CMD write is
in [x[3], x[3] + dlen), DONE is set, and no other byte and no argument has changed. That the four moves follow one
another is the agenda's doing (log 1, the model's choice). -/
def Obligations.HashCommandWritesDigest : Prop :=
  ∀ (v : Variant) (s : State) (rest : List Move), Inv s → Ready s → checkHash v s.x = none →
    s.agenda = .regWrite 0x08 (encode (hashOf v)) :: .unit 0 .ok :: .unit 0 .ok :: .mc :: rest →
    ∃ t, Host.Core.run Sys2Proof.core 4 s = .next t ∧
      readBytes t.mem s.x.dstPtr.toNat (dlen v) = compress v (readBytes s.mem s.x.srcPtr.toNat (2 * dlen v)) ∧
      (∀ c, c < s.x.dstPtr.toNat ∨ s.x.dstPtr.toNat + dlen v ≤ c → readByte t.mem c = readByte s.mem c) ∧
      t.status = { s.status with busy := false, done := true } ∧ t.x = s.x ∧ t.ie = s.ie ∧
      t.errInfo = s.errInfo ∧ t.seq.phase = .idle ∧ t.agenda = rest

/-- 43_merger R227, 70_reset R325: a MERKLIZE.v that the host issues and then leaves alone ends after 2 * (N - 1) + L
more steps with DONE and with every digest of the tree at its place; every other byte and every argument is as it was.
The MSC's own order of steps with no move listed is log 2, the model's choice; that no access fails is its premise. -/
def Obligations.MerklizeCommandBuildsTree : Prop :=
  ∀ (v : Variant) (s : State), Inv s → Ready s → checkMerklize v s.x = none →
    s.agenda = [.regWrite 0x08 (encode (merklizeOf v))] →
    ∃ t, Host.Core.run Sys2Proof.core
        (1 + (2 * (s.x.leafCount.toNat - 1) + levels s.x.leafCount.toNat)) s = .next t ∧
      t.status = { s.status with busy := false, done := true } ∧ t.x = s.x ∧ t.ie = s.ie ∧
      t.errInfo = s.errInfo ∧ t.seq.phase = .idle ∧ t.replies = s.replies ∧
      (∀ k i, 1 ≤ k → k ≤ levels s.x.leafCount.toNat → i < s.x.leafCount.toNat / 2 ^ k →
        readBytes t.mem (s.x.dstPtr.toNat +
            (s.x.leafCount.toNat - 2 * (s.x.leafCount.toNat / 2 ^ k) + i) * slotOf v) (dlen v) =
          treeDigest s.mem v s.x k i) ∧
      ∀ c, ¬InTreeBytes v s.x c → readByte t.mem c = readByte s.mem c

/-- 43_merger R228 (c), (d): with N = 2 the root in DST slot 0 is the compression of the two leaves joined, nothing
else of memory changes (DST slot 1 included), and for every variant whose slot is its digest length that is the digest
a HASH.v of the same bytes gives. The order of the four moves is log 1, the model's choice. -/
def Obligations.MerklizeSinglePair : Prop :=
  ∀ (v : Variant) (s : State) (rest : List Move), Inv s → Ready s → checkMerklize v s.x = none →
    s.x.leafCount = 2 →
    s.agenda = .regWrite 0x08 (encode (merklizeOf v)) :: .unit 0 .ok :: .unit 0 .ok :: .mc :: rest →
    ∃ t, Host.Core.run Sys2Proof.core 4 s = .next t ∧ t.status.done = true ∧ t.status.busy = false ∧
      readBytes t.mem s.x.dstPtr.toNat (dlen v) =
        compress v (readBytes s.mem s.x.srcPtr.toNat (dlen v) ++
          readBytes s.mem (s.x.srcPtr.toNat + slotOf v) (dlen v)) ∧
      (slotOf v = dlen v → readBytes t.mem s.x.dstPtr.toNat (dlen v) =
        compress v (readBytes s.mem s.x.srcPtr.toNat (2 * dlen v))) ∧
      ∀ c, c < s.x.dstPtr.toNat ∨ s.x.dstPtr.toNat + dlen v ≤ c → readByte t.mem c = readByte s.mem c

/-! ## Reset -/

/-- 70_reset R310 to R312: reset is taken in every state; every register for which the spec states a value has it;
memory is unchanged but for bytes that a LOADED unit, named as in the middle of its write, was to write. That the move names such units is log 16, that the replies stay is log 10, both the model's choice. -/
def Obligations.ResetStep : Prop :=
  ∀ (s : State) (torn : List (Nat × List Bool)) (rest : List Move), Inv s → s.agenda = .reset torn :: rest →
    ∃ t, step s = .next t ∧ t.x = Args.zero ∧ t.status = Status.zero ∧ t.errInfo = 0 ∧ t.ie = false ∧
      t.seq.phase = .idle ∧ irq t = false ∧ t.agenda = rest ∧ t.replies = s.replies ∧
      (torn = [] → t.mem = s.mem) ∧
      ∀ c, readByte t.mem c ≠ readByte s.mem c → ∃ i subset regs d, (i, subset) ∈ torn ∧ i < unitCount s ∧
        unitPhase s i = .loaded regs d ∧ unitOut s i ≤ c ∧ c < unitOut s i + d.length

/-! ## Registers, the interrupt line, errors -/

/-- 10_state R24: ID. -/
def Obligations.IdConstant : Prop :=
  ∀ s : State, ∃ w : Word,
    perform (.regRead 0x00) s = .next { s with replies := .reg 0x00 w :: s.replies } ∧
      w = 0x00000FFF4D534831 ∧ w.toNat % 2 ^ 32 = 0x4D534831 ∧ w.toNat / 2 ^ 32 % 2 ^ 12 = 0xFFF ∧
      w.toNat / 2 ^ 44 = 0 ∧
      (∀ n : BitVec 4, (variantOfCode n).isSome = w.getLsbD (32 + n.toNat)) ∧
      ∀ v : Word, perform (.regWrite 0x00 v) s = .next s

/-- 10_state R29: the reserved offsets. -/
def Obligations.ReservedOffsets : Prop :=
  ∀ (s : State) (offset : Nat), offset ∈ [0x28, 0x30, 0x38, 0x78] →
    perform (.regRead offset) s = .next { s with replies := .reg offset 0 :: s.replies } ∧
      ∀ v : Word, perform (.regWrite offset v) s = .next s

/-- 44_system R256, 10_state R23, R25 to R28: what a register read gives, field by field, in any state; it changes
nothing. Any other offset is refused (10_state R23). -/
def Obligations.RegisterReadValues : Prop :=
  (∀ (s : State) (offset : Nat), offset % 8 = 0 → offset < 0x80 →
    ∃ w : Word, perform (.regRead offset) s = .next { s with replies := .reg offset w :: s.replies } ∧
      (offset = 0x00 → w = 0x00000FFF4D534831) ∧ (offset = 0x08 → w = 0) ∧
      (offset = 0x10 → w.getLsbD 0 = s.status.busy ∧ w.getLsbD 1 = s.status.done ∧ w.getLsbD 2 = s.status.err ∧
        w.getLsbD 3 = s.status.ovr ∧ w.extractLsb' 8 8 = s.status.errCode ∧
        ∀ n, 4 ≤ n ∧ n < 8 ∨ 16 ≤ n → w.getLsbD n = false) ∧
      (offset = 0x18 → w = s.errInfo) ∧
      (offset = 0x20 → w.getLsbD 0 = s.ie ∧ ∀ n, 1 ≤ n → w.getLsbD n = false) ∧
      (offset = 0x28 ∨ offset = 0x30 ∨ offset = 0x38 ∨ offset = 0x78 → w = 0) ∧
      (offset = 0x40 → w = s.x.srcPtr) ∧ (offset = 0x48 → w = s.x.srcLen) ∧ (offset = 0x50 → w = s.x.leafCount) ∧
      (offset = 0x58 → w = s.x.dstPtr) ∧ (offset = 0x60 → w = s.x.dstLen) ∧
      (offset = 0x68 → w = s.x.itmdCount) ∧ (offset = 0x70 → w = s.x.batch)) ∧
    ∀ (s : State) (offset : Nat) (v : Word), ¬(offset % 8 = 0 ∧ offset < 0x80) →
      perform (.regRead offset) s = .refused (.registerAccess offset) ∧
        perform (.regWrite offset v) s = .refused (.registerAccess offset)

/-- 44_system R257: what a register write does, in any state: x[i] takes all 64 bits, CTRL.IE takes bit 0, the
read-only registers and the reserved offsets ignore it. -/
def Obligations.RegisterWriteEffects : Prop :=
  ∀ (s : State) (v : Word),
    (∀ offset ∈ [0x00, 0x10, 0x18, 0x28, 0x30, 0x38, 0x78], perform (.regWrite offset v) s = .next s) ∧
    perform (.regWrite 0x20 v) s = .next { s with ie := v.getLsbD 0 } ∧
    ∀ n, n < 7 → ∃ t, perform (.regWrite (0x40 + 8 * n) v) s = .next t ∧ t = { s with x := t.x } ∧
      argGet t.x n = some v ∧ ∀ m, m ≠ n → argGet t.x m = argGet s.x m

/-- 10_state R22, 60_exceptions R285: x[i] and CTRL.IE change only by a host write to that register or by reset. -/
def Obligations.ArgumentsBelongToHost : Prop :=
  ∀ s t : State, step s = .next t →
    (∃ torn rest, s.agenda = .reset torn :: rest) ∨
      ((t.ie = s.ie ∨ ∃ v rest, s.agenda = .regWrite 0x20 v :: rest ∧ t.ie = v.getLsbD 0) ∧
        ∀ n, argGet t.x n = argGet s.x n ∨
          ∃ v rest, s.agenda = .regWrite (0x40 + 8 * n) v :: rest ∧ argGet t.x n = some v)

/-- 10_state R22, R31, 43_merger R218, R226: the steps of a running command do not see x[0..6], CTRL or BATCH: with
other values there they do the same, and leave those values alone. -/
def Obligations.RunIgnoresArguments : Prop :=
  ∀ (s t : State) (x : Args) (ie : Bool) (batch : Word) (m : Move),
    ((∃ i port, m = .unit i port) ∨ m = .mc) → perform m s = .next t →
    perform m { s with x := x, ie := ie, latch := { s.latch with a := { s.latch.a with batch := batch } } } =
      .next { t with x := x, ie := ie, latch := { t.latch with a := { t.latch.a with batch := batch } } }

/-- 60_exceptions R267, R285: ERR rises only in a CMD write with BUSY = 0, with a code 0x01 to 0x0A, or in a unit's
step while BUSY = 1, with code 0x10; and once risen the record stays as it is until CLEAR or reset. -/
def Obligations.ErrorsAndTheirRecord : Prop :=
  ∀ s t : State, Inv s → step s = .next t →
    (s.status.err = false → t.status.err = true →
      (∃ c rest, s.agenda = .regWrite 0x08 c :: rest ∧ s.status.busy = false ∧
        1 ≤ t.status.errCode.toNat ∧ t.status.errCode.toNat ≤ 0x0A) ∨
      ∃ i port rest, s.agenda = .unit i port :: rest ∧ s.status.busy = true ∧ t.status.errCode = 0x10 ∧
        t.status.busy = false ∧ t.seq.phase = .idle ∧ t.seq.units = []) ∧
    (s.status.err = true →
      (t.status.err = true ∧ t.status.errCode = s.status.errCode ∧ t.errInfo = s.errInfo) ∨
      (∃ rest, s.agenda = .regWrite 0x08 0x03 :: rest) ∨ ∃ torn rest, s.agenda = .reset torn :: rest)

/-- 10_state R39, 60_exceptions R268: `irq` is the level CTRL.IE and (DONE or ERR), so it follows a write of CTRL at
once, falls at CLEAR and at the accept of a command, and equals CTRL.IE after a completion, a backend failure and a
refusal. -/
def Obligations.InterruptLine : Prop :=
  ∀ s t : State, Inv s → step s = .next t →
    (irq t = true ↔ t.ie = true ∧ (t.status.done = true ∨ t.status.err = true)) ∧
    (∀ v rest, s.agenda = .regWrite 0x20 v :: rest →
      irq t = (v.getLsbD 0 && (s.status.done || s.status.err))) ∧
    (s.status.busy = false → t.status.busy = true → irq t = false) ∧
    (s.status.busy = true → t.status.busy = false →
      irq t = s.ie ∨ ∃ torn rest, s.agenda = .reset torn :: rest) ∧
    (s.status.busy = false → ∀ rest, s.agenda = .regWrite 0x08 0x03 :: rest → irq t = false)

/-! ## The host's accesses to memory -/

/-- 20_memory R62, R63, R75, 70_reset R322 H-4 to H-6: a host read gives the bytes and changes nothing; a host write
sets its bytes and no other; while BUSY = 1 a write that takes in a byte of SRC or DST is refused (log 12, the model's
choice of a stop); no bytes, or bytes past 2^64, stop the model (log 14, the model's choice). -/
def Obligations.HostMemoryAccess : Prop :=
  (∀ (s : State) (addr n : Nat), 1 ≤ n → addr + n ≤ 2 ^ 64 →
    ∃ bs : Bytes, perform (.memRead addr n) s = .next { s with replies := .mem addr bs :: s.replies } ∧
      bs.length = n ∧ ∀ i, i < n → bs.getD i 0 = readByte s.mem (addr + i)) ∧
    (∀ (s : State) (addr : Nat) (bytes : Bytes), Inv s → 1 ≤ bytes.length → addr + bytes.length ≤ 2 ^ 64 →
      (s.status.busy = true → ∀ i, i < bytes.length → ¬InSrc s.latch.a (addr + i) ∧ ¬InDst s.latch.a (addr + i)) →
      ∃ t, perform (.memWrite addr bytes) s = .next t ∧ t = { s with mem := t.mem } ∧
        ∀ c, readByte t.mem c =
          if addr ≤ c ∧ c < addr + bytes.length then bytes.getD (c - addr) 0 else readByte s.mem c) ∧
    (∀ (s : State) (addr : Nat) (bytes : Bytes), Inv s → addr + bytes.length ≤ 2 ^ 64 → s.status.busy = true →
      (∃ i, i < bytes.length ∧ (InSrc s.latch.a (addr + i) ∨ InDst s.latch.a (addr + i))) →
      perform (.memWrite addr bytes) s = .refused (.hostWritesBusyRegion addr)) ∧
    (∀ (s : State) (addr n : Nat) (bytes : Bytes), 1 ≤ n → 1 ≤ bytes.length →
      (2 ^ 64 < addr + n → perform (.memRead addr n) s = .fault (.noSuchAddress addr)) ∧
      (2 ^ 64 < addr + bytes.length → perform (.memWrite addr bytes) s = .fault (.noSuchAddress addr))) ∧
    ∀ (s : State) (addr : Nat), perform (.memRead addr 0) s = .refused (.emptyAccess addr) ∧
      perform (.memWrite addr []) s = .refused (.emptyAccess addr)

/-! ## The engines -/

/-- 40_md R120, 41_kp R160: every compression gives dlen bytes, on both Keccak paths and with both schedule stores. -/
def Obligations.CompressLength : Prop :=
  ∀ (v : Variant) (m : Bytes), (compress v m).length = dlen v ∧
    ∀ (path : KpPath) (sched : MdSched), (digestOf v (runEngine path sched v m)).length = dlen v

/-- 00_scope R10: the conversions between words and bytes are inverse to each other, for big-endian words of both
widths and for little-endian lanes, and put byte i where they say. -/
def Obligations.WordsAndBytes : Prop :=
  (∀ x : BitVec 32, beWord 32 (toBe x) = x ∧ (toBe x).length = 4 ∧
    ∀ i, i < 4 → (toBe x).getD i 0 = x.extractLsb' (24 - 8 * i) 8) ∧
    (∀ x : BitVec 64, beWord 64 (toBe x) = x ∧ (toBe x).length = 8 ∧
      ∀ i, i < 8 → (toBe x).getD i 0 = x.extractLsb' (56 - 8 * i) 8) ∧
    (∀ x : BitVec 64, leLane (toLe x) = x ∧ (toLe x).length = 8 ∧
      ∀ i, i < 8 → (toLe x).getD i 0 = x.extractLsb' (8 * i) 8) ∧
    (∀ b : Bytes, b.length = 4 → toBe (beWord 32 b) = b) ∧
    (∀ b : Bytes, b.length = 8 → toBe (beWord 64 b) = b) ∧ ∀ b : Bytes, b.length = 8 → toLe (leLane b) = b

/-- 40_md R123, R142, 30_encoding R96: every MD variant with its design, dlen, slot and block size B, and its padded
message: the input, 0x80, zeros, and the last two bytes of the length field; each row is the variant, its design, dlen,
slot, B, the number of blocks, the number of zero bytes before the last two, and those two. -/
def Obligations.MdPadLayout : Prop :=
  ∀ row ∈ [(Variant.sha1, Design.sha1, 20, 20, 64, 1, 21, (0x01 : Byte), (0x40 : Byte)),
      (.sha2_224, .md32, 28, 28, 64, 2, 69, 0x01, 0xC0), (.sha2_256, .md32, 32, 32, 64, 2, 61, 0x02, 0x00),
      (.sha2_384, .md64, 48, 48, 128, 1, 29, 0x03, 0x00), (.sha2_512, .md64, 64, 64, 128, 2, 125, 0x04, 0x00),
      (.sha2_512_224, .md64, 28, 32, 128, 1, 69, 0x01, 0xC0), (.sha2_512_256, .md64, 32, 32, 128, 1, 61, 0x02, 0x00)],
    let (v, design, len, slot, B, nblk, zeros, b1, b2) := row
    designOf v = design ∧ dlen v = len ∧ slotOf v = slot ∧ blockOf v = B ∧
      ∀ m : Bytes, m.length = 2 * dlen v →
        mdBlocks (blockOf v) m.length = nblk ∧
          mdPad (blockOf v) m = m ++ 0x80 :: List.replicate zeros 0 ++ [b1, b2] ∧
          (mdPad (blockOf v) m).length = nblk * B

/-- 40_md R127: the SHA-2 message schedule, for both word widths. -/
def Obligations.Sha2Schedule : Prop :=
  (∀ m : List (BitVec 32), m.length = 16 →
    let x := fun t => (schedule (expandNext md32) 64 m).getD t 0
    (schedule (expandNext md32) 64 m).length = 64 ∧ (∀ t, t < 16 → x t = m.getD t 0) ∧
      ∀ t, 16 ≤ t → t < 64 →
        x t = ((x (t - 2)).rotateRight 17 ^^^ (x (t - 2)).rotateRight 19 ^^^ x (t - 2) >>> 10) + x (t - 7)
          + ((x (t - 15)).rotateRight 7 ^^^ (x (t - 15)).rotateRight 18 ^^^ x (t - 15) >>> 3) + x (t - 16)) ∧
    ∀ m : List (BitVec 64), m.length = 16 →
      let x := fun t => (schedule (expandNext md64) 80 m).getD t 0
      (schedule (expandNext md64) 80 m).length = 80 ∧ (∀ t, t < 16 → x t = m.getD t 0) ∧
        ∀ t, 16 ≤ t → t < 80 →
          x t = ((x (t - 2)).rotateRight 19 ^^^ (x (t - 2)).rotateRight 61 ^^^ x (t - 2) >>> 6) + x (t - 7)
            + ((x (t - 15)).rotateRight 1 ^^^ (x (t - 15)).rotateRight 8 ^^^ x (t - 15) >>> 7) + x (t - 16)

/-- 40_md R122, R124 to R126, R128 to R130, R132 to R135: the logical functions with their rotation amounts and corner
cases; how a block is parsed; the constants K by the cube roots that define them; one round; one block, from H to H plus
the working variables after its last round; the block loop from the IV on; and the IV, block size and emitted words of
every SHA-2 variant (the words of an IV as one number, the first the most significant). -/
def Obligations.Sha2Round : Prop :=
  (∀ x : BitVec 32,
    bigSigma md32.bigSigma0 x = x.rotateRight 2 ^^^ x.rotateRight 13 ^^^ x.rotateRight 22 ∧
    bigSigma md32.bigSigma1 x = x.rotateRight 6 ^^^ x.rotateRight 11 ^^^ x.rotateRight 25 ∧
    smallSigma md32.smallSigma0 x = x.rotateRight 7 ^^^ x.rotateRight 18 ^^^ x >>> 3 ∧
    smallSigma md32.smallSigma1 x = x.rotateRight 17 ^^^ x.rotateRight 19 ^^^ x >>> 10) ∧
    (∀ x : BitVec 64,
      bigSigma md64.bigSigma0 x = x.rotateRight 28 ^^^ x.rotateRight 34 ^^^ x.rotateRight 39 ∧
      bigSigma md64.bigSigma1 x = x.rotateRight 14 ^^^ x.rotateRight 18 ^^^ x.rotateRight 41 ∧
      smallSigma md64.smallSigma0 x = x.rotateRight 1 ^^^ x.rotateRight 8 ^^^ x >>> 7 ∧
      smallSigma md64.smallSigma1 x = x.rotateRight 19 ^^^ x.rotateRight 61 ^^^ x >>> 6) ∧
    (∀ (w : Nat) (x y z : BitVec w),
      ch x y z = (x &&& y) ^^^ (~~~x &&& z) ∧ maj x y z = (x &&& y) ^^^ (x &&& z) ^^^ (y &&& z) ∧
      ch (BitVec.allOnes w) y z = y ∧ ch 0 y z = z ∧ maj x x z = x ∧
      ch (0 : BitVec w) 0 0 = 0 ∧ maj (0 : BitVec w) 0 0 = 0 ∧
      ∀ r : Nat × Nat × Nat, bigSigma r (0 : BitVec w) = 0 ∧ smallSigma r (0 : BitVec w) = 0) ∧
    (∀ (pm : Bytes) (j i : Nat), i < 16 →
      (mdWords 32 64 pm j).length = 16 ∧ (mdWords 64 128 pm j).length = 16 ∧
      (∀ b, b < 4 → (j + 1) * 64 ≤ pm.length →
        ((mdWords 32 64 pm j).getD i 0).extractLsb' (24 - 8 * b) 8 = pm.getD (j * 64 + i * 4 + b) 0) ∧
      ∀ b, b < 8 → (j + 1) * 128 ≤ pm.length →
        ((mdWords 64 128 pm j).getD i 0).extractLsb' (56 - 8 * b) 8 = pm.getD (j * 128 + i * 8 + b) 0) ∧
    (md32.k.length = 64 ∧ md64.k.length = 80 ∧
      (∀ t, t < 64 → md32.k.getD t 0 = (md64.k.getD t 0).extractLsb' 32 32) ∧
      ∀ t, t < 80 → ∃ n : Nat,
        (n * 2 ^ 64 + (md64.k.getD t 0).toNat) ^ 3 ≤ Nat.nth Nat.Prime t * 2 ^ 192 ∧
          Nat.nth Nat.Prime t * 2 ^ 192 < (n * 2 ^ 64 + (md64.k.getD t 0).toNat + 1) ^ 3) ∧
    (∀ (w : Nat) (c : MdConfig w) (k x : BitVec w) (s : Work w),
      mdRound c k x s =
        { a := s.h + bigSigma c.bigSigma1 s.e + ch s.e s.f s.g + k + x + (bigSigma c.bigSigma0 s.a + maj s.a s.b s.c)
          b := s.a, c := s.b, d := s.c
          e := s.d + (s.h + bigSigma c.bigSigma1 s.e + ch s.e s.f s.g + k + x)
          f := s.e, g := s.f, h := s.g }) ∧
    (∀ (w : Nat) (c : MdConfig w) (B j : Nat) (r : MdRegs w), r.hs.length = 8 → 16 ≤ c.k.length →
      let ws := schedule (expandNext c) c.k.length (mdWords w B r.pm j)
      let H := fun i => r.hs.getD i 0
      ∃ s : Nat → Work w,
        s 0 = { a := H 0, b := H 1, c := H 2, d := H 3, e := H 4, f := H 5, g := H 6, h := H 7 } ∧
        (∀ t, t < c.k.length → s (t + 1) = mdRound c (c.k.getD t 0) (ws.getD t 0) (s t)) ∧
        let z := s c.k.length
        (mdBlock .full c B r j).hs =
          [H 0 + z.a, H 1 + z.b, H 2 + z.c, H 3 + z.d, H 4 + z.e, H 5 + z.f, H 6 + z.g, H 7 + z.h] ∧
        (mdBlock .full c B r j).pm = r.pm) ∧
    (∀ (w : Nat) (c : MdConfig w) (B : Nat) (iv : List (BitVec w)) (m : Bytes),
      ∃ r : Nat → MdRegs w, (r 0).pm = mdPad B m ∧ (r 0).hs = iv ∧
        (∀ j, j < mdBlocks B m.length → r (j + 1) = mdBlock .full c B (r j) j) ∧
        mdRun .full c B iv m = r (mdBlocks B m.length)) ∧
    (∀ row ∈ [(Variant.sha2_224, 0xc1059ed8367cd5073070dd17f70e5939ffc00b316858151164f98fa7befa4fa4),
        (.sha2_256, 0x6a09e667bb67ae853c6ef372a54ff53a510e527f9b05688c1f83d9ab5be0cd19)],
      (iv32Of row.1).length = 8 ∧ (iv32Of row.1).foldl (fun n x => n * 2 ^ 32 + x.toNat) 0 = row.2 ∧
        ∀ m : Bytes, compress row.1 m = mdEmit (dlen row.1) (mdRun .full md32 64 (iv32Of row.1) m).hs) ∧
    ∀ row ∈ [(Variant.sha2_384, 0xcbbb9d5dc1059ed8629a292a367cd5079159015a3070dd17152fecd8f70e5939,
          0x67332667ffc00b318eb44a8768581511db0c2e0d64f98fa747b5481dbefa4fa4),
        (.sha2_512, 0x6a09e667f3bcc908bb67ae8584caa73b3c6ef372fe94f82ba54ff53a5f1d36f1,
          0x510e527fade682d19b05688c2b3e6c1f1f83d9abfb41bd6b5be0cd19137e2179),
        (.sha2_512_224, 0x8c3d37c819544da273e1996689dcd4d61dfab7ae32ff9c82679dd514582f9fcf,
          0x0f6d2b697bd44da877e36f7304c489423f9d85a86a1d36c81112e6ad91d692a1),
        (.sha2_512_256, 0x22312194fc2bf72c9f555fa3c84c64c22393b86b6f53b151963877195940eabd,
          0x96283ee2a88effe3be5e1e25538639922b0199fc2c85b8aa0eb72ddc81c52ca2)],
      (iv64Of row.1).length = 8 ∧
        (iv64Of row.1).foldl (fun n x => n * 2 ^ 64 + x.toNat) 0 = row.2.1 * 2 ^ 256 + row.2.2 ∧
        ∀ m : Bytes, compress row.1 m = mdEmit (dlen row.1) (mdRun .full md64 128 (iv64Of row.1) m).hs

/-- 40_md R137 to R141: the SHA-1 schedule, round functions, constants and round; one block, from H to H plus the
working variables after round 79; the block loop from IV_SHA1 on, and the digest. -/
def Obligations.Sha1Steps : Prop :=
  (∀ m : List (BitVec 32), m.length = 16 →
    let x := fun t => (schedule expandNext1 80 m).getD t 0
    (schedule expandNext1 80 m).length = 80 ∧ (∀ t, t < 16 → x t = m.getD t 0) ∧
      ∀ t, 16 ≤ t → t < 80 → x t = (x (t - 3) ^^^ x (t - 8) ^^^ x (t - 14) ^^^ x (t - 16)).rotateLeft 1) ∧
    (∀ (t : Nat) (b c d : BitVec 32),
      (t ≤ 19 → sha1F t b c d = (b &&& c) ^^^ (~~~b &&& d) ∧ sha1K t = 0x5a827999) ∧
      (20 ≤ t → t ≤ 39 → sha1F t b c d = b ^^^ c ^^^ d ∧ sha1K t = 0x6ed9eba1) ∧
      (40 ≤ t → t ≤ 59 → sha1F t b c d = (b &&& c) ^^^ (b &&& d) ^^^ (c &&& d) ∧ sha1K t = 0x8f1bbcdc) ∧
      (60 ≤ t → t ≤ 79 → sha1F t b c d = b ^^^ c ^^^ d ∧ sha1K t = 0xca62c1d6)) ∧
    (∀ (t : Nat) (x : BitVec 32) (s : Work1),
      sha1Round t x s =
        { a := s.a.rotateLeft 5 + sha1F t s.b s.c s.d + s.e + sha1K t + x
          b := s.a, c := s.b.rotateLeft 30, d := s.c, e := s.d }) ∧
    (∀ (j : Nat) (r : Sha1Regs), r.hs.length = 5 →
      let ws := schedule expandNext1 80 (mdWords 32 64 r.pm j)
      let H := fun i => r.hs.getD i 0
      ∃ s : Nat → Work1,
        s 0 = { a := H 0, b := H 1, c := H 2, d := H 3, e := H 4 } ∧
        (∀ t, t < 80 → s (t + 1) = sha1Round t (ws.getD t 0) (s t)) ∧
        (sha1Block .full r j).hs =
          [H 0 + (s 80).a, H 1 + (s 80).b, H 2 + (s 80).c, H 3 + (s 80).d, H 4 + (s 80).e] ∧
        (sha1Block .full r j).pm = r.pm) ∧
    ∀ m : Bytes, ∃ r : Nat → Sha1Regs, (r 0).pm = mdPad 64 m ∧
      (r 0).hs = [0x67452301, 0xefcdab89, 0x98badcfe, 0x10325476, 0xc3d2e1f0] ∧
      (∀ j, j < mdBlocks 64 m.length → r (j + 1) = sha1Block .full (r j) j) ∧
      (r (mdBlocks 64 m.length)).hs.length = 5 ∧
      compress .sha1 m = (r (mdBlocks 64 m.length)).hs.flatMap toBe

/-- 40_md R131, R141, 41_kp R171: byte i of a digest: for the MD engine from the big-endian words of H (eight of them,
five for SHA-1), for the KP engine from the little-endian lanes of the state. -/
def Obligations.EmittedBytes : Prop :=
  (∀ (len i : Nat) (h : List (BitVec 32)), len ≤ 4 * h.length → i < len →
    (mdEmit len h).length = len ∧
      (mdEmit len h).getD i 0 = (h.getD (i / 4) 0).extractLsb' (24 - 8 * (i % 4)) 8) ∧
    (∀ (len i : Nat) (h : List (BitVec 64)), len ≤ 8 * h.length → i < len →
      (mdEmit len h).length = len ∧
        (mdEmit len h).getD i 0 = (h.getD (i / 8) 0).extractLsb' (56 - 8 * (i % 8)) 8) ∧
    ∀ (len i : Nat) (a : List (BitVec 64)), len ≤ 8 * a.length → i < len →
      (squeeze len a).length = len ∧ (squeeze len a).getD i 0 = (lane a (i / 8)).extractLsb' (8 * (i % 8)) 8

/-- 92 D34, 40_md R127: a block leaves the same H whether the whole schedule is in store or its last 16 words, and
those 16 are the last of the schedule; no digest depends on MD_SCHED. -/
def Obligations.MdSchedUnobservable : Prop :=
  (∀ (B j : Nat) (r : MdRegs 32),
    (mdBlock .window16 md32 B r j).hs = (mdBlock .full md32 B r j).hs ∧
      (mdBlock .window16 md32 B r j).ws = (mdBlock .full md32 B r j).ws.drop 48) ∧
    (∀ (B j : Nat) (r : MdRegs 64),
      (mdBlock .window16 md64 B r j).hs = (mdBlock .full md64 B r j).hs ∧
        (mdBlock .window16 md64 B r j).ws = (mdBlock .full md64 B r j).ws.drop 64) ∧
    (∀ (j : Nat) (r : Sha1Regs),
      (sha1Block .window16 r j).hs = (sha1Block .full r j).hs ∧
        (sha1Block .window16 r j).ws = (sha1Block .full r j).ws.drop 64) ∧
    ∀ (path : KpPath) (v : Variant) (m : Bytes),
      digestOf v (runEngine path .window16 v m) = digestOf v (runEngine path .full v m)

/-- 41_kp R162, R172, 30_encoding R96: every KP variant with its dlen, slot, rate and suffix byte, and its padded
message: the input, the suffix byte, zeros, and 0x80 at the end; each row is the variant, dlen, slot, r, the suffix
byte, the number of blocks and the number of zero bytes. -/
def Obligations.KpPadLayout : Prop :=
  ∀ row ∈ [(Variant.sha3_224, 28, 28, 144, (0x06 : Byte), 1, 86), (.sha3_256, 32, 32, 136, 0x06, 1, 70),
      (.sha3_384, 48, 48, 104, 0x06, 1, 6), (.sha3_512, 64, 64, 72, 0x06, 2, 14),
      (.keccak_256, 32, 32, 136, 0x01, 1, 70)],
    let (v, len, slot, r, suffix, nblk, zeros) := row
    designOf v = .sponge ∧ dlen v = len ∧ slotOf v = slot ∧ blockOf v = r ∧ r = 200 - 2 * len ∧ r % 8 = 0 ∧
      suffixOf v = suffix ∧
      ∀ m : Bytes, m.length = 2 * dlen v →
        kpBlocks (blockOf v) m.length = nblk ∧
          kpPad (blockOf v) (suffixOf v) m = m ++ suffix :: List.replicate zeros 0 ++ [0x80] ∧
          (kpPad (blockOf v) (suffixOf v) m).length = nblk * r

/-- 41_kp R165: θ by coordinates. -/
def Obligations.ThetaMapping : Prop :=
  ∀ a : List (BitVec 64), (theta a).length = 25 ∧ ∀ x y, x < 5 → y < 5 →
    let c := fun x => lane a x ^^^ lane a (x + 5) ^^^ lane a (x + 10) ^^^ lane a (x + 15) ^^^ lane a (x + 20)
    lane (theta a) (x + 5 * y) =
      lane a (x + 5 * y) ^^^ (c ((x + 4) % 5) ^^^ (c ((x + 1) % 5)).rotateLeft 1)

/-- 41_kp R166: ρ by its table, rows y, columns x, and by the walk that gives the table. -/
def Obligations.RhoMapping : Prop :=
  ∀ a : List (BitVec 64), (rho a).length = 25 ∧ lane (rho a) 0 = lane a 0 ∧
    (∀ x y, x < 5 → y < 5 → lane (rho a) (x + 5 * y) = (lane a (x + 5 * y)).rotateLeft
      (([[0, 1, 62, 28, 27], [36, 44, 6, 55, 20], [3, 10, 43, 25, 39], [41, 45, 15, 21, 8],
        [18, 2, 61, 56, 14]].getD y []).getD x 0)) ∧
    (∀ t, t < 24 → lane (rho a) ((rhoWalk t).1 + 5 * (rhoWalk t).2) =
      (lane a ((rhoWalk t).1 + 5 * (rhoWalk t).2)).rotateLeft ((t + 1) * (t + 2) / 2 % 64)) ∧
    ∀ i, 0 < i → i < 25 → ∃ t, t < 24 ∧ (rhoWalk t).1 + 5 * (rhoWalk t).2 = i

/-- 41_kp R167: π by coordinates and by its table. -/
def Obligations.PiMapping : Prop :=
  ∀ a : List (BitVec 64), (piStep a).length = 25 ∧
    (∀ x y, x < 5 → y < 5 → lane (piStep a) (y + 5 * ((2 * x + 3 * y) % 5)) = lane a (x + 5 * y)) ∧
    ∀ p ∈ [(0, 0), (1, 10), (2, 20), (3, 5), (4, 15), (5, 16), (6, 1), (7, 11), (8, 21), (9, 6), (10, 7), (11, 17),
        (12, 2), (13, 12), (14, 22), (15, 23), (16, 8), (17, 18), (18, 3), (19, 13), (20, 14), (21, 24), (22, 9),
        (23, 19), (24, 4)],
      lane (piStep a) p.2 = lane a p.1 ∧ piDest p.1 = p.2

/-- 41_kp R163, R164, R168 to R170: χ by coordinates, ι and the values of RC; a round is θ, ρ, π, χ, ι in this order,
the permutation is rounds 0 to 23; absorbing block j XORs its bytes into the lanes of the rate and leaves the capacity;
the sponge starts from zero, absorbs and permutes for each block, and squeezes. -/
def Obligations.ChiIotaMapping : Prop :=
  (∀ a : List (BitVec 64), a.length = 25 →
    ((chi a).length = 25 ∧ ∀ x y, x < 5 → y < 5 → lane (chi a) (x + 5 * y) =
      lane a (x + 5 * y) ^^^ (~~~lane a ((x + 1) % 5 + 5 * y) &&& lane a ((x + 2) % 5 + 5 * y))) ∧
    ∀ rnd, rnd < 24 → (iota a rnd).length = 25 ∧ lane (iota a rnd) 0 = lane a 0 ^^^ rcTable.getD rnd 0 ∧
      ∀ i, i ≠ 0 → lane (iota a rnd) i = lane a i) ∧
    (rcTable.length = 24 ∧
      (∀ row ∈ [(0, [0x0000000000000001, 0x0000000000008082, 0x800000000000808a, 0x8000000080008000]),
          (1, [0x000000000000808b, 0x0000000080000001, 0x8000000080008081, 0x8000000000008009]),
          (2, [0x000000000000008a, 0x0000000000000088, 0x0000000080008009, 0x000000008000000a]),
          (3, [0x000000008000808b, 0x800000000000008b, 0x8000000000008089, 0x8000000000008003]),
          (4, [0x8000000000008002, 0x8000000000000080, 0x000000000000800a, 0x800000008000000a]),
          (5, [0x8000000080008081, 0x8000000000008080, 0x0000000080000001, 0x8000000080008008])],
        ∀ i, i < 4 → rcTable.getD (4 * row.1 + i) 0 = row.2.getD i 0) ∧
      ∀ rnd n, rnd < 24 → (rcTable.getD rnd 0).getLsbD n = true → n ∈ [0, 1, 3, 7, 15, 31, 63]) ∧
    keccakRound (List.replicate 25 0) 0 = 1 :: List.replicate 24 0 ∧
    (∀ (a : List (BitVec 64)) (rnd : Nat), keccakRound a rnd = iota (chi (piStep (rho (theta a)))) rnd) ∧
    (∀ a : List (BitVec 64), ∃ s : Nat → List (BitVec 64), s 0 = a ∧
      (∀ rnd, rnd < 24 → s (rnd + 1) = keccakRound (s rnd) rnd) ∧ keccakP a = s 24) ∧
    (∀ (r j : Nat) (pm : Bytes) (a : List (BitVec 64)), (absorb r pm j a).length = 25 ∧
      (∀ i b, i < 25 → i < r / 8 → b < 8 → (j + 1) * r ≤ pm.length →
        (lane (absorb r pm j a) i ^^^ lane a i).extractLsb' (8 * b) 8 = pm.getD (j * r + 8 * i + b) 0) ∧
      ∀ i, r / 8 ≤ i → i < 25 → lane (absorb r pm j a) i = lane a i) ∧
    ∀ (v : Variant) (m : Bytes), designOf v = .sponge → blockOf v % 8 = 0 ∧ blockOf v / 8 ∈ [18, 17, 13, 9] ∧
      ∃ s : Nat → List (BitVec 64), s 0 = List.replicate 25 0 ∧
        (∀ j, j < kpBlocks (blockOf v) m.length →
          s (j + 1) = keccakP (absorb (blockOf v) (kpPad (blockOf v) (suffixOf v) m) j (s j))) ∧
        compress v m = squeeze (dlen v) (s (kpBlocks (blockOf v) m.length))

/-- 41_kp R174, R175, R176: the two conversions bit by bit, that they are inverse to each other, and how the bitwise
operations and the rotations act on limbs. -/
def Obligations.InterleavingLaws : Prop :=
  (∀ (x : BitVec 64) (n : Nat), n < 32 →
    (toInterleaved x).1.getLsbD n = x.getLsbD (2 * n) ∧ (toInterleaved x).2.getLsbD n = x.getLsbD (2 * n + 1)) ∧
    (∀ (p : BitVec 32 × BitVec 32) (n : Nat), n < 32 →
      (fromInterleaved p).getLsbD (2 * n) = p.1.getLsbD n ∧
        (fromInterleaved p).getLsbD (2 * n + 1) = p.2.getLsbD n) ∧
    (∀ x : BitVec 64, fromInterleaved (toInterleaved x) = x) ∧
    (∀ p : BitVec 32 × BitVec 32, toInterleaved (fromInterleaved p) = p) ∧
    (∀ x y : BitVec 64,
      toInterleaved (x &&& y) = ((toInterleaved x).1 &&& (toInterleaved y).1, (toInterleaved x).2 &&& (toInterleaved y).2) ∧
      toInterleaved (x ||| y) = ((toInterleaved x).1 ||| (toInterleaved y).1, (toInterleaved x).2 ||| (toInterleaved y).2) ∧
      toInterleaved (x ^^^ y) = ((toInterleaved x).1 ^^^ (toInterleaved y).1, (toInterleaved x).2 ^^^ (toInterleaved y).2) ∧
      toInterleaved (~~~x) = (~~~(toInterleaved x).1, ~~~(toInterleaved x).2)) ∧
    ∀ (x : BitVec 64) (n : Nat), n < 32 →
      toInterleaved (x.rotateLeft (2 * n)) =
        ((toInterleaved x).1.rotateLeft n, (toInterleaved x).2.rotateLeft n) ∧
      toInterleaved (x.rotateLeft (2 * n + 1)) =
        ((toInterleaved x).2.rotateLeft ((n + 1) % 32), (toInterleaved x).1.rotateLeft n) ∧
      rotlLimbs (toInterleaved x) (2 * n) = toInterleaved (x.rotateLeft (2 * n)) ∧
      rotlLimbs (toInterleaved x) (2 * n + 1) = toInterleaved (x.rotateLeft (2 * n + 1))

/-- 41_kp R179: Keccak-p on limbs is Keccak-p on lanes, for every state, and every digest is the same on both paths. -/
def Obligations.KeccakPathsAgree : Prop :=
  (∀ a : List (BitVec 64), a.length = 25 →
    interleaveAll (keccakP a) = keccakPIlv (interleaveAll a)) ∧
    ∀ (sched : MdSched) (v : Variant) (m : Bytes),
      digestOf v (runEngine .ilv32 sched v m) = digestOf v (runEngine .lane64 sched v m)

/-- 43_merger R223, 41_kp R179, 92 D34: the digest a unit's step stores is the one its engine's registers hold, whatever
KP_PATH and MD_SCHED are. That the model computes the stored digest on lanes with the whole schedule is log 8, the
model's choice. -/
def Obligations.EngineRegistersHoldDigest : Prop :=
  ∀ (path : KpPath) (sched : MdSched) (v : Variant) (m : Bytes),
    digestOf v (runEngine path sched v m) = compress v m
end

