-- ==== Sys2Proof/Laws/Decode.lean ====
section
/-!
SUPPORT. Laws of the encoder: its two forms, and what the table's word and the encoder make of each other.
-/

namespace Sys2Proof

theorem rawOf_hashOf (v : Variant) : rawOf (hashOf v) = { op := 1, variant := v.code, rsvd := 0 } := by cases v <;> rfl

theorem rawOf_merklizeOf (v : Variant) : rawOf (merklizeOf v) = { op := 2, variant := v.code, rsvd := 0 } := by
  cases v <;> rfl

theorem variantOfCode_code (v : Variant) : variantOfCode v.code = some v := by cases v <;> rfl

/-- The fields of a word put together are the fields of the word. -/
theorem rawOfWord_wordOfRaw (r : RawCmd) : rawOfWord (wordOfRaw r) = r := by
  obtain ⟨op, variant, rsvd⟩ := r
  simp only [rawOfWord, wordOfRaw, RawCmd.mk.injEq]
  refine ⟨?_, ?_, ?_⟩ <;> apply BitVec.eq_of_getLsbD_eq <;> intro i hi
  · rw [BitVec.getLsbD_extractLsb', BitVec.getLsbD_append, if_pos (by omega)]
    simp [hi]
  · rw [BitVec.getLsbD_extractLsb', BitVec.getLsbD_append, if_neg (by omega), BitVec.getLsbD_append, if_pos (by omega)]
    simp [hi]
  · rw [BitVec.getLsbD_extractLsb', BitVec.getLsbD_append, if_neg (by omega), BitVec.getLsbD_append, if_neg (by omega),
      show 8 + i - 4 - 4 = i by omega]
    simp [hi]

end Sys2Proof
end

