-- ==== Sys2Proof/Laws/Engine.lean ====
section
/-!
SUPPORT. How long the engines' registers are, and what a lane or limb of a row built place by place is.
-/

namespace Sys2Proof.Machine

open Sys2Proof

/-! ## Lengths -/

@[simp] theorem toBe_length {w : Nat} (v : BitVec w) : (toBe v).length = w / 8 := by simp [toBe]

@[simp] theorem toLe_length (v : BitVec 64) : (toLe v).length = 8 := by simp [toLe]

@[simp] theorem beNat_length (len v : Nat) : (beNat len v).length = len := by
  induction len with
  | zero => rfl
  | succ n ih => simp [beNat, ih]

@[simp] theorem mdWords_length (w B : Nat) (pm : Bytes) (j : Nat) : (mdWords w B pm j).length = 16 := by simp [mdWords]

/-- What a fold keeps, if every step of it keeps it. -/
theorem foldl_keeps {α β : Type} (P : α → Prop) (f : α → β → α) (hf : ∀ a b, P a → P (f a b)) (l : List β) (a : α)
    (h : P a) : P (l.foldl f a) := by
  induction l generalizing a with
  | nil => exact h
  | cons b r ih => exact ih _ (hf a b h)

theorem mdBlock_hs_length {w : Nat} (sched : MdSched) (c : MdConfig w) (B : Nat) (r : MdRegs w) (j : Nat)
    (h : r.hs.length = 8) : (mdBlock sched c B r j).hs.length = 8 := by
  cases sched <;> simp [mdBlock, feedForward, workList, h]

theorem mdRun_hs_length {w : Nat} (sched : MdSched) (c : MdConfig w) (B : Nat) (iv : List (BitVec w)) (m : Bytes)
    (h : iv.length = 8) : (mdRun sched c B iv m).hs.length = 8 :=
  foldl_keeps (fun r => r.hs.length = 8) _ (fun r j => mdBlock_hs_length sched c B r j) _ _ h

theorem sha1Block_hs_length (sched : MdSched) (r : Sha1Regs) (j : Nat) (h : r.hs.length = 5) :
    (sha1Block sched r j).hs.length = 5 := by
  cases sched <;> simp [sha1Block, feedForward, work1List, h]

theorem sha1Run_hs_length (sched : MdSched) (m : Bytes) : (sha1Run sched m).hs.length = 5 :=
  foldl_keeps (fun r => r.hs.length = 5) _ (fun r j => sha1Block_hs_length sched r j) _ _ rfl

theorem kpRoundRegs_a_length (r : KpRegs) (rnd : Nat) : (kpRoundRegs r rnd).a.length = 25 := by
  simp [kpRoundRegs, iota, chi]

theorem kpBlock_a_length (rate : Nat) (r : KpRegs) (j : Nat) : (kpBlock rate r j).a.length = 25 :=
  foldl_keeps (fun r => r.a.length = 25) _ (fun r j _ => kpRoundRegs_a_length r j) _ _ (by simp [absorb])

theorem kpRun_a_length (rate : Nat) (suffix : Byte) (m : Bytes) : (kpRun rate suffix m).a.length = 25 :=
  foldl_keeps (fun r => r.a.length = 25) _ (fun r j _ => kpBlock_a_length rate r j) _ _ (by simp)

/-! ## A row built place by place -/

theorem getD_map_range {α : Type} (f : Nat → α) (n i : Nat) (d : α) (h : i < n) :
    ((List.range n).map f).getD i d = f i := by
  rw [List.getD_eq_getElem?_getD, List.getElem?_map, List.getElem?_range h]; rfl

theorem lane_map_range (f : Nat → BitVec 64) {n i : Nat} (h : i < n) : lane ((List.range n).map f) i = f i :=
  getD_map_range f n i 0 h

theorem limb_map_range (f : Nat → BitVec 32) {n i : Nat} (h : i < n) : limb ((List.range n).map f) i = f i :=
  getD_map_range f n i 0 h

/-- Rows of the same length with the same lanes are equal. -/
theorem lanes_ext {a b : List (BitVec 64)} {n : Nat} (ha : a.length = n) (hb : b.length = n)
    (h : ∀ i, i < n → lane a i = lane b i) : a = b := by
  refine List.ext_getElem (ha.trans hb.symm) fun i h1 h2 => ?_
  have := h i (by omega)
  simpa [lane, List.getD_eq_getElem?_getD, h1, h2] using this

/-- The engine's rotation is the rotation of bit vectors. -/
theorem rotl_eq {w : Nat} (v : BitVec w) {n : Nat} (h : n < w) : rotl v n = v.rotateLeft n := by
  rw [rotl, BitVec.rotateLeft_def, Nat.mod_eq_of_lt h]

theorem rotr_eq {w : Nat} (v : BitVec w) {n : Nat} (h : n < w) : rotr v n = v.rotateRight n := by
  rw [rotr, BitVec.rotateRight_def, Nat.mod_eq_of_lt h]

/-! ## Schedules built from the latest word backwards -/

theorem extend_length {α : Type} (next : List α → α) (n : Nat) (l : List α) :
    (extend next n l).length = n + l.length := by
  induction n generalizing l with
  | zero => simp [extend]
  | succ n ih => rw [extend, ih, List.length_cons]; omega

/-- The words there were stay in front. -/
theorem extend_prefix {α : Type} (next : List α → α) (n : Nat) (l : List α) :
    ∃ e, (extend next n l).reverse = l.reverse ++ e := by
  induction n generalizing l with
  | zero => exact ⟨[], by simp [extend]⟩
  | succ n ih =>
    obtain ⟨e, he⟩ := ih (next l :: l)
    exact ⟨next l :: e, by rw [extend, he]; simp⟩

/-- The bits of a word gathered from a function. -/
theorem gatherBits_getLsbD (f : Nat → Bool) (n i : Nat) : (gatherBits f n).getLsbD i = (decide (i < n) && f i) := by
  induction n with
  | zero => simp [gatherBits]
  | succ n ih =>
    rw [gatherBits, BitVec.getLsbD_cons]
    split
    · subst_vars; simp
    · rw [ih]
      have : (i < n + 1) ↔ (i < n) := by omega
      simp [this]

end Sys2Proof.Machine
end

