-- ==== Sys2Proof/Laws/Memory.lean ====
section
/-!
SUPPORT. The laws of sparse tables and of the buffer memory: read after write, what a write leaves alone, and that
every operation keeps the canonical form.
-/

namespace Sys2Proof.Machine

open Sys2Proof

section Sparse

variable {α : Type} [DecidableEq α] {d : α}

theorem sparseWfFrom_mono {m : List (Nat × α)} {lo lo' : Nat} (h : lo ≤ lo') (hm : sparseWfFrom d lo' m = true) :
    sparseWfFrom d lo m = true := by
  cases m with
  | nil => rfl
  | cons p r => simp only [sparseWfFrom, Bool.and_eq_true, decide_eq_true_eq] at hm ⊢; exact ⟨⟨by omega, hm.1.2⟩, hm.2⟩

/-- Below its lowest key a table reads as the default. -/
theorem sparseGet_below {m : List (Nat × α)} {lo a : Nat} (hm : sparseWfFrom d lo m = true) (ha : a < lo) :
    sparseGet d m a = d := by
  induction m generalizing lo with
  | nil => rfl
  | cons p r ih =>
    simp only [sparseWfFrom, Bool.and_eq_true, decide_eq_true_eq] at hm
    rw [sparseGet, if_neg (by omega), ih hm.2 (by omega)]

theorem sparsePut_wfFrom {m : List (Nat × α)} {lo a : Nat} {v : α} (hm : sparseWfFrom d lo m = true) (ha : lo ≤ a) :
    sparseWfFrom d lo (sparsePut d m a v) = true := by
  induction m generalizing lo with
  | nil => unfold sparsePut; split <;> simp_all [sparseWfFrom]
  | cons p r ih =>
    obtain ⟨k, w⟩ := p
    have hm' := hm
    simp only [sparseWfFrom, Bool.and_eq_true, decide_eq_true_eq] at hm'
    unfold sparsePut
    split
    · split
      · exact hm
      · simp only [sparseWfFrom, Bool.and_eq_true, decide_eq_true_eq]
        exact ⟨⟨ha, by assumption⟩, ⟨⟨by omega, hm'.1.2⟩, hm'.2⟩⟩
    · split
      · subst a
        split
        · exact sparseWfFrom_mono (by omega) hm'.2
        · simp only [sparseWfFrom, Bool.and_eq_true, decide_eq_true_eq]
          exact ⟨⟨ha, by assumption⟩, hm'.2⟩
      · simp only [sparseWfFrom, Bool.and_eq_true, decide_eq_true_eq]
        exact ⟨hm'.1, ih hm'.2 (by omega)⟩

/-- A replacement keeps the canonical form. -/
theorem sparsePut_wf {m : List (Nat × α)} (a : Nat) (v : α) (hm : sparseWf d m = true) :
    sparseWf d (sparsePut d m a v) = true := sparsePut_wfFrom hm (Nat.zero_le a)

/-- What a table reads as after a replacement. -/
theorem sparseGet_put {m : List (Nat × α)} {lo : Nat} (hm : sparseWfFrom d lo m = true) (a b : Nat) (v : α) :
    sparseGet d (sparsePut d m a v) b = if b = a then v else sparseGet d m b := by
  induction m generalizing lo with
  | nil => unfold sparsePut; split <;> simp_all [sparseGet]
  | cons p r ih =>
    obtain ⟨k, w⟩ := p
    have hm' := hm
    simp only [sparseWfFrom, Bool.and_eq_true, decide_eq_true_eq] at hm'
    unfold sparsePut
    split
    · split
      · by_cases hb : b = a
        · subst hb
          rw [if_pos rfl, sparseGet, if_neg (by omega), sparseGet_below hm'.2 (by omega)]; exact Eq.symm ‹_›
        · rw [if_neg hb]
      · by_cases hb : b = a <;> simp [sparseGet, hb]
    · split
      · subst a
        split
        · by_cases hb : b = k
          · subst hb; rw [if_pos rfl, sparseGet_below hm'.2 (by omega)]; exact Eq.symm ‹_›
          · simp [sparseGet, hb]
        · by_cases hb : b = k <;> simp [sparseGet, hb]
      · by_cases hb : b = k
        · subst hb; rw [if_neg (by omega)]; simp [sparseGet]
        · simp only [sparseGet, if_neg hb]; exact ih hm'.2

theorem sparseGet_put_same {m : List (Nat × α)} (hm : sparseWf d m = true) (a : Nat) (v : α) :
    sparseGet d (sparsePut d m a v) a = v := by rw [sparseGet_put hm, if_pos rfl]

theorem sparseGet_put_other {m : List (Nat × α)} (hm : sparseWf d m = true) {a b : Nat} (v : α) (h : b ≠ a) :
    sparseGet d (sparsePut d m a v) b = sparseGet d m b := by rw [sparseGet_put hm, if_neg h]

/-- Two tables in canonical form that read the same are equal. -/
theorem sparse_ext_from {m m' : List (Nat × α)} {lo lo' : Nat} (hm : sparseWfFrom d lo m = true)
    (hm' : sparseWfFrom d lo' m' = true) (h : ∀ a, sparseGet d m a = sparseGet d m' a) : m = m' := by
  induction m generalizing m' lo lo' with
  | nil =>
    cases m' with
    | nil => rfl
    | cons p r =>
      simp only [sparseWfFrom, Bool.and_eq_true, decide_eq_true_eq] at hm'
      have := h p.1
      simp [sparseGet] at this
      exact absurd this.symm hm'.1.2
  | cons p r ih =>
    obtain ⟨k, v⟩ := p
    have hmc := hm
    simp only [sparseWfFrom, Bool.and_eq_true, decide_eq_true_eq] at hmc
    cases m' with
    | nil =>
      have := h k
      simp [sparseGet] at this
      exact absurd this hmc.1.2
    | cons q r' =>
      obtain ⟨k', v'⟩ := q
      have hmc' := hm'
      simp only [sparseWfFrom, Bool.and_eq_true, decide_eq_true_eq] at hmc'
      have hk : k = k' := by
        rcases Nat.lt_trichotomy k k' with hlt | heq | hgt
        · have := h k
          rw [sparseGet, if_pos rfl, sparseGet, if_neg (by omega), sparseGet_below hmc'.2 (by omega)] at this
          exact absurd this hmc.1.2
        · exact heq
        · have := h k'
          rw [sparseGet, if_neg (by omega), sparseGet_below hmc.2 (by omega), sparseGet, if_pos rfl] at this
          exact absurd this.symm hmc'.1.2
      subst hk
      have hv : v = v' := by simpa [sparseGet] using h k
      subst hv
      congr 1
      refine ih hmc.2 hmc'.2 fun a => ?_
      by_cases ha : a = k
      · subst ha; rw [sparseGet_below hmc.2 (by omega), sparseGet_below hmc'.2 (by omega)]
      · simpa [sparseGet, ha] using h a

theorem sparse_ext {m m' : List (Nat × α)} (hm : sparseWf d m = true) (hm' : sparseWf d m' = true)
    (h : ∀ a, sparseGet d m a = sparseGet d m' a) : m = m' := sparse_ext_from hm hm' h

/-- Replacements at two keys commute. -/
theorem sparsePut_comm {m : List (Nat × α)} (hm : sparseWf d m = true) {a b : Nat} (h : a ≠ b) (v w : α) :
    sparsePut d (sparsePut d m a v) b w = sparsePut d (sparsePut d m b w) a v := by
  refine sparse_ext (sparsePut_wf _ _ (sparsePut_wf _ _ hm)) (sparsePut_wf _ _ (sparsePut_wf _ _ hm)) fun c => ?_
  rw [sparseGet_put (sparsePut_wf a v hm), sparseGet_put hm, sparseGet_put (sparsePut_wf b w hm), sparseGet_put hm]
  split <;> split <;> first | rfl | (subst_vars; contradiction)

/-- Every entry after a replacement is the new one or was there. -/
theorem mem_sparsePut {m : List (Nat × α)} {a : Nat} {v : α} {p : Nat × α} (h : p ∈ sparsePut d m a v) :
    p = (a, v) ∨ p ∈ m := by
  induction m with
  | nil => unfold sparsePut at h; split at h <;> simp_all
  | cons q r ih =>
    unfold sparsePut at h
    split at h
    · split at h <;> simp_all
    · split at h
      · split at h
        · simp_all
        · simp_all; tauto
      · rcases List.mem_cons.mp h with h | h
        · exact .inr (h ▸ List.mem_cons_self)
        · rcases ih h with h | h
          · exact .inl h
          · exact .inr (List.mem_cons_of_mem _ h)

end Sparse

/-! ## Bytes -/

theorem readByte_writeByte {m : Memory} (hm : Memory.wf m = true) (a b : Nat) (v : Byte) :
    readByte (writeByte m a v) b = if b = a then v else readByte m b := sparseGet_put hm a b v

theorem writeByte_wf {m : Memory} (a : Nat) (v : Byte) (hm : Memory.wf m = true) : Memory.wf (writeByte m a v) = true :=
  sparsePut_wf a v hm

theorem writeByte_bounded {m : Memory} {a : Nat} (v : Byte) (ha : a < 2 ^ 64) (hm : Memory.bounded m = true) :
    Memory.bounded (writeByte m a v) = true := by
  simp only [Memory.bounded, List.all_eq_true, decide_eq_true_eq] at hm ⊢
  intro p hp
  rcases mem_sparsePut hp with rfl | hp
  · exact ha
  · exact hm p hp

/-- Memories in canonical form that read the same are equal. -/
theorem memory_ext {m m' : Memory} (hm : Memory.wf m = true) (hm' : Memory.wf m' = true)
    (h : ∀ a, readByte m a = readByte m' a) : m = m' := sparse_ext hm hm' h

/-! ## Byte strings -/

@[simp] theorem readBytes_length (m : Memory) (a n : Nat) : (readBytes m a n).length = n := by simp [readBytes]

@[simp] theorem readBytes_getElem (m : Memory) (a n i : Nat) (h : i < (readBytes m a n).length) :
    (readBytes m a n)[i] = readByte m (a + i) := by simp [readBytes]

/-- Byte strings read are equal when each byte is. -/
theorem readBytes_congr {m m' : Memory} {a n : Nat} (h : ∀ i, i < n → readByte m (a + i) = readByte m' (a + i)) :
    readBytes m a n = readBytes m' a n := by
  refine List.map_congr_left fun i hi => h i (by simpa using hi)

theorem writeBytes_wf {m : Memory} (a : Nat) (bs : Bytes) (hm : Memory.wf m = true) :
    Memory.wf (writeBytes m a bs) = true := by
  induction bs generalizing m a with
  | nil => exact hm
  | cons b r ih => exact ih _ (writeByte_wf a b hm)

theorem writeBytes_bounded {m : Memory} {a : Nat} {bs : Bytes} (ha : a + bs.length ≤ 2 ^ 64)
    (hm : Memory.bounded m = true) : Memory.bounded (writeBytes m a bs) = true := by
  induction bs generalizing m a with
  | nil => exact hm
  | cons b r ih =>
    simp only [List.length_cons] at ha
    exact ih (by omega) (writeByte_bounded b (by omega) hm)

/-- What a byte reads as after a write: the byte stored there, or what it was. -/
theorem readByte_writeBytes {m : Memory} (hm : Memory.wf m = true) (a : Nat) (bs : Bytes) (c : Nat) :
    readByte (writeBytes m a bs) c = if a ≤ c ∧ c < a + bs.length then bs.getD (c - a) 0 else readByte m c := by
  induction bs generalizing m a with
  | nil => simp [writeBytes]
  | cons b r ih =>
    rw [writeBytes, ih (writeByte_wf a b hm), readByte_writeByte hm]
    by_cases h1 : a + 1 ≤ c ∧ c < a + 1 + r.length
    · rw [if_pos h1, if_pos (by simp only [List.length_cons]; omega)]
      obtain ⟨n, rfl⟩ : ∃ n, c = a + 1 + n := ⟨c - (a + 1), by omega⟩
      have e1 : a + 1 + n - (a + 1) = n := by omega
      have e2 : a + 1 + n - a = n + 1 := by omega
      rw [e1, e2, List.getD_cons_succ]
    · rw [if_neg h1]
      by_cases h2 : c = a
      · subst h2; simp
      · rw [if_neg h2, if_neg (by simp only [List.length_cons]; omega)]

theorem readByte_writeBytes_outside {m : Memory} (hm : Memory.wf m = true) {a c : Nat} {bs : Bytes}
    (h : c < a ∨ a + bs.length ≤ c) : readByte (writeBytes m a bs) c = readByte m c := by
  rw [readByte_writeBytes hm, if_neg (by omega)]

/-- Reading back what was written. -/
theorem readBytes_writeBytes_same {m : Memory} (hm : Memory.wf m = true) (a : Nat) (bs : Bytes) :
    readBytes (writeBytes m a bs) a bs.length = bs := by
  refine List.ext_getElem (by simp) fun i h1 h2 => ?_
  rw [readBytes_getElem, readByte_writeBytes hm, if_pos (by omega)]
  simp [List.getD_eq_getElem?_getD, h2]

/-- A write leaves every byte string that does not meet it as it was. -/
theorem readBytes_writeBytes_apart {m : Memory} (hm : Memory.wf m = true) {a c n : Nat} {bs : Bytes}
    (h : c + n ≤ a ∨ a + bs.length ≤ c) : readBytes (writeBytes m a bs) c n = readBytes m c n :=
  readBytes_congr fun i hi => readByte_writeBytes_outside hm (by omega)

/-- Writes that do not meet commute. -/
theorem writeBytes_comm {m : Memory} (hm : Memory.wf m = true) {a c : Nat} {bs cs : Bytes}
    (h : a + bs.length ≤ c ∨ c + cs.length ≤ a) :
    writeBytes (writeBytes m a bs) c cs = writeBytes (writeBytes m c cs) a bs := by
  refine memory_ext (writeBytes_wf _ _ (writeBytes_wf _ _ hm)) (writeBytes_wf _ _ (writeBytes_wf _ _ hm)) fun e => ?_
  rw [readByte_writeBytes (writeBytes_wf _ _ hm), readByte_writeBytes hm, readByte_writeBytes (writeBytes_wf _ _ hm),
    readByte_writeBytes hm]
  split <;> split <;> first | rfl | omega

/-! ## A write that performs a subset of its bytes -/

theorem writeSome_wf {m : Memory} (a : Nat) (bs : Bytes) (t : List Bool) (hm : Memory.wf m = true) :
    Memory.wf (writeSome m a bs t) = true := by
  induction bs generalizing m a t with
  | nil => exact hm
  | cons b r ih =>
    cases t with
    | nil => exact hm
    | cons w t => cases w <;> simp only [writeSome] <;> exact ih _ _ (by first | exact hm | exact writeByte_wf a b hm)

theorem writeSome_bounded {m : Memory} {a : Nat} {bs : Bytes} (t : List Bool) (ha : a + bs.length ≤ 2 ^ 64)
    (hm : Memory.bounded m = true) : Memory.bounded (writeSome m a bs t) = true := by
  induction bs generalizing m a t with
  | nil => exact hm
  | cons b r ih =>
    simp only [List.length_cons] at ha
    cases t with
    | nil => exact hm
    | cons w t =>
      cases w <;> simp only [writeSome] <;>
        exact ih _ (by omega) (by first | exact hm | exact writeByte_bounded b (by omega) hm)

/-- What a byte reads as after such a write: the byte stored there where the subset holds `true`, else what it was. -/
theorem readByte_writeSome {m : Memory} (hm : Memory.wf m = true) (a : Nat) (bs : Bytes) (t : List Bool) (c : Nat) :
    readByte (writeSome m a bs t) c =
      if a ≤ c ∧ c < a + bs.length ∧ t.getD (c - a) false = true then bs.getD (c - a) 0 else readByte m c := by
  induction bs generalizing m a t with
  | nil => simp only [writeSome, List.length_nil]; rw [if_neg (by omega)]
  | cons b r ih =>
    cases t with
    | nil => simp [writeSome]
    | cons w t =>
      have hm' : Memory.wf (if w = true then writeByte m a b else m) = true := by
        split
        · exact writeByte_wf a b hm
        · exact hm
      rw [writeSome, ih hm']
      by_cases h1 : a + 1 ≤ c
      · obtain ⟨n, rfl⟩ : ∃ n, c = a + 1 + n := ⟨c - (a + 1), by omega⟩
        have e1 : a + 1 + n - (a + 1) = n := by omega
        have e2 : a + 1 + n - a = n + 1 := by omega
        have hr : readByte (if w = true then writeByte m a b else m) (a + 1 + n) = readByte m (a + 1 + n) := by
          split
          · rw [readByte_writeByte hm, if_neg (by omega)]
          · rfl
        rw [e1, e2, List.getD_cons_succ, List.getD_cons_succ, hr]
        refine if_congr ?_ rfl rfl
        simp only [List.length_cons]
        constructor <;> rintro ⟨_, _, h⟩ <;> exact ⟨by omega, by omega, h⟩
      · rw [if_neg (by omega)]
        by_cases h2 : c = a
        · subst h2
          cases w
          · simp
          · simp [readByte_writeByte hm]
        · have hn : ¬(a ≤ c ∧ c < a + (b :: r).length ∧ (w :: t).getD (c - a) false = true) := fun h => by omega
          rw [if_neg hn]
          split
          · rw [readByte_writeByte hm, if_neg h2]
          · rfl

/-! ## Ranges and port accesses -/

/-- `rangesMeet` says that some address lies in both intervals, for intervals that are not empty. -/
theorem rangesMeet_iff {a n b k : Nat} (hn : 0 < n) (hk : 0 < k) :
    rangesMeet a n b k = true ↔ ∃ c, (a ≤ c ∧ c < a + n) ∧ b ≤ c ∧ c < b + k := by
  simp only [rangesMeet, Bool.and_eq_true, decide_eq_true_eq]
  constructor
  · intro h
    exact ⟨max a b, by omega, by omega⟩
  · rintro ⟨c, h1, h2⟩
    omega

@[simp] theorem portFailsAt_ok (n : Nat) : portFailsAt .ok n = false := rfl

/-- The reads of a load step when the port fails none of them and every byte exists. -/
theorem readAll_performed {m : Memory} {port : PortAnswer} {n : Nat} {l : List (Nat × Nat)}
    (hp : ∀ k, k < l.length → portFailsAt port (n + k) = false) (hr : ∀ p ∈ l, p.1 + p.2 ≤ 2 ^ 64) :
    readAll m port n l = .performed (l.flatMap fun p => readBytes m p.1 p.2) := by
  induction l generalizing n with
  | nil => rfl
  | cons p r ih =>
    have h0 := hr p List.mem_cons_self
    have hf : portFailsAt port n = false := by simpa using hp 0 (by simp)
    rw [readAll, if_neg (by omega), hf, ih (fun k hk => by
      have := hp (k + 1) (by simpa using hk)
      rwa [show n + (k + 1) = n + 1 + k by omega] at this) fun q hq => hr q (List.mem_cons_of_mem _ hq)]
    rfl

end Sys2Proof.Machine
end

