-- ==== Sys2Proof/Laws/Tree.lean ====
section
/-!
SUPPORT. The tree quantities for N = 2^L, the variant table's bounds, and what the precondition checks say.
-/

namespace Sys2Proof.Machine

open Sys2Proof

/-! ## The variant table -/

theorem dlen_pos (v : Variant) : 0 < dlen v := by cases v <;> decide

theorem dlen_le_slotOf (v : Variant) : dlen v ≤ slotOf v := by cases v <;> decide

theorem slotOf_le (v : Variant) : slotOf v ≤ 64 := by cases v <;> decide

theorem slotOf_ge (v : Variant) : 20 ≤ slotOf v := by cases v <;> decide

/-! ## Tree quantities -/

/-- The bit test picks out the powers of two from 2 on (60_exceptions R273). -/
theorem isLeafCount_iff {n : Nat} : isLeafCount n = true ↔ ∃ L, 1 ≤ L ∧ n = 2 ^ L := by
  simp only [isLeafCount, Bool.and_eq_true, decide_eq_true_eq, beq_iff_eq]
  constructor
  · rintro ⟨h2, hb⟩
    obtain ⟨L, rfl⟩ := (Nat.and_sub_one_eq_zero_iff_isPowerOfTwo (by omega)).mp hb
    exact ⟨L, Nat.one_le_iff_ne_zero.mpr (by rintro rfl; simp at h2), rfl⟩
  · rintro ⟨L, h1, rfl⟩
    have h2 : 2 ^ 1 ≤ 2 ^ L := Nat.pow_le_pow_right (by omega) h1
    exact ⟨by simpa using h2, (Nat.and_sub_one_eq_zero_iff_isPowerOfTwo (by omega)).mpr ⟨L, rfl⟩⟩

theorem levels_two_pow (L : Nat) : levels (2 ^ L) = L := Nat.log2_two_pow

theorem levelSize_two_pow {L k : Nat} (h : k ≤ L) : levelSize (2 ^ L) k = 2 ^ (L - k) := Nat.pow_div h (by omega)

theorem pairCount_two_pow {L k : Nat} (h : k < L) : pairCount (2 ^ L) k = 2 ^ (L - (k + 1)) := by
  rw [pairCount, levelSize_two_pow (by omega), show L - k = L - (k + 1) + 1 by omega, Nat.pow_succ]
  omega

/-- P_k = S_{k+1} (43_merger R211). -/
theorem pairCount_eq_levelSize {L k : Nat} (h : k < L) : pairCount (2 ^ L) k = levelSize (2 ^ L) (k + 1) := by
  rw [pairCount_two_pow h, levelSize_two_pow (by omega)]

/-- S_k = 2 * P_k below the root. -/
theorem levelSize_eq_double {L k : Nat} (h : k < L) : levelSize (2 ^ L) k = 2 * pairCount (2 ^ L) k := by
  rw [pairCount_two_pow h, levelSize_two_pow (by omega), show L - k = L - (k + 1) + 1 by omega, Nat.pow_succ]
  omega

/-- S_k <= N/2 from level 1 on. -/
theorem double_levelSize_le {L k : Nat} (h1 : 1 ≤ k) (h : k ≤ L) : 2 * levelSize (2 ^ L) k ≤ 2 ^ L := by
  rw [levelSize_two_pow h, Nat.mul_comm, ← Nat.pow_succ]
  exact Nat.pow_le_pow_right (by omega) (by omega)

/-- off_{k+1} = off_k + S_k (43_merger R215). -/
theorem levelOffset_succ {L k : Nat} (h1 : 1 ≤ k) (h : k < L) :
    levelOffset (2 ^ L) (k + 1) = levelOffset (2 ^ L) k + levelSize (2 ^ L) k := by
  have h2 := double_levelSize_le h1 h.le
  have h3 := levelSize_eq_double h
  have h4 := pairCount_eq_levelSize h
  simp only [levelOffset]
  omega

/-- Digest i of level k, k >= 1, lies in one of the first N - 1 slots of DST. -/
theorem levelOffset_add_lt {L k i : Nat} (h1 : 1 ≤ k) (h : k ≤ L) (hi : i < levelSize (2 ^ L) k) :
    levelOffset (2 ^ L) k + i < 2 ^ L - 1 := by
  have h2 := double_levelSize_le h1 h
  simp only [levelOffset]
  omega

@[simp] theorem digestAddr_zero (v : Variant) (a : Args) (i : Nat) : digestAddr v a 0 i = srcSlot v a i := rfl

@[simp] theorem digestAddr_succ (v : Variant) (a : Args) (k i : Nat) :
    digestAddr v a (k + 1) i = dstSlot v a (levelOffset a.leafCount.toNat (k + 1) + i) := rfl

/-! ## The checks -/

theorem wraps_eq_false {base len : Word} : wraps base len = false ↔ base.toNat + len.toNat ≤ 2 ^ 64 := by
  simp [wraps]

/-- `check_hash` passes exactly when the lengths are the variant's and no region passes 2^64. -/
theorem checkHash_eq_none {v : Variant} {x : Args} :
    checkHash v x = none ↔ x.srcLen.toNat = 2 * dlen v ∧ x.dstLen.toNat = dlen v ∧
      x.srcPtr.toNat + x.srcLen.toNat ≤ 2 ^ 64 ∧ x.dstPtr.toNat + x.dstLen.toNat ≤ 2 ^ 64 := by
  unfold checkHash wraps
  split_ifs <;> simp_all

/-- What a MERKLIZE that passes its checks works on (43_merger R212). -/
structure LegalTree (v : Variant) (x : Args) (L : Nat) : Prop where
  one_le : 1 ≤ L
  leaves : x.leafCount.toNat = 2 ^ L
  srcLen : x.srcLen.toNat = 2 ^ L * slotOf v
  itmd : x.itmdCount.toNat = 2 ^ L - 1
  dstLen : x.dstLen.toNat = 2 ^ L * slotOf v
  batch : batchFits x.batch.toNat (2 ^ L) = true
  srcTop : x.srcPtr.toNat + 2 ^ L * slotOf v ≤ 2 ^ 64
  dstTop : x.dstPtr.toNat + 2 ^ L * slotOf v ≤ 2 ^ 64
  apart : x.srcPtr.toNat + 2 ^ L * slotOf v ≤ x.dstPtr.toNat ∨ x.dstPtr.toNat + 2 ^ L * slotOf v ≤ x.srcPtr.toNat

/-- `check_merklize` passes exactly on legal trees. -/
theorem checkMerklize_eq_none {v : Variant} {x : Args} : checkMerklize v x = none ↔ ∃ L, LegalTree v x L := by
  constructor
  · intro h
    unfold checkMerklize at h
    split_ifs at h with h1 h2 h3 h4 h5 h6 h7 h8
    obtain ⟨L, hL, hN⟩ := isLeafCount_iff.mp (by simpa using h1)
    have hp : 1 ≤ 2 ^ L := Nat.one_le_two_pow
    rw [hN] at h2 h3 h5
    have h3' : x.itmdCount.toNat = 2 ^ L - 1 := by simpa using h3
    have h4' : x.dstLen.toNat = 2 ^ L * slotOf v := by
      rw [show 2 ^ L = x.itmdCount.toNat + 1 by omega]; simpa using h4
    have h2' : x.srcLen.toNat = 2 ^ L * slotOf v := by simpa using h2
    have h6' := wraps_eq_false.mp (by simpa using h6)
    have h7' := wraps_eq_false.mp (by simpa using h7)
    refine ⟨L, hL, hN, h2', h3', h4', by simpa using h5, h2' ▸ h6', h4' ▸ h7', ?_⟩
    simp only [rangesMeet, h2', h4', Bool.and_eq_true, decide_eq_true_eq, not_and] at h8
    omega
  · rintro ⟨L, h⟩
    have hp : 1 ≤ 2 ^ L := Nat.one_le_two_pow
    have h1 : isLeafCount x.leafCount.toNat = true := isLeafCount_iff.mpr ⟨L, h.one_le, h.leaves⟩
    have h4 : x.dstLen.toNat = (x.itmdCount.toNat + 1) * slotOf v := by
      rw [h.itmd, h.dstLen, Nat.sub_add_cancel hp]
    have h6 := h.srcTop
    have h7 := h.dstTop
    rw [← h.srcLen] at h6
    rw [← h.dstLen] at h7
    have h8 : rangesMeet x.srcPtr.toNat x.srcLen.toNat x.dstPtr.toNat x.dstLen.toNat = false := by
      have := h.apart
      rw [← Bool.not_eq_true]
      simp only [rangesMeet, h.srcLen, h.dstLen, Bool.and_eq_true, decide_eq_true_eq]
      omega
    unfold checkMerklize
    rw [if_neg (by simp [h1]), if_neg (by simp [h.srcLen, h.leaves]), if_neg (by simp [h.itmd, h.leaves]),
      if_neg (by simpa using h4), if_neg (by simp [h.leaves, h.batch]), if_neg (by simp [wraps_eq_false.mpr h6]),
      if_neg (by simp [wraps_eq_false.mpr h7]), if_neg (by simp [h8])]

/-! ## Where the digests of a legal tree lie -/

section

variable {v : Variant} {x : Args} {L : Nat}

/-- A digest lies inside the slots of its region. -/
theorem slot_room {n j : Nat} (hj : j < n) : j * slotOf v + dlen v ≤ n * slotOf v := by
  have h1 : (j + 1) * slotOf v ≤ n * slotOf v := Nat.mul_le_mul_right _ hj
  have h2 := dlen_le_slotOf v
  rw [Nat.add_mul] at h1
  omega

/-- Different slots do not meet. -/
theorem slot_apart {i j : Nat} (h : i < j) : i * slotOf v + dlen v ≤ j * slotOf v := slot_room h

/-- A leaf lies in SRC. -/
theorem LegalTree.leaf_in (_h : LegalTree v x L) {i : Nat} (hi : i < levelSize (2 ^ L) 0) :
    x.srcPtr.toNat ≤ digestAddr v x 0 i ∧ digestAddr v x 0 i + dlen v ≤ x.srcPtr.toNat + 2 ^ L * slotOf v := by
  have hi' : i < 2 ^ L := by simpa [levelSize] using hi
  have := slot_room (v := v) hi'
  simp only [digestAddr_zero, srcSlot]
  omega

/-- A digest above the leaves lies in DST, below its last slot. -/
theorem LegalTree.digest_in (h : LegalTree v x L) {k i : Nat} (hk : k + 1 ≤ L) (hi : i < levelSize (2 ^ L) (k + 1)) :
    x.dstPtr.toNat ≤ digestAddr v x (k + 1) i ∧
      digestAddr v x (k + 1) i + dlen v ≤ x.dstPtr.toNat + (2 ^ L - 1) * slotOf v := by
  have := slot_room (v := v) (levelOffset_add_lt (by omega) hk hi)
  simp only [digestAddr_succ, dstSlot, h.leaves]
  omega

/-- Every digest of a legal tree lies inside the address space. -/
theorem LegalTree.digest_top (h : LegalTree v x L) {k i : Nat} (hk : k ≤ L) (hi : i < levelSize (2 ^ L) k) :
    digestAddr v x k i + dlen v ≤ 2 ^ 64 := by
  cases k with
  | zero => have := h.leaf_in hi; have := h.srcTop; omega
  | succ k =>
    have h1 := h.digest_in hk hi
    have h2 := h.dstTop
    have h3 : (2 ^ L - 1) * slotOf v ≤ 2 ^ L * slotOf v := Nat.mul_le_mul_right _ (Nat.sub_le _ _)
    omega

/-- What the units of a level write does not meet any digest of a level up to that one, nor another digest of the
level written (43_merger R217, R224). -/
theorem LegalTree.digest_apart (h : LegalTree v x L) {j k i i' : Nat} (hk : k + 1 ≤ L) (hj : j ≤ k + 1)
    (hi : i < levelSize (2 ^ L) (k + 1)) (hi' : i' < levelSize (2 ^ L) j) (hne : j ≠ k + 1 ∨ i ≠ i') :
    digestAddr v x j i' + dlen v ≤ digestAddr v x (k + 1) i ∨
      digestAddr v x (k + 1) i + dlen v ≤ digestAddr v x j i' := by
  have hd := h.digest_in hk hi
  have hm : (2 ^ L - 1) * slotOf v ≤ 2 ^ L * slotOf v := Nat.mul_le_mul_right _ (Nat.sub_le _ _)
  cases j with
  | zero =>
    have hl := h.leaf_in hi'
    have := h.apart
    omega
  | succ j =>
    have hlt : levelOffset (2 ^ L) (j + 1) + i' ≠ levelOffset (2 ^ L) (k + 1) + i := by
      rcases Nat.lt_or_ge j k with hjk | hjk
      · have step : ∀ m, j + 1 + m ≤ L → 0 < m →
            levelOffset (2 ^ L) (j + 1) + levelSize (2 ^ L) (j + 1) ≤ levelOffset (2 ^ L) (j + 1 + m) := by
          intro m
          induction m with
          | zero => omega
          | succ m ih =>
            intro hmL _
            have hs := levelOffset_succ (L := L) (k := j + 1 + m) (by omega) (by omega)
            rw [show j + 1 + (m + 1) = j + 1 + m + 1 by omega, hs]
            rcases Nat.eq_zero_or_pos m with rfl | hm0
            · simp
            · have := ih (by omega) hm0; omega
        have := step (k - j) (by omega) (by omega)
        rw [show j + 1 + (k - j) = k + 1 by omega] at this
        omega
      · have hjk' : j = k := by omega
        subst hjk'
        omega
    simp only [digestAddr_succ, dstSlot, h.leaves]
    rcases Nat.lt_or_gt_of_ne hlt with hlt | hlt
    · have := slot_apart (v := v) hlt; omega
    · have := slot_apart (v := v) hlt; omega

end

end Sys2Proof.Machine
end

