-- ==== Sys2Proof/Laws/State.lean ====
section
/-!
SUPPORT. What each named update of State does to each field: one lemma per field per update.
-/

namespace Sys2Proof.Machine

open Sys2Proof

@[simp] theorem State.withX_x (s : State) (v : Args) : (s.withX v).x = v := rfl
@[simp] theorem State.withX_status (s : State) (v : Args) : (s.withX v).status = s.status := rfl
@[simp] theorem State.withX_errInfo (s : State) (v : Args) : (s.withX v).errInfo = s.errInfo := rfl
@[simp] theorem State.withX_ie (s : State) (v : Args) : (s.withX v).ie = s.ie := rfl
@[simp] theorem State.withX_latch (s : State) (v : Args) : (s.withX v).latch = s.latch := rfl
@[simp] theorem State.withX_seq (s : State) (v : Args) : (s.withX v).seq = s.seq := rfl
@[simp] theorem State.withX_mem (s : State) (v : Args) : (s.withX v).mem = s.mem := rfl
@[simp] theorem State.withX_agenda (s : State) (v : Args) : (s.withX v).agenda = s.agenda := rfl
@[simp] theorem State.withX_replies (s : State) (v : Args) : (s.withX v).replies = s.replies := rfl

@[simp] theorem State.withStatus_x (s : State) (v : Status) : (s.withStatus v).x = s.x := rfl
@[simp] theorem State.withStatus_status (s : State) (v : Status) : (s.withStatus v).status = v := rfl
@[simp] theorem State.withStatus_errInfo (s : State) (v : Status) : (s.withStatus v).errInfo = s.errInfo := rfl
@[simp] theorem State.withStatus_ie (s : State) (v : Status) : (s.withStatus v).ie = s.ie := rfl
@[simp] theorem State.withStatus_latch (s : State) (v : Status) : (s.withStatus v).latch = s.latch := rfl
@[simp] theorem State.withStatus_seq (s : State) (v : Status) : (s.withStatus v).seq = s.seq := rfl
@[simp] theorem State.withStatus_mem (s : State) (v : Status) : (s.withStatus v).mem = s.mem := rfl
@[simp] theorem State.withStatus_agenda (s : State) (v : Status) : (s.withStatus v).agenda = s.agenda := rfl
@[simp] theorem State.withStatus_replies (s : State) (v : Status) : (s.withStatus v).replies = s.replies := rfl

@[simp] theorem State.withErrInfo_x (s : State) (v : Word) : (s.withErrInfo v).x = s.x := rfl
@[simp] theorem State.withErrInfo_status (s : State) (v : Word) : (s.withErrInfo v).status = s.status := rfl
@[simp] theorem State.withErrInfo_errInfo (s : State) (v : Word) : (s.withErrInfo v).errInfo = v := rfl
@[simp] theorem State.withErrInfo_ie (s : State) (v : Word) : (s.withErrInfo v).ie = s.ie := rfl
@[simp] theorem State.withErrInfo_latch (s : State) (v : Word) : (s.withErrInfo v).latch = s.latch := rfl
@[simp] theorem State.withErrInfo_seq (s : State) (v : Word) : (s.withErrInfo v).seq = s.seq := rfl
@[simp] theorem State.withErrInfo_mem (s : State) (v : Word) : (s.withErrInfo v).mem = s.mem := rfl
@[simp] theorem State.withErrInfo_agenda (s : State) (v : Word) : (s.withErrInfo v).agenda = s.agenda := rfl
@[simp] theorem State.withErrInfo_replies (s : State) (v : Word) : (s.withErrInfo v).replies = s.replies := rfl

@[simp] theorem State.withIe_x (s : State) (v : Bool) : (s.withIe v).x = s.x := rfl
@[simp] theorem State.withIe_status (s : State) (v : Bool) : (s.withIe v).status = s.status := rfl
@[simp] theorem State.withIe_errInfo (s : State) (v : Bool) : (s.withIe v).errInfo = s.errInfo := rfl
@[simp] theorem State.withIe_ie (s : State) (v : Bool) : (s.withIe v).ie = v := rfl
@[simp] theorem State.withIe_latch (s : State) (v : Bool) : (s.withIe v).latch = s.latch := rfl
@[simp] theorem State.withIe_seq (s : State) (v : Bool) : (s.withIe v).seq = s.seq := rfl
@[simp] theorem State.withIe_mem (s : State) (v : Bool) : (s.withIe v).mem = s.mem := rfl
@[simp] theorem State.withIe_agenda (s : State) (v : Bool) : (s.withIe v).agenda = s.agenda := rfl
@[simp] theorem State.withIe_replies (s : State) (v : Bool) : (s.withIe v).replies = s.replies := rfl

@[simp] theorem State.withLatch_x (s : State) (v : Latch) : (s.withLatch v).x = s.x := rfl
@[simp] theorem State.withLatch_status (s : State) (v : Latch) : (s.withLatch v).status = s.status := rfl
@[simp] theorem State.withLatch_errInfo (s : State) (v : Latch) : (s.withLatch v).errInfo = s.errInfo := rfl
@[simp] theorem State.withLatch_ie (s : State) (v : Latch) : (s.withLatch v).ie = s.ie := rfl
@[simp] theorem State.withLatch_latch (s : State) (v : Latch) : (s.withLatch v).latch = v := rfl
@[simp] theorem State.withLatch_seq (s : State) (v : Latch) : (s.withLatch v).seq = s.seq := rfl
@[simp] theorem State.withLatch_mem (s : State) (v : Latch) : (s.withLatch v).mem = s.mem := rfl
@[simp] theorem State.withLatch_agenda (s : State) (v : Latch) : (s.withLatch v).agenda = s.agenda := rfl
@[simp] theorem State.withLatch_replies (s : State) (v : Latch) : (s.withLatch v).replies = s.replies := rfl

@[simp] theorem State.withSeq_x (s : State) (v : Seq) : (s.withSeq v).x = s.x := rfl
@[simp] theorem State.withSeq_status (s : State) (v : Seq) : (s.withSeq v).status = s.status := rfl
@[simp] theorem State.withSeq_errInfo (s : State) (v : Seq) : (s.withSeq v).errInfo = s.errInfo := rfl
@[simp] theorem State.withSeq_ie (s : State) (v : Seq) : (s.withSeq v).ie = s.ie := rfl
@[simp] theorem State.withSeq_latch (s : State) (v : Seq) : (s.withSeq v).latch = s.latch := rfl
@[simp] theorem State.withSeq_seq (s : State) (v : Seq) : (s.withSeq v).seq = v := rfl
@[simp] theorem State.withSeq_mem (s : State) (v : Seq) : (s.withSeq v).mem = s.mem := rfl
@[simp] theorem State.withSeq_agenda (s : State) (v : Seq) : (s.withSeq v).agenda = s.agenda := rfl
@[simp] theorem State.withSeq_replies (s : State) (v : Seq) : (s.withSeq v).replies = s.replies := rfl

@[simp] theorem State.withMem_x (s : State) (v : Memory) : (s.withMem v).x = s.x := rfl
@[simp] theorem State.withMem_status (s : State) (v : Memory) : (s.withMem v).status = s.status := rfl
@[simp] theorem State.withMem_errInfo (s : State) (v : Memory) : (s.withMem v).errInfo = s.errInfo := rfl
@[simp] theorem State.withMem_ie (s : State) (v : Memory) : (s.withMem v).ie = s.ie := rfl
@[simp] theorem State.withMem_latch (s : State) (v : Memory) : (s.withMem v).latch = s.latch := rfl
@[simp] theorem State.withMem_seq (s : State) (v : Memory) : (s.withMem v).seq = s.seq := rfl
@[simp] theorem State.withMem_mem (s : State) (v : Memory) : (s.withMem v).mem = v := rfl
@[simp] theorem State.withMem_agenda (s : State) (v : Memory) : (s.withMem v).agenda = s.agenda := rfl
@[simp] theorem State.withMem_replies (s : State) (v : Memory) : (s.withMem v).replies = s.replies := rfl

@[simp] theorem State.withAgenda_x (s : State) (v : List Move) : (s.withAgenda v).x = s.x := rfl
@[simp] theorem State.withAgenda_status (s : State) (v : List Move) : (s.withAgenda v).status = s.status := rfl
@[simp] theorem State.withAgenda_errInfo (s : State) (v : List Move) : (s.withAgenda v).errInfo = s.errInfo := rfl
@[simp] theorem State.withAgenda_ie (s : State) (v : List Move) : (s.withAgenda v).ie = s.ie := rfl
@[simp] theorem State.withAgenda_latch (s : State) (v : List Move) : (s.withAgenda v).latch = s.latch := rfl
@[simp] theorem State.withAgenda_seq (s : State) (v : List Move) : (s.withAgenda v).seq = s.seq := rfl
@[simp] theorem State.withAgenda_mem (s : State) (v : List Move) : (s.withAgenda v).mem = s.mem := rfl
@[simp] theorem State.withAgenda_agenda (s : State) (v : List Move) : (s.withAgenda v).agenda = v := rfl
@[simp] theorem State.withAgenda_replies (s : State) (v : List Move) : (s.withAgenda v).replies = s.replies := rfl

@[simp] theorem State.withReplies_x (s : State) (v : List Reply) : (s.withReplies v).x = s.x := rfl
@[simp] theorem State.withReplies_status (s : State) (v : List Reply) : (s.withReplies v).status = s.status := rfl
@[simp] theorem State.withReplies_errInfo (s : State) (v : List Reply) : (s.withReplies v).errInfo = s.errInfo := rfl
@[simp] theorem State.withReplies_ie (s : State) (v : List Reply) : (s.withReplies v).ie = s.ie := rfl
@[simp] theorem State.withReplies_latch (s : State) (v : List Reply) : (s.withReplies v).latch = s.latch := rfl
@[simp] theorem State.withReplies_seq (s : State) (v : List Reply) : (s.withReplies v).seq = s.seq := rfl
@[simp] theorem State.withReplies_mem (s : State) (v : List Reply) : (s.withReplies v).mem = s.mem := rfl
@[simp] theorem State.withReplies_agenda (s : State) (v : List Reply) : (s.withReplies v).agenda = s.agenda := rfl
@[simp] theorem State.withReplies_replies (s : State) (v : List Reply) : (s.withReplies v).replies = v := rfl

/-- A state is its fields. -/
theorem State.eq_of_fields (s t : State) (hx : s.x = t.x) (hst : s.status = t.status) (he : s.errInfo = t.errInfo)
    (hi : s.ie = t.ie) (hl : s.latch = t.latch) (hq : s.seq = t.seq) (hm : s.mem = t.mem) (ha : s.agenda = t.agenda)
    (hr : s.replies = t.replies) : s = t := by
  cases s; cases t; simp_all

end Sys2Proof.Machine
end

