-- ==== Sys2Proof/Laws/Ops.lean ====
section
/-!
SUPPORT. What each shared operation of the MC does to each field, and which shared operation each command is.
-/

namespace Sys2Proof.Machine

open Sys2Proof

/-! ## One lemma for each shared operation -/

theorem raiseError_eq (e : ErrCode) (info : Word) (s : State) :
    raiseError e info s = { s with status := { s.status with err := true, errCode := e.byte }, errInfo := info } := rfl

theorem failBackend_eq (addr : Nat) (s : State) :
    failBackend addr s =
      { s with
        status := { s.status with busy := false, err := true, errCode := 0x10 }
        errInfo := BitVec.ofNat 64 addr
        seq := { s.seq with phase := .idle, units := [] } } := rfl

theorem acknowledge_eq (s : State) :
    acknowledge s =
      { s with status := { s.status with done := false, err := false, ovr := false, errCode := 0 }, errInfo := 0 } :=
  rfl

theorem dropCommand_eq (s : State) : dropCommand s = { s with status := { s.status with ovr := true } } := rfl

theorem clearDone_eq (s : State) : clearDone s = { s with status := { s.status with done := false } } := rfl

theorem acceptCommand_eq (op : Op) (v : Variant) (s : State) :
    acceptCommand op v s =
      { s with
        latch := { op := op, variant := v, a := s.x }
        status := { s.status with busy := true }
        seq := seqAtAccept op s.seq } := rfl

theorem completeCommand_eq (s : State) :
    completeCommand s =
      { s with status := { s.status with busy := false, done := true }, seq := { s.seq with phase := .idle } } := rfl

/-- A CMD write of HASH or MERKLIZE drops, refuses or accepts. -/
theorem issueCommand_cases (op : Op) (v : Variant) (check : Option (ErrCode × Word)) (s : State) :
    (dropped s = true ∧ issueCommand op v check s = dropCommand s) ∨
      (dropped s = false ∧ ∃ e info, check = some (e, info) ∧
        issueCommand op v check s = raiseError e info (clearDone s)) ∨
      (dropped s = false ∧ check = none ∧ issueCommand op v check s = acceptCommand op v (clearDone s)) := by
  unfold issueCommand
  cases hd : dropped s with
  | true => exact .inl ⟨rfl, rfl⟩
  | false =>
    rcases check with - | ⟨e, info⟩
    · exact .inr (.inr ⟨rfl, rfl, rfl⟩)
    · exact .inr (.inl ⟨rfl, e, info, rfl, rfl⟩)

theorem dropped_eq_false {s : State} : dropped s = false ↔ s.status.busy = false ∧ s.status.err = false := by
  simp [dropped]

/-! ## Which shared operation a command is -/

theorem exec_hashOf (v : Variant) (s : State) : exec (hashOf v) s = issueHash v s := by cases v <;> rfl

theorem exec_merklizeOf (v : Variant) (s : State) : exec (merklizeOf v) s = issueMerklize v s := by cases v <;> rfl

theorem exec_clear (s : State) : exec .clear s = issueClear s := rfl

/-- A command is HASH.v, MERKLIZE.v or CLEAR. -/
theorem instr_cases (i : Instr) : (∃ v, i = hashOf v) ∨ (∃ v, i = merklizeOf v) ∨ i = .clear := by
  cases i
  case clear => exact .inr (.inr rfl)
  case hashSha1 => exact .inl ⟨.sha1, rfl⟩
  case hashSha2_224 => exact .inl ⟨.sha2_224, rfl⟩
  case hashSha2_256 => exact .inl ⟨.sha2_256, rfl⟩
  case hashSha2_384 => exact .inl ⟨.sha2_384, rfl⟩
  case hashSha2_512 => exact .inl ⟨.sha2_512, rfl⟩
  case hashSha2_512_224 => exact .inl ⟨.sha2_512_224, rfl⟩
  case hashSha2_512_256 => exact .inl ⟨.sha2_512_256, rfl⟩
  case hashSha3_224 => exact .inl ⟨.sha3_224, rfl⟩
  case hashSha3_256 => exact .inl ⟨.sha3_256, rfl⟩
  case hashSha3_384 => exact .inl ⟨.sha3_384, rfl⟩
  case hashSha3_512 => exact .inl ⟨.sha3_512, rfl⟩
  case hashKeccak_256 => exact .inl ⟨.keccak_256, rfl⟩
  case merklizeSha1 => exact .inr (.inl ⟨.sha1, rfl⟩)
  case merklizeSha2_224 => exact .inr (.inl ⟨.sha2_224, rfl⟩)
  case merklizeSha2_256 => exact .inr (.inl ⟨.sha2_256, rfl⟩)
  case merklizeSha2_384 => exact .inr (.inl ⟨.sha2_384, rfl⟩)
  case merklizeSha2_512 => exact .inr (.inl ⟨.sha2_512, rfl⟩)
  case merklizeSha2_512_224 => exact .inr (.inl ⟨.sha2_512_224, rfl⟩)
  case merklizeSha2_512_256 => exact .inr (.inl ⟨.sha2_512_256, rfl⟩)
  case merklizeSha3_224 => exact .inr (.inl ⟨.sha3_224, rfl⟩)
  case merklizeSha3_256 => exact .inr (.inl ⟨.sha3_256, rfl⟩)
  case merklizeSha3_384 => exact .inr (.inl ⟨.sha3_384, rfl⟩)
  case merklizeSha3_512 => exact .inr (.inl ⟨.sha3_512, rfl⟩)
  case merklizeKeccak_256 => exact .inr (.inl ⟨.keccak_256, rfl⟩)

/-- What the CMD write of a command can do, whichever command it is: it always answers a next state, and that state
is a drop, an acknowledge, a refusal of the command by its first failing check, or an accept. -/
theorem exec_cases (i : Instr) (s : State) :
    (s.status.busy = true ∨ (s.status.err = true ∧ i ≠ .clear)) ∧ exec i s = .next (dropCommand s) ∨
      (s.status.busy = false ∧ i = .clear ∧ exec i s = .next (acknowledge s)) ∨
      (dropped s = false ∧ ∃ e info, exec i s = .next (raiseError e info (clearDone s)) ∧
        ((∃ v, i = hashOf v ∧ checkHash v s.x = some (e, info)) ∨
          ∃ v, i = merklizeOf v ∧ checkMerklize v s.x = some (e, info))) ∨
      (dropped s = false ∧ ∃ op v, exec i s = .next (acceptCommand op v (clearDone s)) ∧
        ((op = .hash ∧ i = hashOf v ∧ checkHash v s.x = none) ∨
          (op = .merklize ∧ i = merklizeOf v ∧ checkMerklize v s.x = none))) := by
  rcases instr_cases i with ⟨v, rfl⟩ | ⟨v, rfl⟩ | rfl
  · have hc : hashOf v ≠ .clear := by cases v <;> simp [hashOf]
    rw [exec_hashOf, issueHash]
    rcases issueCommand_cases .hash v (checkHash v s.x) s with ⟨hd, h⟩ | ⟨hd, e, info, hk, h⟩ | ⟨hd, hk, h⟩
    · refine .inl ⟨?_, by rw [h]⟩
      cases hb : s.status.busy <;> simp_all [dropped]
    · exact .inr (.inr (.inl ⟨hd, e, info, by rw [h], .inl ⟨v, rfl, hk⟩⟩))
    · exact .inr (.inr (.inr ⟨hd, .hash, v, by rw [h], .inl ⟨rfl, rfl, hk⟩⟩))
  · have hc : merklizeOf v ≠ .clear := by cases v <;> simp [merklizeOf]
    rw [exec_merklizeOf, issueMerklize]
    rcases issueCommand_cases .merklize v (checkMerklize v s.x) s with ⟨hd, h⟩ | ⟨hd, e, info, hk, h⟩ | ⟨hd, hk, h⟩
    · refine .inl ⟨?_, by rw [h]⟩
      cases hb : s.status.busy <;> simp_all [dropped]
    · exact .inr (.inr (.inl ⟨hd, e, info, by rw [h], .inr ⟨v, rfl, hk⟩⟩))
    · exact .inr (.inr (.inr ⟨hd, .merklize, v, by rw [h], .inr ⟨rfl, rfl, hk⟩⟩))
  · rw [exec_clear, issueClear]
    cases hb : s.status.busy with
    | true => exact .inl ⟨.inl rfl, rfl⟩
    | false => exact .inr (.inl ⟨rfl, rfl, rfl⟩)

end Sys2Proof.Machine
end

