-- ==== Sys2Proof/Laws/Units.lean ====
section
/-!
SUPPORT. What each step of a running command can do: unit steps, MC steps, reset.
-/

namespace Sys2Proof.Machine

open Sys2Proof

/-! ## Named updates -/

theorem setUnit_eq (i : Nat) (p : UnitPhase) (s : State) :
    setUnit i p s = { s with seq := { s.seq with units := sparsePut .waiting s.seq.units i p } } := rfl

theorem openNextLevel_eq (s : State) : openNextLevel s = { s with seq := { s.seq with k := s.seq.k + 1, units := [] } } :=
  rfl

@[simp] theorem unitCount_setUnit (i : Nat) (p : UnitPhase) (s : State) : unitCount (setUnit i p s) = unitCount s := rfl

@[simp] theorem unitReads_setUnit (i j : Nat) (p : UnitPhase) (s : State) :
    unitReads (setUnit i p s) j = unitReads s j := rfl

@[simp] theorem unitOut_setUnit (i j : Nat) (p : UnitPhase) (s : State) : unitOut (setUnit i p s) j = unitOut s j := rfl

@[simp] theorem unitCount_withMem (s : State) (m : Memory) : unitCount (s.withMem m) = unitCount s := rfl

@[simp] theorem unitReads_withMem (s : State) (m : Memory) (i : Nat) : unitReads (s.withMem m) i = unitReads s i := rfl

@[simp] theorem unitOut_withMem (s : State) (m : Memory) (i : Nat) : unitOut (s.withMem m) i = unitOut s i := rfl

@[simp] theorem unitPhase_withMem (s : State) (m : Memory) (i : Nat) : unitPhase (s.withMem m) i = unitPhase s i := rfl

/-- The phase of every unit after one of them has moved. -/
theorem unitPhase_setUnit {s : State} (hs : sparseWf UnitPhase.waiting s.seq.units = true) (i j : Nat)
    (p : UnitPhase) : unitPhase (setUnit i p s) j = if j = i then p else unitPhase s j := sparseGet_put hs i j p

/-- A listed unit's phase is one of the list's entries; an unlisted unit waits. -/
theorem unitPhase_mem (s : State) (i : Nat) : unitPhase s i = .waiting ∨ (i, unitPhase s i) ∈ s.seq.units := by
  unfold unitPhase
  induction s.seq.units with
  | nil => exact .inl rfl
  | cons p r ih =>
    simp only [sparseGet]
    split
    · subst_vars; exact .inr List.mem_cons_self
    · exact ih.imp id (List.mem_cons_of_mem _)

/-! ## Unit steps -/

/-- A load step loads, ends the command, or asks for a byte that does not exist. -/
theorem loadStep_cases (i : Nat) (port : PortAnswer) (s : State) :
    (∃ m, readAll s.mem port 0 (unitReads s i) = .performed m ∧
      loadStep i port s = .next (setUnit i (.loaded (runEngine Config.kpPath Config.mdSched s.latch.variant m)
        (compress s.latch.variant m)) s)) ∨
      (∃ addr, readAll s.mem port 0 (unitReads s i) = .failed addr ∧ loadStep i port s = .next (failBackend addr s)) ∨
      ∃ addr, readAll s.mem port 0 (unitReads s i) = .outside addr ∧
        loadStep i port s = .fault (.noSuchAddress addr) := by
  unfold loadStep
  cases h : readAll s.mem port 0 (unitReads s i) with
  | performed m => exact .inl ⟨m, rfl, rfl⟩
  | failed a => exact .inr (.inl ⟨a, rfl, rfl⟩)
  | outside a => exact .inr (.inr ⟨a, rfl, rfl⟩)

/-- A store step stores, ends the command after a partial write, or asks for a byte that does not exist. -/
theorem storeStep_cases (i : Nat) (d : Bytes) (port : PortAnswer) (s : State) :
    (unitOut s i + d.length ≤ 2 ^ 64 ∧ portFailsAt port 0 = false ∧
      storeStep i d port s = .next (setUnit i .finished (s.withMem (writeBytes s.mem (unitOut s i) d)))) ∨
      (unitOut s i + d.length ≤ 2 ^ 64 ∧ portFailsAt port 0 = true ∧
        storeStep i d port s =
          .next (failBackend (unitOut s i) (s.withMem (writeSome s.mem (unitOut s i) d (portTorn port))))) ∨
      (2 ^ 64 < unitOut s i + d.length ∧ storeStep i d port s = .fault (.noSuchAddress (unitOut s i))) := by
  unfold storeStep
  by_cases h : 2 ^ 64 < unitOut s i + d.length
  · rw [if_pos h]; exact .inr (.inr ⟨h, rfl⟩)
  · rw [if_neg h]
    cases hp : portFailsAt port 0 with
    | true => exact .inr (.inl ⟨by omega, rfl, rfl⟩)
    | false => exact .inl ⟨by omega, rfl, rfl⟩

/-- A unit's step: none, its load step, or its store step. -/
theorem unitStep_cases (i : Nat) (port : PortAnswer) (s : State) :
    ((unitCount s ≤ i ∨ unitPhase s i = .finished) ∧ unitStep i port s = .next s) ∨
      (i < unitCount s ∧ unitPhase s i = .waiting ∧ unitStep i port s = loadStep i port s) ∨
      ∃ regs d, i < unitCount s ∧ unitPhase s i = .loaded regs d ∧ unitStep i port s = storeStep i d port s := by
  unfold unitStep
  by_cases h : i < unitCount s
  · rw [if_pos h]
    cases hp : unitPhase s i with
    | waiting => exact .inr (.inl ⟨h, rfl, rfl⟩)
    | loaded regs d => exact .inr (.inr ⟨regs, d, h, rfl, rfl⟩)
    | finished => exact .inl ⟨.inr rfl, rfl⟩
  · rw [if_neg h]; exact .inl ⟨.inl (by omega), rfl⟩

/-! ## MC steps -/

/-- The MC's step: none, completion of a HASH, completion of a MERKLIZE, or the next level. -/
theorem mcStep_cases (s : State) :
    ((s.seq.phase = .idle ∨ barrier s = false) ∧ mcStep s = .next s) ∨
      (s.seq.phase = .runHash ∧ barrier s = true ∧ mcStep s = .next (completeCommand s)) ∨
      (s.seq.phase = .runLevel ∧ barrier s = true ∧ levelSize s.latch.a.leafCount.toNat (s.seq.k + 1) = 1 ∧
        mcStep s = .next (completeCommand s)) ∨
      (s.seq.phase = .runLevel ∧ barrier s = true ∧ levelSize s.latch.a.leafCount.toNat (s.seq.k + 1) ≠ 1 ∧
        mcStep s = .next (openNextLevel s)) := by
  unfold mcStep
  cases hp : s.seq.phase with
  | idle => exact .inl ⟨.inl rfl, rfl⟩
  | runHash =>
    cases hb : barrier s with
    | false => exact .inl ⟨.inr rfl, rfl⟩
    | true => exact .inr (.inl ⟨rfl, rfl, rfl⟩)
  | runLevel =>
    cases hb : barrier s with
    | false => exact .inl ⟨.inr rfl, rfl⟩
    | true =>
      by_cases h : levelSize s.latch.a.leafCount.toNat (s.seq.k + 1) = 1
      · exact .inr (.inr (.inl ⟨rfl, rfl, h, by simp [h]⟩))
      · exact .inr (.inr (.inr ⟨rfl, rfl, h, by simp [h]⟩))

theorem firstUnfinished_ge (n : Nat) (l : List (Nat × UnitPhase)) : n ≤ firstUnfinished n l := by
  induction l generalizing n with
  | nil => exact Nat.le_refl n
  | cons p r ih =>
    simp only [firstUnfinished]
    split
    · have := ih (n + 1); omega
    · exact Nat.le_refl n

/-- Over a list in canonical form `firstUnfinished` is the first unit from `n` on that is not FINISHED. -/
theorem firstUnfinished_spec {n : Nat} {l : List (Nat × UnitPhase)} (hl : sparseWfFrom .waiting n l = true) :
    (∀ i, n ≤ i → i < firstUnfinished n l → sparseGet .waiting l i = .finished) ∧
      sparseGet .waiting l (firstUnfinished n l) ≠ .finished := by
  induction l generalizing n with
  | nil => exact ⟨fun i h1 h2 => absurd h2 (by simp [firstUnfinished]; omega), by simp [sparseGet]⟩
  | cons p r ih =>
    obtain ⟨k, q⟩ := p
    have hl' := hl
    simp only [sparseWfFrom, Bool.and_eq_true, decide_eq_true_eq] at hl'
    simp only [firstUnfinished]
    split
    case isTrue h =>
      obtain ⟨rfl, hq⟩ := h
      have hq' : q = .finished := by cases q <;> simp_all [isFinished]
      obtain ⟨h1, h2⟩ := ih hl'.2
      refine ⟨fun i hi1 hi2 => ?_, ?_⟩
      · by_cases hik : i = k
        · simp [sparseGet, hik, hq']
        · rw [sparseGet, if_neg hik]; exact h1 i (by omega) hi2
      · have := firstUnfinished_ge (k + 1) r
        rw [sparseGet, if_neg (by omega)]; exact h2
    case isFalse h =>
      refine ⟨fun i h1 h2 => by omega, ?_⟩
      by_cases hk : n = k
      · subst hk
        rw [sparseGet, if_pos rfl]
        rintro rfl
        exact h ⟨rfl, rfl⟩
      · rw [sparseGet, if_neg hk, sparseGet_below hl'.2 (by omega)]; simp

/-- The barrier is open exactly when every unit of the open level is FINISHED (43_merger R225). -/
theorem barrier_iff {s : State} (hs : sparseWf UnitPhase.waiting s.seq.units = true) :
    barrier s = true ↔ ∀ i, i < unitCount s → unitPhase s i = .finished := by
  obtain ⟨h1, h2⟩ := firstUnfinished_spec hs
  simp only [barrier, decide_eq_true_eq]
  constructor
  · exact fun h i hi => h1 i (Nat.zero_le i) (by omega)
  · intro h
    by_contra hc
    exact h2 (h _ (by omega))

/-! ## Reset -/

/-- Reset gives every register its reset value; memory changes by writes in progress alone (70_reset R310 to R312). -/
theorem resetStep_eq (torn : List (Nat × List Bool)) (s : State) :
    resetStep torn s =
      { State.reset with mem := tearStores s torn s.mem, agenda := s.agenda, replies := s.replies } := rfl

@[simp] theorem tearStores_nil (s : State) (m : Memory) : tearStores s [] m = m := rfl

/-- What a reset with writes in progress can do to memory: nothing to each of them in turn, or a subset of the bytes
of a LOADED unit's write. -/
theorem tearStores_cons (s : State) (i : Nat) (t : List Bool) (r : List (Nat × List Bool)) (m : Memory) :
    tearStores s ((i, t) :: r) m = tearStores s r m ∨
      ∃ regs d, i < unitCount s ∧ unitPhase s i = .loaded regs d ∧ unitOut s i + d.length ≤ 2 ^ 64 ∧
        tearStores s ((i, t) :: r) m = tearStores s r (writeSome m (unitOut s i) d t) := by
  by_cases hi : i < unitCount s
  · cases hp : unitPhase s i with
    | waiting => left; simp [tearStores, hp]
    | finished => left; simp [tearStores, hi, hp]
    | loaded regs d =>
      by_cases h : 2 ^ 64 < unitOut s i + d.length
      · left; simp only [tearStores, if_pos hi, hp]; rw [if_pos h]
      · right; exact ⟨regs, d, hi, rfl, by omega, by simp only [tearStores, if_pos hi, hp]; rw [if_neg h]⟩
  · left; simp [tearStores, hi]

end Sys2Proof.Machine
end

