-- ==== Sys2Proof/Laws/Invariant.lean ====
section
/-!
SUPPORT. What the machine's invariant gives: the flags and phases that go together, the arguments of the running
command, and that its units' accesses stay inside the address space.
-/

namespace Sys2Proof.Machine

open Sys2Proof

theorem unitCount_pos_phase {s : State} {i : Nat} (hi : i < unitCount s) : s.seq.phase ≠ .idle := by
  intro hp; simp [unitCount, hp] at hi

theorem unitCount_idle {s : State} (h : s.seq.phase = .idle) : unitCount s = 0 := by simp [unitCount, h]

theorem phase_running {s : State} (h : s.seq.phase ≠ .idle) : s.seq.phase = .runHash ∨ s.seq.phase = .runLevel := by
  cases hp : s.seq.phase <;> simp_all

/-- The agenda plays no part in the invariant. -/
theorem Inv.agenda_free {s : State} (h : Inv s) (r : List Move) : Inv (s.withAgenda r) :=
  ⟨h.memWf, h.memBounded, h.idle, h.flags, h.errors, ⟨h.seq.hash, h.seq.level, h.seq.table, h.seq.units⟩⟩

theorem Inv.busy_of_phase {s : State} (h : Inv s) (hp : s.seq.phase ≠ .idle) : s.status.busy = true := by
  cases hb : s.status.busy
  · exact absurd (h.idle.mpr hb) hp
  · rfl

theorem Inv.phase_of_busy {s : State} (h : Inv s) (hb : s.status.busy = true) : s.seq.phase ≠ .idle := fun hp => by
  have := h.idle.mp hp; simp [hb] at this

theorem Inv.err_of_busy {s : State} (h : Inv s) (hb : s.status.busy = true) : s.status.err = false := by
  cases he : s.status.err
  · rfl
  · exact absurd ⟨hb, he⟩ h.flags.2.1

theorem Inv.done_of_busy {s : State} (h : Inv s) (hb : s.status.busy = true) : s.status.done = false := by
  cases he : s.status.done
  · rfl
  · exact absurd ⟨hb, he⟩ h.flags.1

/-- The latched arguments of a running HASH. -/
theorem Inv.hash_args {s : State} (h : Inv s) (hp : s.seq.phase = .runHash) :
    s.latch.a.srcLen.toNat = 2 * dlen s.latch.variant ∧ s.latch.a.dstLen.toNat = dlen s.latch.variant ∧
      s.latch.a.srcPtr.toNat + 2 * dlen s.latch.variant ≤ 2 ^ 64 ∧
      s.latch.a.dstPtr.toNat + dlen s.latch.variant ≤ 2 ^ 64 := by
  obtain ⟨h1, h2, h3, h4⟩ := checkHash_eq_none.mp (h.seq.hash hp).2
  rw [h1] at h3; rw [h2] at h4; exact ⟨h1, h2, h3, h4⟩

/-- The latched arguments of a running MERKLIZE are a legal tree, and the level being read exists. -/
theorem Inv.legal_tree {s : State} (h : Inv s) (hp : s.seq.phase = .runLevel) :
    ∃ L, LegalTree s.latch.variant s.latch.a L ∧ s.seq.k < L := by
  obtain ⟨-, hc, hk⟩ := h.seq.level hp
  obtain ⟨L, hL⟩ := checkMerklize_eq_none.mp hc
  rw [hL.leaves, levels_two_pow] at hk
  exact ⟨L, hL, hk⟩

/-- The units of the open level: as many as the digests of the next level, half as many as those of this one. -/
theorem unitCount_runLevel {s : State} {L : Nat} (hp : s.seq.phase = .runLevel)
    (hL : s.latch.a.leafCount.toNat = 2 ^ L) (hk : s.seq.k < L) :
    unitCount s = levelSize (2 ^ L) (s.seq.k + 1) ∧ 2 * unitCount s = levelSize (2 ^ L) s.seq.k := by
  have : unitCount s = pairCount (2 ^ L) s.seq.k := by simp [unitCount, hp, hL]
  rw [this]; exact ⟨pairCount_eq_levelSize hk, (levelSize_eq_double hk).symm⟩

/-- A LOADED unit holds dlen bytes. -/
theorem Inv.loaded_length {s : State} (h : Inv s) {i : Nat} {regs : EngineRegs} {d : Bytes} (hi : i < unitCount s)
    (hp : unitPhase s i = .loaded regs d) : d.length = dlen s.latch.variant := by
  have hm := unitPhase_mem s i
  rw [hp] at hm
  simp only [reduceCtorEq, false_or] at hm
  exact (h.seq.units (unitCount_pos_phase hi) _ hm).2

/-- Every byte a unit reads exists. -/
theorem Inv.reads_exist {s : State} (h : Inv s) {i : Nat} (hi : i < unitCount s) :
    ∀ p ∈ unitReads s i, p.1 + p.2 ≤ 2 ^ 64 := by
  rcases phase_running (unitCount_pos_phase hi) with hp | hp
  · simpa [unitReads, hp] using (h.hash_args hp).2.2.1
  · obtain ⟨L, hL, hk⟩ := h.legal_tree hp
    have hu := unitCount_runLevel hp hL.leaves hk
    simp only [unitReads, hp, List.mem_cons, List.not_mem_nil, or_false]
    rintro p (rfl | rfl) <;> exact hL.digest_top (by omega) (by omega)

/-- Every byte a unit writes exists. -/
theorem Inv.out_exists {s : State} (h : Inv s) {i : Nat} (hi : i < unitCount s) :
    unitOut s i + dlen s.latch.variant ≤ 2 ^ 64 := by
  rcases phase_running (unitCount_pos_phase hi) with hp | hp
  · simpa [unitOut, hp] using (h.hash_args hp).2.2.2
  · obtain ⟨L, hL, hk⟩ := h.legal_tree hp
    have hu := unitCount_runLevel hp hL.leaves hk
    simp only [unitOut, hp]
    exact hL.digest_top (by omega) (by omega)

/-- The barrier of a running command: every unit of the open level is FINISHED. -/
theorem Inv.barrier_iff {s : State} (h : Inv s) (hp : s.seq.phase ≠ .idle) :
    barrier s = true ↔ ∀ i, i < unitCount s → unitPhase s i = .finished := Machine.barrier_iff (h.seq.table hp)

end Sys2Proof.Machine
end

