-- ==== Sys2Proof/Laws/PerInstr.lean ====
section
/-!
SUPPORT. The family RoundTrip: the decoder reads from each command's word that command, one lemma per constructor.
-/

namespace Sys2Proof.Laws.RoundTrip

open Sys2Proof

/-- The word of the command decodes to the command (30_encoding R94, R100). -/
def Statement (i : Instr) : Prop := decode (encode i) = .cmd i

theorem hashSha1 : Statement .hashSha1 := by unfold Statement; decide
theorem merklizeSha1 : Statement .merklizeSha1 := by unfold Statement; decide
theorem hashSha2_224 : Statement .hashSha2_224 := by unfold Statement; decide
theorem merklizeSha2_224 : Statement .merklizeSha2_224 := by unfold Statement; decide
theorem hashSha2_256 : Statement .hashSha2_256 := by unfold Statement; decide
theorem merklizeSha2_256 : Statement .merklizeSha2_256 := by unfold Statement; decide
theorem hashSha2_384 : Statement .hashSha2_384 := by unfold Statement; decide
theorem merklizeSha2_384 : Statement .merklizeSha2_384 := by unfold Statement; decide
theorem hashSha2_512 : Statement .hashSha2_512 := by unfold Statement; decide
theorem merklizeSha2_512 : Statement .merklizeSha2_512 := by unfold Statement; decide
theorem hashSha2_512_224 : Statement .hashSha2_512_224 := by unfold Statement; decide
theorem merklizeSha2_512_224 : Statement .merklizeSha2_512_224 := by unfold Statement; decide
theorem hashSha2_512_256 : Statement .hashSha2_512_256 := by unfold Statement; decide
theorem merklizeSha2_512_256 : Statement .merklizeSha2_512_256 := by unfold Statement; decide
theorem hashSha3_224 : Statement .hashSha3_224 := by unfold Statement; decide
theorem merklizeSha3_224 : Statement .merklizeSha3_224 := by unfold Statement; decide
theorem hashSha3_256 : Statement .hashSha3_256 := by unfold Statement; decide
theorem merklizeSha3_256 : Statement .merklizeSha3_256 := by unfold Statement; decide
theorem hashSha3_384 : Statement .hashSha3_384 := by unfold Statement; decide
theorem merklizeSha3_384 : Statement .merklizeSha3_384 := by unfold Statement; decide
theorem hashSha3_512 : Statement .hashSha3_512 := by unfold Statement; decide
theorem merklizeSha3_512 : Statement .merklizeSha3_512 := by unfold Statement; decide
theorem hashKeccak_256 : Statement .hashKeccak_256 := by unfold Statement; decide
theorem merklizeKeccak_256 : Statement .merklizeKeccak_256 := by unfold Statement; decide
theorem clear : Statement .clear := by unfold Statement; decide

end Sys2Proof.Laws.RoundTrip
end

