-- ==== Sys2Proof/Laws/Step.lean ====
section
/-!
SUPPORT. Once everything a step can do: the effects of one move, and that a step that answers a next state has one of
them.
-/

namespace Sys2Proof.Machine

open Sys2Proof

/-! ## The register port -/

theorem regRead_eq {offset : Nat} (h : registerOffsetWf offset = true) (s : State) :
    regRead offset s = .next (s.withReplies (.reg offset (regValue s offset) :: s.replies)) := by
  rw [regRead, if_pos h]

theorem regWrite_cmd (c : Word) (s : State) : regWrite 0x08 c s = cmdWrite c s := rfl

/-- What the CMD write of any word can do: what a command does, or the drop or the error of a word that is none. -/
theorem cmdWrite_cases (c : Word) (s : State) :
    (∃ i, decode c = .cmd i ∧ cmdWrite c s = exec i s) ∨
      (dropped s = true ∧ cmdWrite c s = .next (dropCommand s)) ∨
      (dropped s = false ∧ decode c = .illegal ∧ cmdWrite c s = .next (raiseError .illegalCmd c (clearDone s))) ∨
      (dropped s = false ∧ (∃ v, decode c = .badVariant v) ∧
        cmdWrite c s = .next (raiseError .badVariant c (clearDone s))) := by
  unfold cmdWrite issueBadWord
  cases hd : decode c with
  | cmd i => exact .inl ⟨i, rfl, rfl⟩
  | illegal => cases h : dropped s <;> simp
  | badVariant v => cases h : dropped s <;> simp

/-! ## The effects of a step -/

/-- The states one move can lead to from `s`. -/
inductive Effect (s : State) : State → Prop where
  /-- Nothing: an ignored write, a move that is not enabled. -/
  | same : Effect s s
  /-- A register read or a host read of memory. -/
  | reply (r : List Reply) : Effect s (s.withReplies r)
  /-- A host write to an argument register. -/
  | setArgs (x : Args) : Effect s (s.withX x)
  /-- A host write to CTRL. -/
  | setIe (b : Bool) : Effect s (s.withIe b)
  /-- A host write to memory. -/
  | hostWrite (addr : Nat) (bytes : Bytes) (top : addr + bytes.length ≤ 2 ^ 64)
      (free : s.status.busy = true → meetsRegions s addr bytes.length = false) :
      Effect s (s.withMem (writeBytes s.mem addr bytes))
  /-- A dropped CMD write. -/
  | drop (h : dropped s = true) : Effect s (dropCommand s)
  /-- CLEAR. -/
  | acknowledge (h : s.status.busy = false) : Effect s (acknowledge s)
  /-- A command refused at the CMD write. -/
  | refuse (e : ErrCode) (info : Word) (h : dropped s = false) : Effect s (raiseError e info (clearDone s))
  /-- A HASH accepted. -/
  | acceptHash (v : Variant) (h : dropped s = false) (ok : checkHash v s.x = none) :
      Effect s (acceptCommand .hash v (clearDone s))
  /-- A MERKLIZE accepted. -/
  | acceptMerklize (v : Variant) (h : dropped s = false) (ok : checkMerklize v s.x = none) :
      Effect s (acceptCommand .merklize v (clearDone s))
  /-- A unit's load step. -/
  | load (i : Nat) (port : PortAnswer) (m : Bytes) (hi : i < unitCount s) (hp : unitPhase s i = .waiting)
      (hm : readAll s.mem port 0 (unitReads s i) = .performed m) :
      Effect s (setUnit i (.loaded (runEngine Config.kpPath Config.mdSched s.latch.variant m)
        (compress s.latch.variant m)) s)
  /-- A load step whose read fails. -/
  | loadFails (i : Nat) (addr : Nat) (hi : i < unitCount s) (hp : unitPhase s i = .waiting) :
      Effect s (failBackend addr s)
  /-- A unit's store step. -/
  | store (i : Nat) (regs : EngineRegs) (d : Bytes) (hi : i < unitCount s) (hp : unitPhase s i = .loaded regs d)
      (top : unitOut s i + d.length ≤ 2 ^ 64) :
      Effect s (setUnit i .finished (s.withMem (writeBytes s.mem (unitOut s i) d)))
  /-- A store step whose write fails. -/
  | storeFails (i : Nat) (regs : EngineRegs) (d : Bytes) (t : List Bool) (hi : i < unitCount s)
      (hp : unitPhase s i = .loaded regs d) (top : unitOut s i + d.length ≤ 2 ^ 64) :
      Effect s (failBackend (unitOut s i) (s.withMem (writeSome s.mem (unitOut s i) d t)))
  /-- Completion of a HASH. -/
  | completeHash (hp : s.seq.phase = .runHash) (hb : barrier s = true) : Effect s (completeCommand s)
  /-- Completion of a MERKLIZE. -/
  | completeMerklize (hp : s.seq.phase = .runLevel) (hb : barrier s = true)
      (root : levelSize s.latch.a.leafCount.toNat (s.seq.k + 1) = 1) : Effect s (completeCommand s)
  /-- The next level opens. -/
  | nextLevel (hp : s.seq.phase = .runLevel) (hb : barrier s = true)
      (more : levelSize s.latch.a.leafCount.toNat (s.seq.k + 1) ≠ 1) : Effect s (openNextLevel s)
  /-- Reset. -/
  | reset (torn : List (Nat × List Bool)) : Effect s (resetStep torn s)

theorem exec_effect {i : Instr} {s t : State} (h : exec i s = .next t) : Effect s t := by
  rcases exec_cases i s with ⟨hd, he⟩ | ⟨hb, -, he⟩ | ⟨hd, e, info, he, -⟩ | ⟨hd, op, v, he, hk⟩ <;>
    rw [he] at h <;> injection h with h <;> subst h
  · refine .drop ?_
    rcases hd with hd | hd <;> simp [dropped, hd]
  · exact .acknowledge hb
  · exact .refuse e info hd
  · rcases hk with ⟨rfl, -, hk⟩ | ⟨rfl, -, hk⟩
    · exact .acceptHash v hd hk
    · exact .acceptMerklize v hd hk

theorem unitStep_effect {i : Nat} {port : PortAnswer} {s t : State} (h : unitStep i port s = .next t) :
    Effect s t := by
  rcases unitStep_cases i port s with ⟨-, he⟩ | ⟨hi, hp, he⟩ | ⟨regs, d, hi, hp, he⟩
  · rw [he] at h; injection h with h; subst h; exact .same
  · rw [he] at h
    rcases loadStep_cases i port s with ⟨m, hm, he⟩ | ⟨a, -, he⟩ | ⟨a, -, he⟩ <;> rw [he] at h <;>
      first | contradiction | (injection h with h; subst h)
    · exact .load i port m hi hp hm
    · exact .loadFails i a hi hp
  · rw [he] at h
    rcases storeStep_cases i d port s with ⟨ht, -, he⟩ | ⟨ht, -, he⟩ | ⟨-, he⟩ <;> rw [he] at h <;>
      first | contradiction | (injection h with h; subst h)
    · exact .store i regs d hi hp ht
    · exact .storeFails i regs d _ hi hp ht

theorem mcStep_effect {s t : State} (h : mcStep s = .next t) : Effect s t := by
  rcases mcStep_cases s with ⟨-, he⟩ | ⟨hp, hb, he⟩ | ⟨hp, hb, hr, he⟩ | ⟨hp, hb, hr, he⟩ <;> rw [he] at h <;>
    injection h with h <;> subst h
  · exact .same
  · exact .completeHash hp hb
  · exact .completeMerklize hp hb hr
  · exact .nextLevel hp hb hr

theorem idleMove_effect {s t : State} (h : idleMove s = .next t) : Effect s t := by
  unfold idleMove at h
  split at h
  · injection h with h; subst h; exact .same
  · split at h
    · exact mcStep_effect h
    · exact unitStep_effect h
  · split at h
    · exact mcStep_effect h
    · exact unitStep_effect h

/-- A move that answers a next state has one of the effects. -/
theorem perform_effect {m : Move} {s t : State} (h : perform m s = .next t) : Effect s t := by
  cases m with
  | regRead offset =>
    simp only [perform, regRead] at h
    split at h
    · injection h with h; subst h; exact .reply _
    · contradiction
  | regWrite offset v =>
    simp only [perform, regWrite] at h
    split at h
    · split at h
      · rcases cmdWrite_cases v s with ⟨i, -, he⟩ | ⟨hd, he⟩ | ⟨hd, -, he⟩ | ⟨hd, -, he⟩ <;> rw [he] at h
        · exact exec_effect h
        · injection h with h; subst h; exact .drop hd
        · injection h with h; subst h; exact .refuse _ _ hd
        · injection h with h; subst h; exact .refuse _ _ hd
      · split at h
        · injection h with h; subst h; exact .setIe _
        · split at h
          · injection h with h; subst h; exact .setArgs _
          · injection h with h; subst h; exact .same
    · contradiction
  | memRead addr n =>
    simp only [perform, hostRead] at h
    split at h
    · contradiction
    · split at h
      · contradiction
      · injection h with h; subst h; exact .reply _
  | memWrite addr bytes =>
    simp only [perform, hostWrite] at h
    split at h
    · contradiction
    · split at h
      · contradiction
      · split at h
        · contradiction
        · rename_i h1 h2
          injection h with h; subst h
          refine .hostWrite addr bytes (by omega) fun hb => ?_
          simpa [hb] using h2
  | unit i port => exact unitStep_effect h
  | mc => exact mcStep_effect h
  | reset torn => simp only [perform] at h; injection h with h; subst h; exact .reset torn

/-! ## The step -/

theorem step_nil {s : State} (h : s.agenda = []) : step s = idleMove s := by
  unfold step stepAgenda; rw [h]

theorem step_cons {s : State} {m : Move} {r : List Move} (h : s.agenda = m :: r) :
    step s = perform m (s.withAgenda r) := by
  unfold step stepAgenda; rw [h]

/-- A step that answers a next state has one of the effects on the state without the move taken. -/
theorem step_effect {s t : State} (h : step s = .next t) : ∃ r, Effect (s.withAgenda r) t := by
  cases ha : s.agenda with
  | nil =>
    rw [step_nil ha] at h
    refine ⟨[], ?_⟩
    have hs : s.withAgenda [] = s := by cases s; simp_all [State.withAgenda]
    rw [hs]; exact idleMove_effect h
  | cons m r => rw [step_cons ha] at h; exact ⟨r, perform_effect h⟩

/-- A run goes on from the next state. -/
theorem run_step {n : Nat} {s t : State} (h : step s = .next t) :
    Host.Core.run Sys2Proof.core (n + 1) s = Host.Core.run Sys2Proof.core n t := by
  have h' : Sys2Proof.core.step s = .next t := h
  refine (Host.Core.run.eq_2 Sys2Proof.core s n).trans ?_
  rw [h']

end Sys2Proof.Machine
end

