-- ==== Sys2Proof/Tests/Slice0.lean ====
section
/-!
SUPPORT. Tests: what the checks refuse, the decoding of words written out from 30_encoding R100, known answers of
95_test_vectors, single steps, and for every statement with hypotheses a concrete case that meets them.
-/

namespace Sys2Proof.Tests

set_option Elab.async false

open Sys2Proof Sys2Proof.Machine

/-! ## WellFormed: an ill-formed term for each check -/

theorem test_wf_rsvd : RawCmd.wf { op := 1, variant := 0, rsvd := 1 } = false := by decide
theorem test_wf_op_low : RawCmd.wf { op := 0, variant := 0, rsvd := 0 } = false := by decide
theorem test_wf_op_high : RawCmd.wf { op := 4, variant := 0, rsvd := 0 } = false := by decide
theorem test_wf_hash_variant : RawCmd.wf { op := 1, variant := 0xC, rsvd := 0 } = false := by decide
theorem test_wf_merklize_variant : RawCmd.wf { op := 2, variant := 0xF, rsvd := 0 } = false := by decide
theorem test_wf_clear_variant : RawCmd.wf { op := 3, variant := 1, rsvd := 0 } = false := by decide
theorem test_wf_commands :
    ∀ n : BitVec 4, n.toNat ≤ 0xB → RawCmd.wf { op := 1, variant := n, rsvd := 0 } = true ∧
      RawCmd.wf { op := 2, variant := n, rsvd := 0 } = true := by decide
theorem test_wf_offset_misaligned : Move.wf (.regRead 0x0C) = false := by decide
theorem test_wf_offset_outside : Move.wf (.regWrite 0x80 0) = false := by decide
theorem test_wf_offset_last : Move.wf (.regRead 0x78) = true := by decide
theorem test_wf_empty_read : Move.wf (.memRead 0 0) = false := by decide
theorem test_wf_empty_write : Move.wf (.memWrite 0 []) = false := by decide
theorem test_wf_read_past_top : Move.wf (.memRead (2 ^ 64 - 1) 2) = false := by decide
theorem test_wf_write_to_top : Move.wf (.memWrite (2 ^ 64 - 1) [0]) = true := by decide

/-! ## Decoding: the words of 30_encoding R100, written out -/

theorem test_decode_hash :
    decode 0x0000000000000001 = .cmd .hashSha1 ∧ decode 0x0000000000000011 = .cmd .hashSha2_224 ∧
    decode 0x0000000000000021 = .cmd .hashSha2_256 ∧ decode 0x0000000000000031 = .cmd .hashSha2_384 ∧
    decode 0x0000000000000041 = .cmd .hashSha2_512 ∧ decode 0x0000000000000051 = .cmd .hashSha2_512_224 ∧
    decode 0x0000000000000061 = .cmd .hashSha2_512_256 ∧ decode 0x0000000000000071 = .cmd .hashSha3_224 ∧
    decode 0x0000000000000081 = .cmd .hashSha3_256 ∧ decode 0x0000000000000091 = .cmd .hashSha3_384 ∧
    decode 0x00000000000000A1 = .cmd .hashSha3_512 ∧ decode 0x00000000000000B1 = .cmd .hashKeccak_256 := by decide

theorem test_decode_merklize :
    decode 0x0000000000000002 = .cmd .merklizeSha1 ∧ decode 0x0000000000000012 = .cmd .merklizeSha2_224 ∧
    decode 0x0000000000000022 = .cmd .merklizeSha2_256 ∧ decode 0x0000000000000032 = .cmd .merklizeSha2_384 ∧
    decode 0x0000000000000042 = .cmd .merklizeSha2_512 ∧ decode 0x0000000000000052 = .cmd .merklizeSha2_512_224 ∧
    decode 0x0000000000000062 = .cmd .merklizeSha2_512_256 ∧ decode 0x0000000000000072 = .cmd .merklizeSha3_224 ∧
    decode 0x0000000000000082 = .cmd .merklizeSha3_256 ∧ decode 0x0000000000000092 = .cmd .merklizeSha3_384 ∧
    decode 0x00000000000000A2 = .cmd .merklizeSha3_512 ∧ decode 0x00000000000000B2 = .cmd .merklizeKeccak_256 := by
  decide

theorem test_decode_clear : decode 0x0000000000000003 = .cmd .clear := by decide

theorem test_decode_illegal :
    decode 0x00 = .illegal ∧ decode 0x04 = .illegal ∧ decode 0x0F = .illegal ∧ decode 0x13 = .illegal ∧
    decode 0xF3 = .illegal ∧ decode 0x101 = .illegal ∧ decode 0x1C1 = .illegal ∧
    decode 0x8000000000000003 = .illegal := by decide

theorem test_decode_bad_variant :
    decode 0xC1 = .badVariant 0xC ∧ decode 0xD2 = .badVariant 0xD ∧ decode 0xE1 = .badVariant 0xE ∧
    decode 0xF2 = .badVariant 0xF := by decide

theorem test_decode_table :
    decodeTableWord 64 0x51 = some .hashSha2_512_224 ∧ decodeTableWord 8 0x151 = some .hashSha2_512_224 ∧
    decodeTableWord 64 0x151 = none ∧ decodeTableWord 72 (2 ^ 64 + 3) = none := by decide

/-! ## Known answers (95_test_vectors: the named inputs P and I) -/

/-- A byte string as a number, first byte first. -/
def bytesNat (b : Bytes) : Nat := b.foldl (fun n x => n * 256 + x.toNat) 0

/-- The input I: the bytes 0, 1, 2, … -/
def inputI (v : Variant) : Bytes := (List.range (2 * dlen v)).map (BitVec.ofNat 8)

/-- The input P of the source. -/
def inputP (v : Variant) : Bytes := List.replicate (dlen v) 0xFF ++ List.replicate (dlen v) 0x0F

theorem test_sha1_V1 : bytesNat (compress .sha1 (inputP .sha1)) = 0x4bd6787650da46a7624cda739c1760eecba9e815 := by
  decide +kernel
theorem test_sha3_256_V2 :
    bytesNat (compress .sha3_256 (inputP .sha3_256)) =
      0x7988edde11c53c52a1573442fbeb087d015f588601eb84b67237cfca11684a5f := by decide +kernel
theorem test_keccak_256_V3 :
    bytesNat (digestOf .keccak_256 (runEngine .ilv32 .full .keccak_256 (inputP .keccak_256))) =
      0x86a8d234bd66624c74073825b0eb96808a95c81a20174f268b896d55c3b7e609 := by decide +kernel
theorem test_sha2_224 :
    bytesNat (compress .sha2_224 (inputI .sha2_224)) =
      0x2b2cd637c16ad7290bb067ad7d8fd04e204fa43a84366afc7130f4ef := by decide +kernel
theorem test_sha2_256 :
    bytesNat (digestOf .sha2_256 (runEngine .lane64 .window16 .sha2_256 (inputI .sha2_256))) =
      0xfdeab9acf3710362bd2658cdc9a29e8f9c757fcf9811603a8c447cd1d9151108 := by decide +kernel
theorem test_sha2_384 :
    bytesNat (compress .sha2_384 (inputI .sha2_384)) =
      0xe606004ecdc6878b5ec15f4554017ccf962e92cc6eaebe4997ba34ec0e53c67d564c8461c013701a401fe347ec0f721e := by
  decide +kernel
theorem test_sha2_512 :
    bytesNat (compress .sha2_512 (inputI .sha2_512)) / 2 ^ 256 =
      0x1dffd5e3adb71d45d2245939665521ae001a317a03720a45732ba1900ca3b835 := by decide +kernel
theorem test_sha2_512_224 :
    bytesNat (compress .sha2_512_224 (inputI .sha2_512_224)) =
      0xdf1bb702813c49110142bc858073e618ab22af52faf8d5f0403d3ff0 := by decide +kernel
theorem test_sha2_512_256 :
    bytesNat (compress .sha2_512_256 (inputI .sha2_512_256)) =
      0xc9e483b9622515e83259e1e075746b70142cb1217863fb8c85fae33256f4188a := by decide +kernel
theorem test_sha3_224 :
    bytesNat (compress .sha3_224 (inputI .sha3_224)) =
      0xfc95d44e806cbbd484e379882238f555fda923878c443abe4ce4cdd6 := by decide +kernel
theorem test_sha3_384 :
    bytesNat (compress .sha3_384 (inputI .sha3_384)) =
      0xd6e266970a3fdcd4a833da861599179a060b576959e993b4698529304ee38c23c7102a7084c4d568b1d95523d14077e7 := by
  decide +kernel
theorem test_sha3_512 :
    bytesNat (compress .sha3_512 (inputI .sha3_512)) / 2 ^ 256 =
      0x989c1995da9d2d341f993c2e2ca695f3477075061bfbd2cdf0be75cf7ba99fbe := by decide +kernel

/-- 95_test_vectors 2.1: the word functions. -/
theorem test_word_functions :
    ch (0x6a09e667 : BitVec 32) 0xbb67ae85 0x3c6ef372 = 0x3e67b715 ∧
    maj (0x6a09e667 : BitVec 32) 0xbb67ae85 0x3c6ef372 = 0x3a6fe667 ∧
    bigSigma md32.bigSigma0 (0x6a09e667 : BitVec 32) = 0xce20b47e ∧
    bigSigma md32.bigSigma1 (0x6a09e667 : BitVec 32) = 0x55b65510 ∧
    smallSigma md32.smallSigma0 (0x6a09e667 : BitVec 32) = 0xba0cf582 ∧
    smallSigma md32.smallSigma1 (0x6a09e667 : BitVec 32) = 0xcfe5da3c ∧
    bigSigma md64.bigSigma0 (0x6a09e667f3bcc908 : BitVec 64) = 0x08c4db56aac80c2a ∧
    smallSigma md64.smallSigma1 (0x6a09e667f3bcc908 : BitVec 64) = 0xc8c619e73ee44510 ∧
    rotr (1 : BitVec 32) 1 = 0x80000000 ∧ rotl (0x80000000 : BitVec 32) 1 = 1 := by decide

/-! ## Small states -/

/-- SHA1 arguments of a HASH. -/
def hashArgs : Args := { Args.zero with srcPtr := 0x100, srcLen := 40, dstPtr := 0x1000, dstLen := 20 }

/-- SHA1 arguments of a MERKLIZE with `n` leaves. -/
def treeArgs (n : Nat) : Args :=
  { srcPtr := 0x100, srcLen := BitVec.ofNat 64 (n * 20), leafCount := BitVec.ofNat 64 n, dstPtr := 0x1000
    dstLen := BitVec.ofNat 64 (n * 20), itmdCount := BitVec.ofNat 64 (n - 1), batch := 1 }

/-- The state after reset with arguments and an agenda. -/
def idle (x : Args) (agenda : List Move) : State := { State.reset with x := x, agenda := agenda }

/-- A running HASH.SHA1. -/
def hashing (units : List (Nat × UnitPhase)) (agenda : List Move) : State :=
  { State.reset with
    x := hashArgs, status := { Status.zero with busy := true }
    latch := { op := .hash, variant := .sha1, a := hashArgs }
    seq := { phase := .runHash, k := 0, units := units }, agenda := agenda }

/-- A running MERKLIZE.SHA1 of `n` leaves at level `k`. -/
def merklizing (n k : Nat) (units : List (Nat × UnitPhase)) (agenda : List Move) : State :=
  { State.reset with
    x := treeArgs n, status := { Status.zero with busy := true }
    latch := { op := .merklize, variant := .sha1, a := treeArgs n }
    seq := { phase := .runLevel, k := k, units := units }, agenda := agenda }

/-- SHA-1 registers of no particular content. -/
def someRegs : EngineRegs := .sha1 { pm := [], hs := [], ws := [], vars := work1Of [], t := 0, j := 0 }

/-- A unit that holds twenty bytes 0x5A. -/
def loaded : UnitPhase := .loaded someRegs (List.replicate 20 0x5A)

theorem ready_idle (x : Args) (a : List Move) : Ready (idle x a) := ⟨rfl, rfl⟩

theorem inv_idle (x : Args) (a : List Move) : Inv (idle x a) where
  memWf := rfl
  memBounded := rfl
  idle := by simp [Tests.idle, State.reset, Status.zero]
  flags := by simp [flagsExclusive, Tests.idle, State.reset, Status.zero]
  errors := ⟨fun _ => ⟨rfl, rfl⟩, fun h => by cases h⟩
  seq := ⟨fun h => by (cases h), fun h => by (cases h), fun h => absurd rfl h, fun h => absurd rfl h⟩

theorem inv_hashing (u : List (Nat × UnitPhase)) (a : List Move) (hw : sparseWf UnitPhase.waiting u = true)
    (hu : ∀ p ∈ u, p.1 < 1 ∧ phaseSound .sha1 p.2) : Inv (hashing u a) where
  memWf := rfl
  memBounded := rfl
  idle := by simp [hashing, State.reset, Status.zero]
  flags := by simp [flagsExclusive, hashing, State.reset, Status.zero]
  errors := ⟨fun _ => ⟨rfl, rfl⟩, fun h => by cases h⟩
  seq := ⟨fun _ => ⟨rfl, show checkHash .sha1 hashArgs = none by decide +kernel⟩, fun h => by (cases h), fun _ => hw,
    fun _ => hu⟩

theorem inv_merklizing (n k : Nat) (u : List (Nat × UnitPhase)) (a : List Move)
    (hn : checkMerklize .sha1 (treeArgs n) = none) (hk : k < levels (treeArgs n).leafCount.toNat)
    (hw : sparseWf UnitPhase.waiting u = true)
    (hu : ∀ p ∈ u, p.1 < pairCount (treeArgs n).leafCount.toNat k ∧ phaseSound .sha1 p.2) :
    Inv (merklizing n k u a) where
  memWf := rfl
  memBounded := rfl
  idle := by simp [merklizing, State.reset, Status.zero]
  flags := by simp [flagsExclusive, merklizing, State.reset, Status.zero]
  errors := ⟨fun _ => ⟨rfl, rfl⟩, fun h => by cases h⟩
  seq := ⟨fun h => by (cases h), fun _ => ⟨rfl, hn, hk⟩, fun _ => hw, fun _ => hu⟩

theorem inv_hash_waiting (a : List Move) : Inv (hashing [] a) := inv_hashing _ _ (by decide) (by simp)
theorem inv_hash_loaded (a : List Move) : Inv (hashing [(0, loaded)] a) :=
  inv_hashing _ _ (by decide) (by simp [phaseSound, loaded, dlen])
theorem inv_hash_finished (a : List Move) : Inv (hashing [(0, .finished)] a) :=
  inv_hashing _ _ (by decide) (by simp [phaseSound])
theorem inv_tree_waiting (a : List Move) : Inv (merklizing 4 0 [] a) :=
  inv_merklizing _ _ _ _ (by decide +kernel) (by decide +kernel) (by decide) (by simp)
theorem inv_tree_loaded (a : List Move) : Inv (merklizing 4 0 [(1, loaded)] a) :=
  inv_merklizing _ _ _ _ (by decide +kernel) (by decide +kernel) (by decide) (by
    simp [phaseSound, loaded, dlen]; decide)
theorem inv_tree_closing (a : List Move) : Inv (merklizing 4 0 [(0, .finished), (1, .finished)] a) :=
  inv_merklizing _ _ _ _ (by decide +kernel) (by decide +kernel) (by decide) (by simp [phaseSound]; decide)
theorem inv_root_finished (a : List Move) : Inv (merklizing 4 1 [(0, .finished)] a) :=
  inv_merklizing _ _ _ _ (by decide +kernel) (by decide +kernel) (by decide) (by simp [phaseSound]; decide)

/-! ## Single steps -/

theorem test_hash_accepts_every_variant :
    ∀ v : Variant, ∃ t, exec (hashOf v)
        (idle { Args.zero with srcLen := BitVec.ofNat 64 (2 * dlen v), dstLen := BitVec.ofNat 64 (dlen v) } []) =
      .next t ∧ t.status.busy = true ∧ t.latch.variant = v ∧ t.seq.phase = .runHash := by
  intro v; cases v <;> exact ⟨_, rfl, by decide +kernel, by decide +kernel, by decide +kernel⟩

theorem test_merklize_accepts_every_variant :
    ∀ v : Variant, ∃ t, exec (merklizeOf v)
        (idle { treeArgs 4 with srcLen := BitVec.ofNat 64 (4 * slotOf v), dstLen := BitVec.ofNat 64 (4 * slotOf v) }
          []) = .next t ∧ t.status.busy = true ∧ t.latch.variant = v ∧ unitCount t = 2 := by
  intro v; cases v <;> exact ⟨_, rfl, by decide +kernel, by decide +kernel, by decide +kernel⟩

/-- V5, V6 of 95_test_vectors: STATUS = 0x0304 and ERRINFO = N. -/
theorem test_leaf_count_refused :
    ∀ n ∈ [0, 3], ∃ t, exec .merklizeSha2_256 (idle { Args.zero with leafCount := n } []) = .next t ∧
      regValue t 0x10 = 0x0304 ∧ regValue t 0x18 = n := by
  intro n hn
  fin_cases hn <;> exact ⟨_, rfl, by decide +kernel, by decide +kernel⟩

/-- 44_system R251 and R255: a CLEAR during BUSY is dropped; one after that clears OVR. -/
theorem test_clear :
    (∃ t, exec .clear (hashing [] []) = .next t ∧ regValue t 0x10 = 0x9) ∧
      ∃ t, exec .clear { idle hashArgs [] with
          status := { busy := false, done := false, err := true, ovr := true, errCode := 0x0A }, errInfo := 7 } =
        .next t ∧ regValue t 0x10 = 0 ∧ regValue t 0x18 = 0 := by
  exact ⟨⟨_, rfl, by decide +kernel⟩, ⟨_, rfl, by decide +kernel, by decide +kernel⟩⟩

/-- 43_merger R224 on the top level of a tree of four: the root goes to DST slot 2. -/
theorem test_root_slot : unitOut (merklizing 4 1 [] []) 0 = 0x1000 + 2 * 20 := by decide +kernel

/-- 60_exceptions R284: a failing second read ends the command with the address of the right child. -/
theorem test_backend_read :
    ∃ t, step (merklizing 4 0 [] [.unit 1 (.fail 1 [])]) = .next t ∧ regValue t 0x10 = 0x1004 ∧
      regValue t 0x18 = 0x100 + 3 * 20 := ⟨_, rfl, by decide +kernel, by decide +kernel⟩

/-! ## Witnesses: a concrete case for the hypotheses of every statement, clause by clause -/

theorem witness_DecodeEncodeAgree :
    Instr.wf .clear = true ∧ decode 0x52 = .cmd .merklizeSha2_512_224 ∧ encode .hashSha1 = encode .hashSha1 := by decide

theorem witness_DecodeFollowsFields :
    0x100 ≤ (0x100 : Word).toNat ∧
    ((0x03 : Word).toNat < 0x100 ∧ (0x03 : Word).toNat % 16 = 3 ∧ (0x03 : Word).toNat / 16 = 0) ∧
    ((0x13 : Word).toNat < 0x100 ∧ (0x13 : Word).toNat % 16 = 3 ∧ (0x13 : Word).toNat / 16 ≠ 0) ∧
    (0xB1 : Word).toNat = 16 * (Variant.code .keccak_256).toNat + 1 ∧
    (0x02 : Word).toNat = 16 * (Variant.code .sha1).toNat + 2 ∧
    ((0xC1 : Word).toNat < 0x100 ∧ (0xC1 : Word).toNat % 16 = 1 ∧ 0xC ≤ (0xC1 : Word).toNat / 16) ∧
    ((0xF2 : Word).toNat < 0x100 ∧ (0xF2 : Word).toNat % 16 = 2 ∧ 0xC ≤ (0xF2 : Word).toNat / 16) ∧
    ((0x10 : Word).toNat % 16 = 0 ∧ 4 ≤ (0x04 : Word).toNat % 16) ∧
    Ready (idle hashArgs []) ∧ decode 0x10 = .illegal ∧ decode 0xC1 = .badVariant 0xC := by
  exact ⟨by decide, by decide, by decide, by decide, by decide, by decide, by decide, by decide, ready_idle _ _,
    by decide, by decide⟩

theorem witness_BadWordsRaise :
    Ready (idle hashArgs []) ∧ 0x100 ≤ (0x100 : Word).toNat ∧ (0xF0 : Word).toNat % 16 = 0 ∧
    4 ≤ (0xFF : Word).toNat % 16 ∧ ((0x13 : Word).toNat % 16 = 3 ∧ (0x13 : Word).toNat / 16 ≠ 0) ∧
    ((0xC2 : Word).toNat < 0x100 ∧ (0xC2 : Word).toNat % 16 = 2 ∧ 0xC ≤ (0xC2 : Word).toNat / 16) :=
  ⟨ready_idle _ _, by decide, by decide, by decide, by decide, by decide⟩

theorem witness_StepRunsDecodedCommand :
    (idle hashArgs [.regWrite 0x08 0x01, .mc]).agenda = .regWrite 0x08 0x01 :: [.mc] ∧
      decode 0x01 = .cmd .hashSha1 ∧ Instr.wf .hashSha1 = true ∧ decodeTableWord 64 0x03 = some .clear := by decide

theorem witness_ResetValues : 0 < 7 ∧ 6 < 7 := by decide

theorem witness_StepKeepsInvariant : ∃ s t, Inv s ∧ step s = .next t ∧ t.seq.phase ≠ s.seq.phase :=
  ⟨_, _, inv_hash_finished [.mc], rfl, by decide⟩

/-- Both regions end at 2^64. -/
def topArgs : Args :=
  { hashArgs with srcPtr := BitVec.ofNat 64 (2 ^ 64 - 40), dstPtr := BitVec.ofNat 64 (2 ^ 64 - 20) }

theorem witness_HashAccepts :
    Ready (idle topArgs []) ∧ (idle topArgs []).x.srcLen.toNat = 2 * dlen .sha1 ∧
      (idle topArgs []).x.dstLen.toNat = dlen .sha1 ∧ (idle topArgs []).x.srcPtr.toNat + 2 * dlen .sha1 ≤ 2 ^ 64 ∧
      (idle topArgs []).x.dstPtr.toNat + dlen .sha1 ≤ 2 ^ 64 :=
  ⟨ready_idle _ _, by decide +kernel, by decide +kernel, by decide +kernel, by decide +kernel⟩

/-- Arguments of a MERKLIZE.SHA1 of four leaves whose buffers touch and whose DST ends at 2^64. -/
def topTreeArgs : Args :=
  { treeArgs 4 with srcPtr := BitVec.ofNat 64 (2 ^ 64 - 160), dstPtr := BitVec.ofNat 64 (2 ^ 64 - 80), batch := 2 }

theorem witness_MerklizeAccepts :
    Ready (idle topTreeArgs []) ∧ (1 ≤ 2 ∧ topTreeArgs.leafCount.toNat = 2 ^ 2 ∧
      topTreeArgs.srcLen.toNat = 2 ^ 2 * slotOf .sha1 ∧ topTreeArgs.itmdCount.toNat + 1 = 2 ^ 2 ∧
      topTreeArgs.dstLen.toNat = 2 ^ 2 * slotOf .sha1 ∧ 1 ≤ topTreeArgs.batch.toNat ∧
      (∀ k, k < 2 → min topTreeArgs.batch.toNat (2 ^ (2 - 1 - k)) ∣ 2 ^ (2 - 1 - k)) ∧
      topTreeArgs.srcPtr.toNat + 2 ^ 2 * slotOf .sha1 ≤ 2 ^ 64 ∧
      topTreeArgs.dstPtr.toNat + 2 ^ 2 * slotOf .sha1 ≤ 2 ^ 64) ∧ ∀ c, ¬(InSrc topTreeArgs c ∧ InDst topTreeArgs c) := by
  refine ⟨ready_idle _ _, by decide +kernel, fun c h => ?_⟩
  have h1 : topTreeArgs.srcPtr.toNat + topTreeArgs.srcLen.toNat = topTreeArgs.dstPtr.toNat := by decide +kernel
  have h2 := h.1.2; have h3 := h.2.1
  omega

theorem witness_HashRefusesInOrder :
    Ready (idle hashArgs []) ∧ { hashArgs with srcLen := 41 }.srcLen.toNat ≠ 2 * dlen .sha1 ∧
    (hashArgs.srcLen.toNat = 2 * dlen .sha1 ∧ { hashArgs with dstLen := 21 }.dstLen.toNat ≠ dlen .sha1) ∧
    (hashArgs.dstLen.toNat = dlen .sha1 ∧ 2 ^ 64 < (BitVec.ofNat 64 (2 ^ 64 - 39)).toNat + 2 * dlen .sha1) ∧
    (topArgs.srcPtr.toNat + 2 * dlen .sha1 ≤ 2 ^ 64 ∧ 2 ^ 64 < (BitVec.ofNat 64 (2 ^ 64 - 19)).toNat + dlen .sha1) :=
  ⟨ready_idle _ _, by decide +kernel, by decide +kernel, by decide +kernel, by decide +kernel⟩

theorem witness_MerklizeRefusesInOrder :
    Ready (idle (treeArgs 8) []) ∧ (¬∃ L, 1 ≤ L ∧ (treeArgs 1).leafCount.toNat = 2 ^ L) ∧
    (1 ≤ 3 ∧ (treeArgs 8).leafCount.toNat = 2 ^ 3) ∧
    ({ treeArgs 8 with srcLen := 159 }.srcLen.toNat ≠ 2 ^ 3 * slotOf .sha1) ∧
    ((treeArgs 8).srcLen.toNat = 2 ^ 3 * slotOf .sha1 ∧ { treeArgs 8 with itmdCount := 8 }.itmdCount.toNat + 1 ≠ 2 ^ 3) ∧
    ((treeArgs 8).itmdCount.toNat + 1 = 2 ^ 3 ∧ { treeArgs 8 with dstLen := 161 }.dstLen.toNat ≠ 2 ^ 3 * slotOf .sha1) ∧
    ((treeArgs 8).dstLen.toNat = 2 ^ 3 * slotOf .sha1 ∧ { treeArgs 8 with batch := 0 }.batch.toNat = 0) ∧
    (∃ k, k < 3 ∧ ¬min { treeArgs 8 with batch := 3 }.batch.toNat (2 ^ (3 - 1 - k)) ∣ 2 ^ (3 - 1 - k)) ∧
    (1 ≤ (treeArgs 8).batch.toNat ∧
      ∀ k, k < 3 → min (treeArgs 8).batch.toNat (2 ^ (3 - 1 - k)) ∣ 2 ^ (3 - 1 - k)) ∧
    2 ^ 64 < (BitVec.ofNat 64 (2 ^ 64 - 159)).toNat + (treeArgs 8).srcLen.toNat ∧
    ((treeArgs 8).srcPtr.toNat + (treeArgs 8).srcLen.toNat ≤ 2 ^ 64 ∧
      2 ^ 64 < (BitVec.ofNat 64 (2 ^ 64 - 159)).toNat + (treeArgs 8).dstLen.toNat) ∧
    ∃ c, InSrc { treeArgs 8 with dstPtr := 0x19F } c ∧ InDst { treeArgs 8 with dstPtr := 0x19F } c := by
  refine ⟨ready_idle _ _, ?_, by decide +kernel, by decide +kernel, by decide +kernel, by decide +kernel,
    by decide +kernel, ⟨0, by decide +kernel, by decide +kernel⟩, by decide +kernel, by decide +kernel,
    by decide +kernel, ⟨0x19F, ⟨by decide +kernel, by decide +kernel⟩, ⟨by decide +kernel, by decide +kernel⟩⟩⟩
  rw [← isLeafCount_iff]; decide +kernel

/-- An error, not yet acknowledged. -/
def failed : State :=
  { State.reset with status := { busy := false, done := false, err := true, ovr := false, errCode := 0x10 }, errInfo := 5 }

/-- A state with OVR. -/
def overrun (agenda : List Move) : State :=
  { State.reset with status := { Status.zero with ovr := true }, agenda := agenda }

theorem witness_DroppedWriteOnlySetsOvr :
    (hashing [] []).status.busy = true ∧ (failed.status.err = true ∧ (0x01 : Word) ≠ 0x03) ∧
      ∃ t, step (overrun [.regRead 0x10]) = .next t ∧ (overrun [.regRead 0x10]).status.ovr = true :=
  ⟨rfl, ⟨rfl, by decide⟩, _, rfl, rfl⟩

theorem witness_ClearEffect :
    ((0xF3 : Word).toNat % 16 = 3 ∧ (0xF3 : Word) ≠ 0x03) ∧ failed.status.busy = false ∧
      (hashing [] []).status.busy = true ∧ (Instr.merklizeSha3_512 ≠ .clear ∧ failed.status.err = true) :=
  ⟨by decide, rfl, rfl, by decide, rfl⟩

theorem witness_ProgramsIssueCommands :
    Ready (idle hashArgs (hashProgram .sha1 (BitVec.ofNat 64 (2 ^ 64 - 40)) 0 ++ [readStatus])) ∧
    ((BitVec.ofNat 64 (2 ^ 64 - 40)).toNat + 2 * dlen .sha1 ≤ 2 ^ 64 ∧ (0 : Word).toNat + dlen .sha1 ≤ 2 ^ 64) ∧
    Ready (idle hashArgs (merklizeProgram .sha1 0 2 40 (BitVec.ofNat 64 (2 ^ 63)) ++ [])) ∧
    (1 ≤ 1 ∧ 2 = 2 ^ 1 ∧ (0 : Word).toNat + 2 * slotOf .sha1 ≤ 2 ^ 64 ∧ (40 : Word).toNat + 2 * slotOf .sha1 ≤ 2 ^ 64 ∧
      (0 : Word).toNat + 2 * slotOf .sha1 ≤ (40 : Word).toNat) ∧
    ∃ m, m ≤ 63 ∧ (BitVec.ofNat 64 (2 ^ 63)).toNat = 2 ^ m :=
  ⟨ready_idle _ _, by decide +kernel, ready_idle _ _, by decide +kernel, 63, by decide, by decide +kernel⟩

theorem witness_TreeQuantities :
    (2 < 2 ^ 64 ∧ isLeafCount 2 = true ∧ 0 < levels 2 ∧ 1 ≤ levels 2) ∧
      2 ^ 63 < 2 ^ 64 ∧ isLeafCount (2 ^ 63) = true := by decide +kernel

/-- The largest tree of SHA1 leaves with room for two buffers. -/
def hugeArgs : Args :=
  { srcPtr := 0, srcLen := BitVec.ofNat 64 (2 ^ 58 * 20), leafCount := BitVec.ofNat 64 (2 ^ 58)
    dstPtr := BitVec.ofNat 64 (2 ^ 58 * 20), dstLen := BitVec.ofNat 64 (2 ^ 58 * 20)
    itmdCount := BitVec.ofNat 64 (2 ^ 58 - 1), batch := BitVec.ofNat 64 (2 ^ 57) }

theorem witness_LeafCountBounds :
    checkMerklize .sha1 hugeArgs = none ∧ 32 ≤ slotOf .sha2_512_224 ∧ slotOf .sha3_512 = 64 := by decide +kernel

theorem witness_BatchRule :
    1 ≤ 1 ∧ batchFits 1 (2 ^ 1) = true ∧ (batchFits 7 (2 ^ 3) = true ∧ 2 < 3 ∧ 0 < pairCount (2 ^ 3) 2) := by
  decide +kernel

theorem witness_SlotsWrittenOnce :
    1 ≤ 1 ∧ (0 < 1 ∧ 0 < pairCount (2 ^ 1) 0) ∧ 0 < 2 ^ 1 - 1 ∧ levelOffset (2 ^ 1) (0 + 1) + 0 = 0 := by decide +kernel

theorem witness_LevelsDisjoint :
    checkMerklize .sha1 (treeArgs 4) = none ∧ 1 < levels (treeArgs 4).leafCount.toNat ∧
    (1 < levelSize (treeArgs 4).leafCount.toNat 1 ∧ 0 < pairCount (treeArgs 4).leafCount.toNat 1 ∧ 19 < dlen .sha1) ∧
    (1 < pairCount (treeArgs 4).leafCount.toNat 0 ∧ 0 < pairCount (treeArgs 4).leafCount.toNat 0 ∧ 0 ≠ 1) ∧
    3 < levelSize (treeArgs 4).leafCount.toNat 0 := by decide +kernel

/-- Two memories that differ in a pad byte of slot 0. -/
theorem witness_OnlyDigestBytesMatter :
    { treeArgs 2 with srcPtr := 0 }.leafCount.toNat = 2 ^ 1 ∧
    (∀ j, j < 2 ^ 1 → ∀ c, c < dlen .sha2_512_224 →
      readByte [(28, 1)] ((0 : Word).toNat + j * slotOf .sha2_512_224 + c) =
        readByte [] ((0 : Word).toNat + j * slotOf .sha2_512_224 + c)) ∧
    1 ≤ 1 ∧ 0 < levelSize (2 ^ 1) 1 := by decide +kernel

theorem witness_UnitLoads :
    (Inv (hashing [] [.unit 0 (.fail 1 [])]) ∧ unitPhase (hashing [] [.unit 0 (.fail 1 [])]) 0 = .waiting ∧
      ∀ n, n < (unitReads (hashing [] [.unit 0 (.fail 1 [])]) 0).length → portFailsAt (.fail 1 []) n = false) ∧
    Inv (merklizing 4 0 [] [.unit 1 .ok]) ∧ 1 < unitCount (merklizing 4 0 [] [.unit 1 .ok]) ∧
      unitPhase (merklizing 4 0 [] [.unit 1 .ok]) 1 = .waiting ∧
      ∀ n, n < (unitReads (merklizing 4 0 [] [.unit 1 .ok]) 1).length → portFailsAt .ok n = false :=
  ⟨⟨inv_hash_waiting _, by decide, by decide⟩, inv_tree_waiting _, by decide +kernel, by decide, fun _ _ => rfl⟩

theorem witness_UnitStores :
    (Inv (hashing [(0, loaded)] [.unit 0 .ok]) ∧ unitPhase (hashing [(0, loaded)] [.unit 0 .ok]) 0 = loaded) ∧
    Inv (merklizing 4 0 [(1, loaded)] [.unit 1 (.fail 1 [])]) ∧
      1 < unitCount (merklizing 4 0 [(1, loaded)] [.unit 1 (.fail 1 [])]) ∧
      unitPhase (merklizing 4 0 [(1, loaded)] [.unit 1 (.fail 1 [])]) 1 = loaded ∧
      portFailsAt (.fail 1 []) 0 = false :=
  ⟨⟨inv_hash_loaded _, rfl⟩, inv_tree_loaded _, by decide +kernel, rfl, by decide⟩

theorem witness_BackendFailure :
    (Inv (merklizing 4 0 [] [.unit 0 (.fail 1 [])]) ∧ 0 < unitCount (merklizing 4 0 [] [.unit 0 (.fail 1 [])]) ∧
      unitPhase (merklizing 4 0 [] [.unit 0 (.fail 1 [])]) 0 = .waiting ∧
      1 < (unitReads (merklizing 4 0 [] [.unit 0 (.fail 1 [])]) 0).length) ∧
    Inv (hashing [(0, loaded)] [.unit 0 (.fail 0 [true, false])]) ∧
      unitPhase (hashing [(0, loaded)] [.unit 0 (.fail 0 [true, false])]) 0 = loaded :=
  ⟨⟨inv_tree_waiting _, by decide +kernel, by decide, by decide⟩, inv_hash_loaded _, rfl⟩

theorem witness_LevelClose :
    (Inv (hashing [] [.mc]) ∧ ∃ i, i < unitCount (hashing [] [.mc]) ∧ unitPhase (hashing [] [.mc]) i ≠ .finished) ∧
    (Inv (idle hashArgs [.mc]) ∧ (∀ i, i < unitCount (idle hashArgs [.mc]) →
      unitPhase (idle hashArgs [.mc]) i = .finished) ∧ (idle hashArgs [.mc]).seq.phase = .idle) ∧
    (Inv (hashing [(0, .finished)] [.mc]) ∧ ∀ i, i < unitCount (hashing [(0, .finished)] [.mc]) →
      unitPhase (hashing [(0, .finished)] [.mc]) i = .finished) ∧
    (Inv (merklizing 4 1 [(0, .finished)] [.mc]) ∧ (treeArgs 4).leafCount.toNat / 2 ^ (1 + 1) = 1) ∧
    Inv (merklizing 4 0 [(0, .finished), (1, .finished)] [.mc]) ∧
      (∀ i, i < unitCount (merklizing 4 0 [(0, .finished), (1, .finished)] [.mc]) →
        unitPhase (merklizing 4 0 [(0, .finished), (1, .finished)] [.mc]) i = .finished) ∧
      (treeArgs 4).leafCount.toNat / 2 ^ (0 + 1) ≠ 1 :=
  ⟨⟨inv_hash_waiting _, 0, by decide, by decide⟩, ⟨inv_idle _ _, by decide, rfl⟩, ⟨inv_hash_finished _, by decide⟩,
    ⟨inv_root_finished _, by decide +kernel⟩, inv_tree_closing _, by decide +kernel, by decide +kernel⟩

theorem witness_CompletionOrdering :
    ∃ s t, Inv s ∧ step s = .next t ∧ s.status.done = false ∧ t.status.done = true :=
  ⟨_, _, inv_hash_finished [.mc], rfl, rfl, rfl⟩

theorem witness_CommandFrame :
    (∃ s t c, Inv s ∧ step s = .next t ∧ readByte t.mem c ≠ readByte s.mem c ∧ s.status.busy = false) ∧
    (∃ s t c, Inv s ∧ step s = .next t ∧ readByte t.mem c ≠ readByte s.mem c ∧ s.agenda = [.unit 1 .ok]) ∧
    (∃ s t c, Inv s ∧ step s = .next t ∧ readByte t.mem c ≠ readByte s.mem c ∧ s.agenda = []) ∧
      ∃ s t c, Inv s ∧ step s = .next t ∧ readByte t.mem c ≠ readByte s.mem c ∧ s.agenda = [.reset [(1, [true])]] :=
  ⟨⟨_, _, 3, inv_idle hashArgs [.memWrite 3 [1]], rfl, by decide, rfl⟩,
    ⟨_, _, 0x1000 + 39, inv_tree_loaded [.unit 1 .ok], rfl, by decide +kernel, rfl⟩,
    ⟨_, _, 0x1000, inv_hash_loaded [], rfl, by decide +kernel, rfl⟩,
    ⟨_, _, 0x1000 + 20, inv_tree_loaded [.reset [(1, [true])]], rfl, by decide +kernel, rfl⟩⟩

theorem witness_LeavesNeverWritten :
    ∃ s t c, Inv s ∧ s.seq.phase = .runLevel ∧ step s = .next t ∧ InSrc s.latch.a c :=
  ⟨_, _, 0x100, inv_tree_loaded [.unit 1 (.fail 0 [true])], rfl, rfl, by decide +kernel, by decide +kernel⟩

theorem witness_UnitStepsCommute :
    ∃ s s₁ s₁₂, Inv s ∧ 1 ≠ 0 ∧ unitStep 1 .ok s = .next s₁ ∧ unitStep 0 .ok s₁ = .next s₁₂ ∧ 1 < unitCount s :=
  ⟨_, _, _, inv_tree_loaded [], by decide, rfl, rfl, by decide +kernel⟩

/-- A MERKLIZE.SHA1 of two zero leaves whose one unit has stored its digest. -/
def pairDone (agenda : List Move) : State :=
  { merklizing 2 0 [(0, .finished)] agenda with mem := writeBytes [] 0x1000 (compress .sha1 (List.replicate 40 0)) }

theorem witness_MerklizeBuildsTree :
    ∃ s t, Inv s ∧ TreeSound s ∧ step s = .next t ∧ s.seq.phase = .runLevel ∧ t.status.done = true := by
  refine ⟨pairDone [.mc], _, ⟨by decide +kernel, by decide +kernel, ?_, ?_, ⟨fun _ => ⟨rfl, rfl⟩, fun h => by cases h⟩,
    ⟨fun h => by (cases h), fun _ => ⟨rfl, by decide +kernel, by decide +kernel⟩, fun _ => by decide, ?_⟩⟩, ?_, rfl,
    rfl, rfl⟩
  · simp [pairDone, merklizing, State.reset, Status.zero]
  · simp [flagsExclusive, pairDone, merklizing, State.reset, Status.zero]
  · intro _ p hp
    obtain rfl : p = (0, .finished) := by simpa [pairDone, merklizing] using hp
    exact ⟨by decide +kernel, trivial⟩
  · intro _
    refine ⟨fun k hk => ?_, fun i hi => ?_⟩
    · obtain rfl : k = 0 := Nat.le_zero.mp hk
      intro i _; rfl
    · obtain rfl : i = 0 := by
        have h1 : unitCount (pairDone [.mc]) = 1 := by decide +kernel
        omega
      show readBytes (pairDone [.mc]).mem (unitOut (pairDone [.mc]) 0) (dlen .sha1) =
        treeDigest (pairDone [.mc]).mem .sha1 (treeArgs 2) 1 0
      decide +kernel

theorem witness_ProgressCount :
    (Inv (idle hashArgs []) ∧ (idle hashArgs []).status.busy = false) ∧
    (Inv (hashing [] []) ∧ (hashing [] []).status.busy = true) ∧
    (Inv (merklizing 4 0 [(1, loaded)] []) ∧ 1 < unitCount (merklizing 4 0 [(1, loaded)] []) ∧
      unitPhase (merklizing 4 0 [(1, loaded)] []) 1 ≠ .finished) ∧
    (Inv (merklizing 4 1 [(0, .finished)] []) ∧ ∀ i, i < unitCount (merklizing 4 1 [(0, .finished)] []) →
      unitPhase (merklizing 4 1 [(0, .finished)] []) i = .finished) ∧
    (∃ t, exec (hashOf .sha1) (idle hashArgs []) = .next t ∧ t.status.busy = true) ∧
    ∃ t, exec (merklizeOf .sha1) (idle (treeArgs 4) []) = .next t ∧ t.status.busy = true :=
  ⟨⟨inv_idle _ _, rfl⟩, ⟨inv_hash_waiting _, rfl⟩, ⟨inv_tree_loaded _, by decide +kernel, by decide⟩,
    ⟨inv_root_finished _, by decide +kernel⟩, ⟨_, rfl, by decide +kernel⟩, ⟨_, rfl, by decide +kernel⟩⟩

theorem witness_HashCommandWritesDigest :
    ∃ s, Inv s ∧ Ready s ∧ checkHash .sha1 s.x = none ∧
      s.agenda = .regWrite 0x08 (encode (hashOf .sha1)) :: .unit 0 .ok :: .unit 0 .ok :: .mc :: [] :=
  ⟨idle topArgs _, inv_idle _ _, ready_idle _ _, by decide +kernel, rfl⟩

theorem witness_MerklizeCommandBuildsTree :
    ∃ s, Inv s ∧ Ready s ∧ checkMerklize .sha1 s.x = none ∧ s.agenda = [.regWrite 0x08 (encode (merklizeOf .sha1))] :=
  ⟨idle topTreeArgs _, inv_idle _ _, ready_idle _ _, by decide +kernel, rfl⟩

theorem witness_MerklizeSinglePair :
    ∃ s, Inv s ∧ Ready s ∧ checkMerklize .sha1 s.x = none ∧ s.x.leafCount = 2 ∧
      s.agenda = .regWrite 0x08 (encode (merklizeOf .sha1)) :: .unit 0 .ok :: .unit 0 .ok :: .mc :: [] :=
  ⟨idle (treeArgs 2) _, inv_idle _ _, ready_idle _ _, by decide +kernel, rfl, rfl⟩

theorem witness_ResetStep :
    ∃ s, Inv s ∧ s.agenda = [.reset [(1, [true])]] ∧ ∃ t, step s = .next t ∧
      readByte t.mem (0x1000 + 20) ≠ readByte s.mem (0x1000 + 20) :=
  ⟨_, inv_tree_loaded [.reset [(1, [true])]], rfl, _, rfl, by decide +kernel⟩

theorem witness_RegisterReadValues :
    (∀ offset ∈ [0x00, 0x08, 0x10, 0x18, 0x20, 0x28, 0x40, 0x70, 0x78], offset % 8 = 0 ∧ offset < 0x80) ∧
      ¬(0x80 % 8 = 0 ∧ 0x80 < 0x80) ∧ ¬(0x44 % 8 = 0 ∧ 0x44 < 0x80) ∧ (4 < 8 ∧ 16 ≤ 63) := by decide

theorem witness_ArgumentsBelongToHost :
    ∃ t, step (idle hashArgs [.regWrite 0x70 9]) = .next t ∧ argGet t.x 6 = some 9 ∧
      argGet (idle hashArgs []).x 6 ≠ some 9 := ⟨_, rfl, rfl, by decide⟩

theorem witness_RunIgnoresArguments :
    (∃ t, perform (.unit 0 .ok) (merklizing 4 0 [] []) = .next t) ∧
      ∃ t, perform .mc (hashing [(0, .finished)] []) = .next t := ⟨⟨_, rfl⟩, ⟨_, rfl⟩⟩

theorem inv_failed (agenda : List Move) : Inv { failed with agenda := agenda } where
  memWf := rfl
  memBounded := rfl
  idle := by simp [failed, State.reset]
  flags := by simp [flagsExclusive, failed]
  errors := ⟨fun h => by (cases h), fun _ => ⟨.backend, rfl⟩⟩
  seq := ⟨fun h => by (cases h), fun h => by (cases h), fun h => absurd rfl h, fun h => absurd rfl h⟩

theorem witness_ErrorsAndTheirRecord :
    (∃ s t, Inv s ∧ step s = .next t ∧ s.status.err = false ∧ t.status.err = true ∧ t.status.errCode = 0x02) ∧
    (∃ s t, Inv s ∧ step s = .next t ∧ s.status.err = false ∧ t.status.err = true ∧ t.status.errCode = 0x10) ∧
    ∃ s t, Inv s ∧ step s = .next t ∧ s.status.err = true ∧ t.status.err = false :=
  ⟨⟨_, _, inv_idle hashArgs [.regWrite 0x08 0xC1], rfl, rfl, by decide, by decide⟩,
    ⟨_, _, inv_hash_waiting [.unit 0 (.fail 0 [])], rfl, rfl, by decide, by decide⟩,
    ⟨_, _, inv_failed [.regWrite 0x08 0x03], rfl, rfl, by decide⟩⟩

theorem witness_InterruptLine :
    (∃ s t, Inv s ∧ step s = .next t ∧ s.agenda = [.regWrite 0x20 1]) ∧
    (∃ s t, Inv s ∧ step s = .next t ∧ s.status.busy = false ∧ t.status.busy = true) ∧
    (∃ s t, Inv s ∧ step s = .next t ∧ s.status.busy = true ∧ t.status.busy = false) ∧
    ∃ s t, Inv s ∧ step s = .next t ∧ s.status.busy = false ∧ s.agenda = [.regWrite 0x08 0x03] :=
  ⟨⟨_, _, inv_failed [.regWrite 0x20 1], rfl, rfl⟩,
    ⟨_, _, inv_idle hashArgs [.regWrite 0x08 0x01], rfl, rfl, by decide +kernel⟩,
    ⟨_, _, inv_hash_finished [.mc], rfl, rfl, rfl⟩, ⟨_, _, inv_failed [.regWrite 0x08 0x03], rfl, rfl, rfl⟩⟩

theorem witness_HostMemoryAccess :
    (1 ≤ 1 ∧ (2 ^ 64 - 1) + 1 ≤ 2 ^ 64) ∧
    (Inv (hashing [] []) ∧ (hashing [] []).status.busy = true ∧
      ∀ i, i < [(1 : Byte)].length → ¬InSrc (hashing [] []).latch.a (0xFF + i) ∧ ¬InDst (hashing [] []).latch.a (0xFF + i)) ∧
    (∃ i, i < [(1 : Byte), 2].length ∧ InSrc (hashing [] []).latch.a (0xFF + i)) ∧
    (∃ i, i < [(1 : Byte)].length ∧ InDst (hashing [] []).latch.a (0x1013 + i)) ∧
    2 ^ 64 < 2 ^ 64 + 1 ∧ 2 ^ 64 < (2 ^ 64 - 1) + [(1 : Byte), 2].length := by
  have src : hashArgs.srcPtr.toNat = 0x100 ∧ hashArgs.srcLen.toNat = 40 := by decide
  have dst : hashArgs.dstPtr.toNat = 0x1000 ∧ hashArgs.dstLen.toNat = 20 := by decide
  refine ⟨by decide, ⟨inv_hash_waiting _, rfl, fun i hi => ?_⟩, ⟨1, by decide, ?_⟩, ⟨0, by decide, ?_⟩, by decide, by decide⟩
  · simp only [hashing, InSrc, InDst, src, dst, List.length_singleton] at hi ⊢; omega
  · simp only [hashing, InSrc, src]; omega
  · simp only [hashing, InDst, dst]; omega

theorem witness_WordsAndBytes :
    [(1 : Byte), 2, 3, 4].length = 4 ∧ (List.replicate 8 (7 : Byte)).length = 8 ∧ 3 < 4 ∧ 7 < 8 := by decide

theorem witness_MdPadLayout :
    ∀ v ∈ [Variant.sha1, .sha2_224, .sha2_256, .sha2_384, .sha2_512, .sha2_512_224, .sha2_512_256],
      (inputI v).length = 2 * dlen v := by decide +kernel

theorem witness_Sha2Schedule :
    (List.replicate 16 (1 : BitVec 32)).length = 16 ∧ (List.replicate 16 (1 : BitVec 64)).length = 16 ∧
      15 < 16 ∧ (16 ≤ 16 ∧ 16 < 64) ∧ (16 ≤ 79 ∧ 79 < 80) := by decide

/-- Blocks 0 and 1 of a padded message of two blocks, the last byte of the last word included; H of eight words; K of
at least 16 words; rounds 0 and the last. -/
theorem witness_Sha2Round :
    (15 < 16 ∧ 3 < 4 ∧ 7 < 8) ∧ (1 + 1) * 64 ≤ (mdPad 64 (inputI .sha2_256)).length ∧
      (1 + 1) * 128 ≤ (mdPad 128 (inputI .sha2_512)).length ∧ (63 < 64 ∧ 79 < 80) ∧
      iv256.length = 8 ∧ 16 ≤ md32.k.length ∧ iv512.length = 8 ∧ 16 ≤ md64.k.length ∧
      1 < mdBlocks 64 (inputI .sha2_256).length := by decide +kernel

/-- 40_md R127, R129, R130 on the input P: W[16], W[63], the first round, and H after each block. -/
theorem test_sha2_256_blocks :
    let m := inputP .sha2_256
    let ws := schedule (expandNext md32) 64 (mdWords 32 64 (mdPad 64 m) 0)
    let r := { (mdRun .full md32 64 iv256 m) with hs := iv256 }
    ws.getD 16 0 = 0x9574B4B2 ∧ ws.getD 63 0 = 0x4BC3AF37 ∧
      mdRound md32 (k256.getD 0 0) (ws.getD 0 0) (workOf iv256) =
        { a := 0xFC08884C, b := 0x6A09E667, c := 0xBB67AE85, d := 0x3C6EF372,
          e := 0x98C7E2A1, f := 0x510E527F, g := 0x9B05688C, h := 0x1F83D9AB } ∧
      (mdBlock .full md32 64 r 0).hs.take 2 = [0xA32577EA, 0xACDEBC18] ∧
      (mdRun .full md32 64 iv256 m).hs.drop 6 = [0xE450382E, 0x55C25348] := by decide +kernel

theorem witness_Sha1Steps :
    (List.replicate 16 (1 : BitVec 32)).length = 16 ∧ 0 < 16 ∧ (16 ≤ 79 ∧ 79 < 80) ∧ 19 ≤ 19 ∧ (20 ≤ 20 ∧ 39 ≤ 39) ∧
      (40 ≤ 40 ∧ 59 ≤ 59) ∧ (60 ≤ 60 ∧ 79 ≤ 79) ∧ ivSha1.length = 5 ∧ 0 < mdBlocks 64 (inputI .sha1).length := by decide

theorem witness_EmittedBytes :
    (20 ≤ 4 * ivSha1.length ∧ 19 < 20) ∧ (28 ≤ 4 * iv224.length ∧ 32 ≤ 4 * iv256.length ∧ 31 < 32) ∧
    (28 ≤ 8 * iv512_224.length ∧ 27 < 28 ∧ 64 ≤ 8 * iv512.length ∧ 63 < 64) ∧
    200 ≤ 8 * (List.replicate 25 (1 : BitVec 64)).length ∧ 199 < 200 := by decide

theorem witness_KpPadLayout :
    ∀ v ∈ [Variant.sha3_224, .sha3_256, .sha3_384, .sha3_512, .keccak_256], (inputI v).length = 2 * dlen v := by decide +kernel

/-- Both blocks of SHA3_512, the last byte of the last lane of the rate, the first and the last lane of the capacity. -/
theorem witness_ChiIotaMapping :
    (List.replicate 25 (1 : BitVec 64)).length = 25 ∧ 23 < 24 ∧ 4 * 5 + 3 < 24 ∧
      (1 + 1) * 72 ≤ (kpPad 72 0x06 (inputI .sha3_512)).length ∧ (8 < 25 ∧ 8 < 72 / 8 ∧ 7 < 8) ∧
      (72 / 8 ≤ 9 ∧ 9 < 25) ∧ 24 < 25 ∧ designOf .sha3_512 = .sponge ∧
      1 < kpBlocks (blockOf .sha3_512) (inputI .sha3_512).length ∧
      (rcTable.getD 23 0).getLsbD 63 = true := by decide +kernel

/-- 41_kp R172: the state after the XOR of block 0 of SHA3_256 on the input P, and R165: θ of it. -/
theorem test_absorb :
    let a := absorb 136 (kpPad 136 0x06 (inputP .sha3_256)) 0 (List.replicate 25 0)
    lane a 3 = 0xFFFFFFFFFFFFFFFF ∧ lane a 4 = 0x0F0F0F0F0F0F0F0F ∧ lane a 8 = 0x06 ∧ lane a 16 = 0x8000000000000000 ∧
      lane a 17 = 0 ∧ lane (thetaC a) 3 = 0xFFFFFFFFFFFFFFF9 ∧ lane (thetaD (thetaC a)) 0 = 0xEEEEEEEEEEEEEEEF := by
  decide +kernel

theorem witness_lane_mappings :
    (0 < 5 ∧ 4 < 5) ∧ (0 < 25 ∧ 24 < 25) ∧ (0 < 24 ∧ 23 < 24) ∧ (List.replicate 25 (1 : BitVec 64)).length = 25 ∧
      ((0 : Nat), (0 : Nat)) ∈ [((0 : Nat), (0 : Nat)), (1, 10)] := by decide

theorem witness_InterleavingLaws : 0 < 32 ∧ 31 < 32 := by decide

end Sys2Proof.Tests
end

/-!
PROOF. The conversions between words and bytes (00_scope R10, 40_md R121, 41_kp R161). All four are one pair: the number
a list of bytes writes in base 256, and the slices of a word; the big-endian forms read and write the list reversed.
-/

namespace Sys2Proof.Machine

open Sys2Proof

/-! ## The number of a list of bytes, the least significant first -/

/-- The number whose base-256 digits are the bytes, the least significant first. -/
def leNat (b : Bytes) : Nat := Nat.ofDigits 256 (b.map BitVec.toNat)

/-- The k lowest bytes of a word, the least significant first. -/
def leBytes {w : Nat} (k : Nat) (x : BitVec w) : Bytes := (List.range k).map fun i => x.extractLsb' (8 * i) 8

@[simp] theorem leBytes_length {w : Nat} (k : Nat) (x : BitVec w) : (leBytes k x).length = k := by simp [leBytes]

/-- Every digit is below the base. -/
theorem byteDigits_lt (b : Bytes) : ∀ d ∈ b.map BitVec.toNat, d < 256 := by
  intro d hd
  obtain ⟨y, -, rfl⟩ := List.mem_map.mp hd
  exact y.isLt

theorem leNat_lt (b : Bytes) : leNat b < 256 ^ b.length := by
  simpa [leNat] using Nat.ofDigits_lt_base_pow_length (by decide) (byteDigits_lt b)

theorem leNat_inj {b c : Bytes} (hlen : b.length = c.length) (h : leNat b = leNat c) : b = c := by
  have hdigits : b.map BitVec.toNat = c.map BitVec.toNat :=
    Nat.ofDigits_inj_of_len_eq (by decide) (by simpa using hlen) (byteDigits_lt b) (byteDigits_lt c) h
  exact List.map_injective_iff.mpr (fun _ _ => BitVec.eq_of_toNat_eq) hdigits

theorem leNat_append (b c : Bytes) : leNat (b ++ c) = leNat b + 256 ^ b.length * leNat c := by
  simp [leNat, Nat.ofDigits_append]

/-- Byte k of a word is digit k of its number. -/
theorem toNat_byte {w : Nat} (x : BitVec w) (k : Nat) :
    (x.extractLsb' (8 * k) 8).toNat = x.toNat / 256 ^ k % 256 := by
  rw [BitVec.extractLsb'_toNat, Nat.shiftRight_eq_div_pow, Nat.pow_mul]

/-- The k lowest bytes of a word write its k lowest digits. -/
theorem leNat_leBytes {w : Nat} (x : BitVec w) (k : Nat) : leNat (leBytes k x) = x.toNat % 256 ^ k := by
  induction k with
  | zero => simp [leBytes, leNat, Nat.mod_one]
  | succ k ih =>
    have hsnoc : leBytes (k + 1) x = leBytes k x ++ [x.extractLsb' (8 * k) 8] := by simp [leBytes, List.range_succ]
    have hlast : leNat [x.extractLsb' (8 * k) 8] = x.toNat / 256 ^ k % 256 := by
      rw [← toNat_byte]; simp [leNat]
    rw [hsnoc, leNat_append, leBytes_length, ih, hlast, Nat.mod_pow_succ]

/-! ## The two directions, for words of any number of bytes -/

theorem pow_256_eq {w k : Nat} (hw : w = 8 * k) : 256 ^ k = 2 ^ w := by rw [hw, Nat.pow_mul]

theorem ofNat_leNat_leBytes {w k : Nat} (hw : w = 8 * k) (x : BitVec w) : BitVec.ofNat w (leNat (leBytes k x)) = x := by
  apply BitVec.eq_of_toNat_eq
  rw [leNat_leBytes, pow_256_eq hw, BitVec.toNat_ofNat, Nat.mod_mod, Nat.mod_eq_of_lt x.isLt]

theorem leBytes_ofNat_leNat {w k : Nat} (hw : w = 8 * k) {b : Bytes} (hb : b.length = k) :
    leBytes k (BitVec.ofNat w (leNat b)) = b := by
  have hlt : leNat b < 2 ^ w := by rw [← pow_256_eq hw, ← hb]; exact leNat_lt b
  apply leNat_inj (by rw [leBytes_length, hb])
  rw [leNat_leBytes, pow_256_eq hw, BitVec.toNat_ofNat, Nat.mod_mod, Nat.mod_eq_of_lt hlt]

/-! ## Lanes -/

theorem leLane_eq (b : Bytes) : leLane b = BitVec.ofNat 64 (leNat b) := by
  rw [leLane, leNat, Nat.ofDigits_eq_foldr, List.foldr_map]; rfl

theorem toLe_eq (x : BitVec 64) : toLe x = leBytes 8 x := rfl

@[simp] theorem leLane_toLe (x : BitVec 64) : leLane (toLe x) = x := by
  rw [leLane_eq, toLe_eq]
  exact ofNat_leNat_leBytes (k := 8) rfl x

theorem toLe_leLane {b : Bytes} (hb : b.length = 8) : toLe (leLane b) = b := by
  rw [leLane_eq, toLe_eq, leBytes_ofNat_leNat rfl hb]

theorem toLe_getD (x : BitVec 64) {i : Nat} (h : i < 8) : (toLe x).getD i 0 = x.extractLsb' (8 * i) 8 :=
  getD_map_range _ 8 i 0 h

/-! ## Big-endian words -/

theorem beWord_eq (w : Nat) (b : Bytes) : beWord w b = BitVec.ofNat w (leNat b.reverse) := by
  have hfold : b.foldl (fun n y => n * 256 + y.toNat) 0 = b.reverse.foldr (fun y n => y.toNat + 256 * n) 0 := by
    rw [List.foldr_reverse]
    congr
    funext n y
    omega
  rw [beWord, hfold, leNat, Nat.ofDigits_eq_foldr, List.foldr_map]; rfl

theorem toBe_getD {w : Nat} (x : BitVec w) {i : Nat} (h : i < w / 8) :
    (toBe x).getD i 0 = x.extractLsb' (w - 8 - 8 * i) 8 := getD_map_range _ (w / 8) i 0 h

theorem toBe_eq {w k : Nat} (hw : w = 8 * k) (x : BitVec w) : toBe x = (leBytes k x).reverse := by
  have hk : w / 8 = k := by omega
  refine List.ext_getElem (by simp [hk]) fun i h1 _ => ?_
  have hi : i < k := by simpa [hk] using h1
  have hpos : w - 8 - 8 * i = 8 * (k - 1 - i) := by omega
  simp [toBe, leBytes, hpos]

theorem beWord_toBe {w k : Nat} (hw : w = 8 * k) (x : BitVec w) : beWord w (toBe x) = x := by
  rw [beWord_eq, toBe_eq hw, List.reverse_reverse, ofNat_leNat_leBytes hw]

theorem toBe_beWord {w k : Nat} (hw : w = 8 * k) {b : Bytes} (hb : b.length = k) : toBe (beWord w b) = b := by
  rw [beWord_eq, toBe_eq hw, leBytes_ofNat_leNat hw (by rw [List.length_reverse, hb]), List.reverse_reverse]

/-- Settles O46: the three forms are the general round trips at 4 and 8 bytes. -/
theorem wordsAndBytes : Obligations.WordsAndBytes :=
  ⟨fun x => ⟨beWord_toBe (k := 4) rfl x, toBe_length x, fun _ hi => toBe_getD x hi⟩,
    fun x => ⟨beWord_toBe (k := 8) rfl x, toBe_length x, fun _ hi => toBe_getD x hi⟩,
    fun x => ⟨leLane_toLe x, toLe_length x, fun _ hi => toLe_getD x hi⟩,
    fun _ hb => toBe_beWord rfl hb, fun _ hb => toBe_beWord rfl hb, fun _ hb => toLe_leLane hb⟩

end Sys2Proof.Machine

/-!
PROOF. The register port: what each field of a status or control word is, what an argument register holds after a write
to one, and what a read and a write of each offset do (10_state R23 to R29; 44_system R256, R257).
-/

namespace Sys2Proof.Machine

open Sys2Proof

/-! ## STATUS and CTRL as words -/

/-- Bit n of a flag read as a number of one bit. -/
theorem flagBit_getLsbD (b : Bool) (n : Nat) : (flagBit b).getLsbD n = (decide (n = 0) && b) := by
  simp [flagBit, BitVec.getLsbD_ofBool]

/-- STATUS bit by bit: the flags, the reserved bits, ERRCODE in bits 15:8 (10_state R26). -/
theorem statusWord_getLsbD (t : Status) (n : Nat) :
    (statusWord t).getLsbD n =
      if n = 0 then t.busy else if n = 1 then t.done else if n = 2 then t.err else if n = 3 then t.ovr
      else if 8 ≤ n ∧ n < 16 then t.errCode.getLsbD (n - 8) else false := by
  rcases Nat.lt_or_ge n 4 with h | h
  · interval_cases n <;> simp only [statusWord, BitVec.getLsbD_append, flagBit_getLsbD] <;> rfl
  · rw [if_neg (show n ≠ 0 by omega), if_neg (show n ≠ 1 by omega), if_neg (show n ≠ 2 by omega),
      if_neg (show n ≠ 3 by omega)]
    obtain ⟨k, rfl⟩ : ∃ k, n = k + 1 + 1 + 1 + 1 := ⟨n - 4, by omega⟩
    simp only [statusWord, BitVec.getLsbD_append, Nat.add_sub_cancel, Nat.lt_one_iff,
      Nat.add_one_ne_zero, if_false]
    rcases Nat.lt_or_ge k 4 with h4 | h4
    · rw [if_pos h4, if_neg (show ¬(8 ≤ k + 1 + 1 + 1 + 1 ∧ _) by omega)]
      exact BitVec.getLsbD_zero
    · rw [if_neg (show ¬k < 4 by omega)]
      rcases Nat.lt_or_ge (k - 4) 8 with h8 | h8
      · rw [if_pos h8, if_pos (by omega)]
        congr 1
      · rw [if_neg (show ¬k - 4 < 8 by omega), if_neg (by omega)]
        exact BitVec.getLsbD_zero

theorem statusWord_errCode (t : Status) : (statusWord t).extractLsb' 8 8 = t.errCode := by
  refine BitVec.eq_of_getLsbD_eq fun i hi => ?_
  simp only [BitVec.getLsbD_extractLsb', statusWord_getLsbD, hi, decide_true, Bool.true_and]
  rw [if_neg (by omega), if_neg (by omega), if_neg (by omega), if_neg (by omega), if_pos (by omega),
    Nat.add_sub_cancel_left]

/-- CTRL bit by bit (10_state R28). -/
theorem ctrlWord_getLsbD (ie : Bool) (n : Nat) : (ctrlWord ie).getLsbD n = (decide (n = 0) && ie) := by
  rw [ctrlWord, BitVec.getLsbD_append, flagBit_getLsbD]
  split
  · rfl
  · simp
    omega

/-! ## Argument registers by number -/

/-- What x[m] holds after a write to number n; there are seven registers, and another number writes none of them. -/
theorem argGet_argSet (x : Args) (n m : Nat) (v : Word) :
    argGet (argSet x n v) m = if m = n ∧ n < 7 then some v else argGet x m := by
  by_cases hn : n < 7
  · by_cases hm : m = n
    · subst hm
      interval_cases m <;> rfl
    · rw [if_neg fun h => hm h.1]
      by_cases hm7 : m < 7
      · interval_cases n <;> interval_cases m <;> simp [argGet, argSet] at hm ⊢
      · obtain ⟨k, rfl⟩ : ∃ k, m = k + 7 := ⟨m - 7, by omega⟩
        rfl
  · obtain ⟨k, rfl⟩ : ∃ k, n = k + 7 := ⟨n - 7, by omega⟩
    rw [if_neg fun h => hn h.2]
    rfl

/-! ## One lemma for each kind of offset -/

theorem registerOffsetWf_iff {offset : Nat} : registerOffsetWf offset = true ↔ offset % 8 = 0 ∧ offset < 0x80 := by
  simp [registerOffsetWf]

theorem perform_regRead {offset : Nat} (h : registerOffsetWf offset = true) (s : State) :
    perform (.regRead offset) s = .next { s with replies := .reg offset (regValue s offset) :: s.replies } :=
  regRead_eq h s

/-- An access off the registers is refused (log 13). -/
theorem perform_reg_refused {offset : Nat} (h : registerOffsetWf offset = false) (s : State) (v : Word) :
    perform (.regRead offset) s = .refused (.registerAccess offset) ∧
      perform (.regWrite offset v) s = .refused (.registerAccess offset) := by
  simp [perform, regRead, regWrite, h]

theorem perform_regWrite_ctrl (v : Word) (s : State) :
    perform (.regWrite 0x20 v) s = .next (s.withIe (v.getLsbD 0)) := rfl

theorem perform_regWrite_arg {n : Nat} (hn : n < 8) (v : Word) (s : State) :
    perform (.regWrite (0x40 + 8 * n) v) s = .next (s.withX (argSet s.x n v)) := by
  have hw : registerOffsetWf (0x40 + 8 * n) = true := registerOffsetWf_iff.mpr (by omega)
  have hnum : (0x40 + 8 * n - 0x40) / 8 = n := by omega
  rw [perform, regWrite, if_pos hw, if_neg (by omega), if_neg (by omega), if_pos (by omega), hnum]

/-- The read-only registers and the reserved offsets: all that are neither CMD, nor CTRL, nor an argument. -/
theorem perform_regWrite_ignored {offset : Nat} (h : offset ∈ [0x00, 0x10, 0x18, 0x28, 0x30, 0x38, 0x78]) (v : Word)
    (s : State) : perform (.regWrite offset v) s = .next s := by
  simp only [List.mem_cons, List.not_mem_nil, or_false] at h
  rcases h with rfl | rfl | rfl | rfl | rfl | rfl | rfl <;> rfl

/-! ## The statements about the port -/

/-- Settles O36: the read and the ignored write of offset 0, and the fields of the constant. -/
theorem idConstant : Obligations.IdConstant := fun s =>
  ⟨idWord, perform_regRead (offset := 0x00) rfl s, rfl, by decide, by decide, by decide, by decide,
    fun v => perform_regWrite_ignored (by decide) v s⟩

/-- Settles O37: these four are among the offsets whose write is ignored, and `regValue` gives 0 for each. -/
theorem reservedOffsets : Obligations.ReservedOffsets := by
  intro s offset h
  have hsub : offset ∈ [0x00, 0x10, 0x18, 0x28, 0x30, 0x38, 0x78] := by
    simp only [List.mem_cons, List.not_mem_nil, or_false] at h ⊢
    omega
  refine ⟨?_, fun v => perform_regWrite_ignored hsub v s⟩
  simp only [List.mem_cons, List.not_mem_nil, or_false] at h
  rcases h with rfl | rfl | rfl | rfl <;> rfl

/-- Settles O38: one read for all offsets, then the value field by field. -/
theorem registerReadValues : Obligations.RegisterReadValues := by
  refine ⟨fun s offset h8 hlt => ?_, fun s offset v hn => ?_⟩
  · refine ⟨regValue s offset, perform_regRead (registerOffsetWf_iff.mpr ⟨h8, hlt⟩) s, ?_⟩
    refine ⟨?id, ?cmd, ?status, ?errInfo, ?ctrl, ?reserved, ?x0, ?x1, ?x2, ?x3, ?x4, ?x5, ?x6⟩
    case status =>
      rintro rfl
      refine ⟨statusWord_getLsbD _ 0, statusWord_getLsbD _ 1, statusWord_getLsbD _ 2, statusWord_getLsbD _ 3,
        statusWord_errCode _, fun n hn => (statusWord_getLsbD _ n).trans ?_⟩
      rw [if_neg (by omega), if_neg (by omega), if_neg (by omega), if_neg (by omega), if_neg (by omega)]
    case ctrl =>
      rintro rfl
      exact ⟨ctrlWord_getLsbD _ 0, fun n hn => (ctrlWord_getLsbD _ n).trans (by rw [decide_eq_false (by omega)]; rfl)⟩
    case reserved => rintro (rfl | rfl | rfl | rfl) <;> rfl
    all_goals rintro rfl; rfl
  · exact perform_reg_refused (by rwa [← Bool.not_eq_true, registerOffsetWf_iff]) s v

/-- Settles O39: by kind of offset. -/
theorem registerWriteEffects : Obligations.RegisterWriteEffects := by
  refine fun s v => ⟨fun _ h => perform_regWrite_ignored h v s, perform_regWrite_ctrl v s, fun n hn => ?_⟩
  refine ⟨s.withX (argSet s.x n v), perform_regWrite_arg (by omega) v s, rfl, ?_, fun m hm => ?_⟩
  · rw [State.withX_x, argGet_argSet, if_pos ⟨rfl, hn⟩]
  · rw [State.withX_x, argGet_argSet, if_neg fun h => hm h.1]

end Sys2Proof.Machine

/-!
PROOF. Every step keeps the machine's invariant (10_state R26, R27, R30 to R32): one lemma for each way a part of the
state changes, put together over the effects of a step. A LOADED unit holds dlen bytes because every compression gives
that many; a store step, whole or torn, keeps the memory's canonical form because the unit's output bytes exist.
-/

namespace Sys2Proof.Machine

open Sys2Proof

/-! ## The length of a digest -/

theorem mdEmit_length {w : Nat} {len : Nat} {hs : List (BitVec w)} (h : len ≤ w / 8 * hs.length) :
    (mdEmit len hs).length = len := by
  simpa [mdEmit, List.length_flatMap, Nat.mul_comm] using h

theorem squeeze_length {len : Nat} {a : List (BitVec 64)} (h : len ≤ 8 * a.length) : (squeeze len a).length = len := by
  simpa [squeeze, List.length_flatMap, Nat.mul_comm] using h

theorem iv32Of_length (v : Variant) : (iv32Of v).length = 8 := by cases v <;> rfl

theorem iv64Of_length (v : Variant) : (iv64Of v).length = 8 := by cases v <;> rfl

/-- The longest digest of each design, in bytes. -/
def longestDigest : Design → Nat
  | .sha1 => 20
  | .md32 => 32
  | .md64 => 64
  | .sponge => 64

theorem dlen_le_longestDigest (v : Variant) : dlen v ≤ longestDigest (designOf v) := by cases v <;> decide

/-- Every compression gives dlen bytes. -/
theorem compress_length (v : Variant) (m : Bytes) : (compress v m).length = dlen v := by
  have hd := dlen_le_longestDigest v
  unfold compress runEngine
  cases hv : designOf v <;> rw [hv] at hd <;> simp only [digestOf]
  case sha1 => exact mdEmit_length (by rw [sha1Run_hs_length]; exact hd)
  case md32 => exact mdEmit_length (by rw [mdRun_hs_length _ _ _ _ _ (iv32Of_length v)]; exact hd)
  case md64 => exact mdEmit_length (by rw [mdRun_hs_length _ _ _ _ _ (iv64Of_length v)]; exact hd)
  case sponge => exact squeeze_length (by rw [kpRun_a_length]; exact hd.trans (by decide))

/-! ## The parts of the invariant, one change at a time -/

/-- The invariant speaks of memory, STATUS, ERRINFO, LATCH and SEQ alone. -/
theorem Inv.of_same_core {s t : State} (h : Inv s) (hm : t.mem = s.mem) (hst : t.status = s.status)
    (he : t.errInfo = s.errInfo) (hl : t.latch = s.latch) (hq : t.seq = s.seq) : Inv t := by
  cases s
  cases t
  subst hm hst he hl hq
  exact ⟨h.memWf, h.memBounded, h.idle, h.flags, h.errors, ⟨h.seq.hash, h.seq.level, h.seq.table, h.seq.units⟩⟩

theorem Inv.withMem {s : State} (h : Inv s) {m : Memory} (hw : Memory.wf m = true) (hb : Memory.bounded m = true) :
    Inv (s.withMem m) :=
  ⟨hw, hb, h.idle, h.flags, h.errors, ⟨h.seq.hash, h.seq.level, h.seq.table, h.seq.units⟩⟩

theorem SeqSound.of_idle {s : State} (h : s.seq.phase = .idle) : SeqSound s where
  hash hp := by simp [h] at hp
  level hp := by simp [h] at hp
  table hp := absurd h hp
  units hp := absurd h hp

/-- While nothing runs, what is left of the invariant is the memory, the flags and the error record. -/
theorem Inv.of_idle {s : State} (hw : Memory.wf s.mem = true) (hb : Memory.bounded s.mem = true)
    (hp : s.seq.phase = .idle) (hbusy : s.status.busy = false) (hflags : ¬(s.status.done = true ∧ s.status.err = true))
    (he : errorRecordSound s) : Inv s :=
  ⟨hw, hb, by simp [hp, hbusy], by simp_all [flagsExclusive], he, .of_idle hp⟩

theorem Inv.idle_of_free {s : State} (h : Inv s) (hd : dropped s = false) : s.seq.phase = .idle :=
  h.idle.mpr (dropped_eq_false.mp hd).1

/-- A unit that exists moves to a phase the variant can give it. -/
theorem Inv.setUnit {s : State} (h : Inv s) {i : Nat} (hi : i < unitCount s) {p : UnitPhase}
    (hp : phaseSound s.latch.variant p) : Inv (setUnit i p s) where
  memWf := h.memWf
  memBounded := h.memBounded
  idle := h.idle
  flags := h.flags
  errors := h.errors
  seq :=
    { hash := h.seq.hash
      level := h.seq.level
      table := fun hr => sparsePut_wf i p (h.seq.table hr)
      units := fun hr q hq => by
        rcases mem_sparsePut hq with rfl | hq
        · exact ⟨hi, hp⟩
        · exact h.seq.units hr q hq }

/-! ## The parts of a command's life -/

theorem Inv.dropCommand {s : State} (h : Inv s) : Inv (dropCommand s) :=
  ⟨h.memWf, h.memBounded, h.idle, h.flags, h.errors, ⟨h.seq.hash, h.seq.level, h.seq.table, h.seq.units⟩⟩

theorem Inv.acknowledge {s : State} (h : Inv s) (hb : s.status.busy = false) : Inv (acknowledge s) :=
  .of_idle h.memWf h.memBounded (h.idle.mpr hb) hb (by simp [Machine.acknowledge])
    ⟨fun _ => ⟨rfl, rfl⟩, fun he => by simp [Machine.acknowledge] at he⟩

theorem Inv.refuse {s : State} (h : Inv s) (hd : dropped s = false) (e : ErrCode) (info : Word) :
    Inv (raiseError e info (clearDone s)) :=
  .of_idle h.memWf h.memBounded (h.idle_of_free hd) (dropped_eq_false.mp hd).1 (by simp [raiseError, clearDone])
    ⟨fun he => by simp [raiseError] at he, fun _ => ⟨e, rfl⟩⟩

/-- An accept keeps the invariant when the latch it writes has passed the checks of its operation. -/
theorem Inv.accept {s : State} (h : Inv s) (hd : dropped s = false) {op : Op} {v : Variant}
    (hq : SeqSound (acceptCommand op v (clearDone s))) : Inv (acceptCommand op v (clearDone s)) where
  memWf := h.memWf
  memBounded := h.memBounded
  idle := by cases op <;> simp [acceptCommand, seqAtAccept]
  flags := by
    have herr : (acceptCommand op v (clearDone s)).status.err = false := (dropped_eq_false.mp hd).2
    have hdone : (acceptCommand op v (clearDone s)).status.done = false := rfl
    simp [flagsExclusive, herr, hdone]
  errors := h.errors
  seq := hq

theorem seqSound_acceptHash {s : State} {v : Variant} (ok : checkHash v s.x = none) :
    SeqSound (acceptCommand .hash v (clearDone s)) where
  hash _ := ⟨rfl, ok⟩
  level hp := by simp [acceptCommand, seqAtAccept] at hp
  table _ := rfl
  units _ p hp := by simp [acceptCommand, seqAtAccept] at hp

theorem seqSound_acceptMerklize {s : State} {v : Variant} (ok : checkMerklize v s.x = none) :
    SeqSound (acceptCommand .merklize v (clearDone s)) where
  hash hp := by simp [acceptCommand, seqAtAccept] at hp
  level _ := by
    obtain ⟨L, hL⟩ := checkMerklize_eq_none.mp ok
    have hk : 0 < levels s.x.leafCount.toNat := by rw [hL.leaves, levels_two_pow]; exact hL.one_le
    exact ⟨rfl, ok, hk⟩
  table _ := rfl
  units _ p hp := by simp [acceptCommand, seqAtAccept] at hp

/-- A backend failure ends a running command, which had no error before. -/
theorem Inv.failBackend {s : State} (h : Inv s) (hp : s.seq.phase ≠ .idle) (addr : Nat) : Inv (failBackend addr s) :=
  .of_idle h.memWf h.memBounded rfl rfl (by simp [Machine.failBackend, h.done_of_busy (h.busy_of_phase hp)])
    ⟨fun he => by simp [Machine.failBackend] at he, fun _ => ⟨.backend, rfl⟩⟩

theorem Inv.completeCommand {s : State} (h : Inv s) (hp : s.seq.phase ≠ .idle) : Inv (completeCommand s) :=
  .of_idle h.memWf h.memBounded rfl rfl (by simp [Machine.completeCommand, h.err_of_busy (h.busy_of_phase hp)]) h.errors

/-- The level after one that is not the last exists, and its units all wait. -/
theorem Inv.openNextLevel {s : State} (h : Inv s) (hp : s.seq.phase = .runLevel)
    (more : levelSize s.latch.a.leafCount.toNat (s.seq.k + 1) ≠ 1) : Inv (openNextLevel s) where
  memWf := h.memWf
  memBounded := h.memBounded
  idle := h.idle
  flags := h.flags
  errors := h.errors
  seq :=
    { hash := h.seq.hash
      level := fun _ => by
        obtain ⟨hop, hc, -⟩ := h.seq.level hp
        obtain ⟨L, hL, hk⟩ := h.legal_tree hp
        have hne : s.seq.k + 1 ≠ L := by
          rintro rfl
          rw [hL.leaves, levelSize_two_pow (Nat.le_refl _), Nat.sub_self] at more
          exact more rfl
        have hlt : s.seq.k + 1 < levels s.latch.a.leafCount.toNat := by rw [hL.leaves, levels_two_pow]; omega
        exact ⟨hop, hc, hlt⟩
      table := fun _ => rfl
      units := fun _ p hm => by simp [Machine.openNextLevel] at hm }

/-! ## Stores in progress at a reset -/

/-- What holds of memory before the torn stores and is kept by each of them holds after: each is a part of the write
of a LOADED unit that the reset names, to bytes that exist (70_reset R312). -/
theorem tearStores_keeps {s : State} {P : Memory → Prop} (torn : List (Nat × List Bool))
    (hP : ∀ m i subset regs d, (i, subset) ∈ torn → i < unitCount s → unitPhase s i = .loaded regs d →
      unitOut s i + d.length ≤ 2 ^ 64 → P m → P (writeSome m (unitOut s i) d subset))
    {m : Memory} (hm : P m) : P (tearStores s torn m) := by
  induction torn generalizing m with
  | nil => exact hm
  | cons head r ih =>
    obtain ⟨i, subset⟩ := head
    have hr := fun {m} => ih (m := m) fun m j t regs d hj => hP m j t regs d (List.mem_cons_of_mem _ hj)
    rcases tearStores_cons s i subset r m with h | ⟨regs, d, hi, hp, htop, h⟩ <;> rw [h]
    · exact hr hm
    · exact hr (hP m i subset regs d List.mem_cons_self hi hp htop hm)

theorem Inv.resetStep {s : State} (h : Inv s) (torn : List (Nat × List Bool)) : Inv (resetStep torn s) := by
  have hmem : Memory.wf (tearStores s torn s.mem) = true ∧ Memory.bounded (tearStores s torn s.mem) = true :=
    tearStores_keeps (P := fun m => Memory.wf m = true ∧ Memory.bounded m = true) torn
      (fun _ _ t _ d _ _ _ htop hm => ⟨writeSome_wf _ d t hm.1, writeSome_bounded t htop hm.2⟩)
      ⟨h.memWf, h.memBounded⟩
  exact .of_idle hmem.1 hmem.2 rfl rfl (by simp [Machine.resetStep, State.reset, Status.zero])
    ⟨fun _ => ⟨rfl, rfl⟩, fun he => by simp [Machine.resetStep, State.reset, Status.zero] at he⟩

/-! ## Every effect, and so every step -/

theorem Effect.keeps_inv {s t : State} (e : Effect s t) (h : Inv s) : Inv t := by
  cases e with
  | same => exact h
  | reply r => exact h.of_same_core rfl rfl rfl rfl rfl
  | setArgs x => exact h.of_same_core rfl rfl rfl rfl rfl
  | setIe b => exact h.of_same_core rfl rfl rfl rfl rfl
  | hostWrite addr bytes top free => exact h.withMem (writeBytes_wf _ _ h.memWf) (writeBytes_bounded top h.memBounded)
  | drop hd => exact h.dropCommand
  | acknowledge hb => exact h.acknowledge hb
  | refuse e info hd => exact h.refuse hd e info
  | acceptHash v hd ok => exact h.accept hd (seqSound_acceptHash ok)
  | acceptMerklize v hd ok => exact h.accept hd (seqSound_acceptMerklize ok)
  | load i port m hi hp hm => exact h.setUnit hi (compress_length _ m)
  | loadFails i addr hi hp => exact h.failBackend (unitCount_pos_phase hi) addr
  | store i regs d hi hp top =>
    have hw := h.withMem (writeBytes_wf (unitOut s i) d h.memWf) (writeBytes_bounded top h.memBounded)
    exact hw.setUnit hi trivial
  | storeFails i regs d t hi hp top =>
    have hw := h.withMem (writeSome_wf (unitOut s i) d t h.memWf) (writeSome_bounded t top h.memBounded)
    exact hw.failBackend (unitCount_pos_phase hi) _
  | completeHash hp hb => exact h.completeCommand (by simp [hp])
  | completeMerklize hp hb root => exact h.completeCommand (by simp [hp])
  | nextLevel hp hb more => exact h.openNextLevel hp more
  | reset torn => exact h.resetStep torn

/-- Settles O8: every step has one of the effects, and each of them keeps the invariant. -/
theorem stepKeepsInvariant : Obligations.StepKeepsInvariant := by
  intro s t h hstep
  obtain ⟨r, e⟩ := step_effect hstep
  exact e.keeps_inv (h.agenda_free r)

end Sys2Proof.Machine

/-!
PROOF. Reset: the values it leaves, that they are sound, what a command issued then is answered with, and which bytes a
reset with stores in progress changes (10_state R41; 70_reset R310 to R313).
-/

namespace Sys2Proof.Machine

open Sys2Proof

/-! ## The state after reset -/

/-- With arguments 0 the first check of HASH fails (70_reset R313). -/
theorem checkHash_zero (v : Variant) : checkHash v Args.zero = some (.shape, 0) := by
  have hlen : Args.zero.srcLen.toNat ≠ 2 * dlen v := by
    have := dlen_pos v
    rw [show Args.zero.srcLen.toNat = 0 from rfl]
    omega
  rw [checkHash, if_pos hlen]
  rfl

/-- With arguments 0 the first check of MERKLIZE fails (70_reset R313). -/
theorem checkMerklize_zero (v : Variant) : checkMerklize v Args.zero = some (.leafCount, 0) := rfl

/-- A command that fails a check is refused by a block that takes commands. -/
theorem issueCommand_refused {op : Op} {v : Variant} {e : ErrCode} {info : Word} {s : State} (hd : dropped s = false) :
    issueCommand op v (some (e, info)) s = refusedWith e.byte info s := by
  rw [issueCommand, hd]
  rfl

/-- Settles O6: the values by evaluation, the answers by the first check, which fails for every variant. -/
theorem resetValues : Obligations.ResetValues := by
  refine ⟨fun n hn => ?_, rfl, rfl, rfl, rfl, rfl, rfl, rfl, fun v => ?_, fun v => ?_⟩
  · interval_cases n <;> rfl
  · rw [exec_hashOf, issueHash, show State.reset.x = Args.zero from rfl, checkHash_zero, issueCommand_refused rfl]
    rfl
  · rw [exec_merklizeOf, issueMerklize, show State.reset.x = Args.zero from rfl, checkMerklize_zero,
      issueCommand_refused rfl]
    rfl

theorem inv_reset : Inv State.reset :=
  .of_idle rfl rfl rfl rfl (by simp [State.reset, Status.zero])
    ⟨fun _ => ⟨rfl, rfl⟩, fun he => by simp [State.reset, Status.zero] at he⟩

/-- Settles O7: nothing runs, so there is no tree to be sound. -/
theorem resetIsSound : Obligations.ResetIsSound := ⟨inv_reset, fun hp => by simp [State.reset] at hp⟩

/-! ## Reset in any state -/

/-- A partial write changes none but bytes of its range. -/
theorem writeSome_changes {m : Memory} (hm : Memory.wf m = true) {a c : Nat} {bs : Bytes} {t : List Bool}
    (h : readByte (writeSome m a bs t) c ≠ readByte m c) : a ≤ c ∧ c < a + bs.length := by
  rw [readByte_writeSome hm] at h
  by_contra hc
  exact h (if_neg fun hin => hc ⟨hin.1, hin.2.1⟩)

/-- A byte that a reset changes belongs to the write of a LOADED unit that the reset names (70_reset R312). -/
theorem tearStores_changes {s : State} {torn : List (Nat × List Bool)} {m : Memory} (hm : Memory.wf m = true) {c : Nat}
    (h : readByte (tearStores s torn m) c ≠ readByte m c) :
    ∃ i subset regs d, (i, subset) ∈ torn ∧ i < unitCount s ∧ unitPhase s i = .loaded regs d ∧
      unitOut s i ≤ c ∧ c < unitOut s i + d.length := by
  by_contra hnone
  have hkept : Memory.wf (tearStores s torn m) = true ∧ readByte (tearStores s torn m) c = readByte m c := by
    refine tearStores_keeps (P := fun m' => Memory.wf m' = true ∧ readByte m' c = readByte m c) torn
      (fun m' i subset regs d hmem hi hp _ hm' => ⟨writeSome_wf _ d subset hm'.1, ?_⟩) ⟨hm, rfl⟩
    by_contra hne
    obtain ⟨hlo, hhi⟩ := writeSome_changes hm'.1 (hm'.2.symm ▸ hne)
    exact hnone ⟨i, subset, regs, d, hmem, hi, hp, hlo, hhi⟩
  exact h hkept.2

/-- Settles O35: the registers are those of the reset state; memory by `tearStores_changes`. -/
theorem resetStep_taken : Obligations.ResetStep := by
  intro s torn rest h ha
  refine ⟨resetStep torn (s.withAgenda rest), step_cons ha, rfl, rfl, rfl, rfl, rfl, rfl, rfl, rfl, ?_, fun c hc => ?_⟩
  · rintro rfl
    rfl
  · exact tearStores_changes (s := s.withAgenda rest) h.memWf hc

end Sys2Proof.Machine

/-!
PROOF. Whose step may change x and CTRL.IE, and the level of `irq` (10_state R22, R39; 60_exceptions R268, R285). What
both rest on: every step but a reset and a host write to x or CTRL leaves these registers alone, and ends a command with
DONE or ERR up.
-/

namespace Sys2Proof.Machine

open Sys2Proof

/-! ## Steps that leave the host's registers alone -/

/-- The step from `s` to `t` is none of the host's on x or CTRL, and no reset: these registers stay, and if BUSY falls
then DONE or ERR is up. -/
structure HostRegsKept (s t : State) : Prop where
  x : t.x = s.x
  ie : t.ie = s.ie
  falls : s.status.busy = true → t.status.busy = false → t.status.done = true ∨ t.status.err = true

/-- A state that differs in nothing the host's registers or STATUS show. -/
theorem HostRegsKept.of_same {s t : State} (hx : t.x = s.x) (hi : t.ie = s.ie) (hs : t.status = s.status) :
    HostRegsKept s t := ⟨hx, hi, fun h1 h2 => by simp [hs, h1] at h2⟩

theorem hostRegsKept_fail (s : State) (m : Memory) (addr : Nat) : HostRegsKept s (failBackend addr (s.withMem m)) :=
  ⟨rfl, rfl, fun _ _ => .inr rfl⟩

theorem hostRegsKept_complete (s : State) : HostRegsKept s (completeCommand s) := ⟨rfl, rfl, fun _ _ => .inl rfl⟩

theorem hostRegsKept_drop (s : State) : HostRegsKept s (dropCommand s) := ⟨rfl, rfl, fun h1 h2 => by
  rw [show (dropCommand s).status.busy = s.status.busy from rfl, h1] at h2
  contradiction⟩

/-- A taken CMD write with BUSY = 0 ends no command. -/
theorem HostRegsKept.of_idle {s t : State} (hx : t.x = s.x) (hi : t.ie = s.ie) (hb : s.status.busy = false) :
    HostRegsKept s t := ⟨hx, hi, fun h => by simp [hb] at h⟩

theorem exec_keeps_hostRegs {i : Instr} {s t : State} (h : exec i s = .next t) : HostRegsKept s t := by
  rcases exec_cases i s with ⟨-, he⟩ | ⟨hb, -, he⟩ | ⟨hd, e, info, he, -⟩ | ⟨hd, op, v, he, -⟩ <;>
    obtain rfl := Host.Outcome.next.inj (he.symm.trans h)
  · exact hostRegsKept_drop s
  · exact .of_idle rfl rfl hb
  · exact .of_idle rfl rfl (dropped_eq_false.mp hd).1
  · exact .of_idle rfl rfl (dropped_eq_false.mp hd).1

theorem cmdWrite_keeps_hostRegs {c : Word} {s t : State} (h : cmdWrite c s = .next t) : HostRegsKept s t := by
  rcases cmdWrite_cases c s with ⟨i, -, he⟩ | ⟨-, he⟩ | ⟨hd, -, he⟩ | ⟨hd, -, he⟩
  · exact exec_keeps_hostRegs (he.symm.trans h)
  all_goals obtain rfl := Host.Outcome.next.inj (he.symm.trans h)
  · exact hostRegsKept_drop s
  · exact .of_idle rfl rfl (dropped_eq_false.mp hd).1
  · exact .of_idle rfl rfl (dropped_eq_false.mp hd).1

theorem unitStep_keeps_hostRegs {i : Nat} {port : PortAnswer} {s t : State} (h : unitStep i port s = .next t) :
    HostRegsKept s t := by
  rcases unitStep_cases i port s with ⟨-, he⟩ | ⟨-, -, he⟩ | ⟨regs, d, -, -, he⟩ <;> have ht := he.symm.trans h
  · obtain rfl := Host.Outcome.next.inj ht
    exact .of_same rfl rfl rfl
  · rcases loadStep_cases i port s with ⟨m, -, hl⟩ | ⟨a, -, hl⟩ | ⟨a, -, hl⟩ <;> rw [hl] at ht
    · obtain rfl := Host.Outcome.next.inj ht
      exact .of_same rfl rfl rfl
    · obtain rfl := Host.Outcome.next.inj ht
      exact hostRegsKept_fail s s.mem a
    · contradiction
  · rcases storeStep_cases i d port s with ⟨-, -, hl⟩ | ⟨-, -, hl⟩ | ⟨-, hl⟩ <;> rw [hl] at ht
    · obtain rfl := Host.Outcome.next.inj ht
      exact .of_same rfl rfl rfl
    · obtain rfl := Host.Outcome.next.inj ht
      exact hostRegsKept_fail s _ _
    · contradiction

theorem mcStep_keeps_hostRegs {s t : State} (h : mcStep s = .next t) : HostRegsKept s t := by
  rcases mcStep_cases s with ⟨-, he⟩ | ⟨-, -, he⟩ | ⟨-, -, -, he⟩ | ⟨-, -, -, he⟩ <;>
    obtain rfl := Host.Outcome.next.inj (he.symm.trans h)
  · exact .of_same rfl rfl rfl
  · exact hostRegsKept_complete s
  · exact hostRegsKept_complete s
  · exact .of_same rfl rfl rfl

theorem idleMove_keeps_hostRegs {s t : State} (h : idleMove s = .next t) : HostRegsKept s t := by
  unfold idleMove at h
  cases hp : s.seq.phase <;> simp only [hp] at h
  case idle =>
    obtain rfl := Host.Outcome.next.inj h
    exact .of_same rfl rfl rfl
  all_goals
    split at h
    · exact mcStep_keeps_hostRegs h
    · exact unitStep_keeps_hostRegs h

/-! ## Once for all moves -/

/-- What a move can do to x and CTRL: a reset, a host write to CTRL, a host write to an argument register, or nothing.
The eighth place, offset 0x78, is reserved: `argSet` writes nothing there. -/
theorem perform_hostRegs_cases {m : Move} {s t : State} (h : perform m s = .next t) :
    (∃ torn, m = .reset torn) ∨ (∃ v, m = .regWrite 0x20 v ∧ t = s.withIe (v.getLsbD 0)) ∨
      (∃ n v, m = .regWrite (0x40 + 8 * n) v ∧ t = s.withX (argSet s.x n v)) ∨ HostRegsKept s t := by
  cases m with
  | reset torn => exact .inl ⟨torn, rfl⟩
  | unit i port => exact .inr (.inr (.inr (unitStep_keeps_hostRegs h)))
  | mc => exact .inr (.inr (.inr (mcStep_keeps_hostRegs h)))
  | regRead offset =>
    simp only [perform, regRead] at h
    split at h
    · obtain rfl := Host.Outcome.next.inj h
      exact .inr (.inr (.inr (.of_same rfl rfl rfl)))
    · contradiction
  | memRead addr n =>
    simp only [perform, hostRead] at h
    split_ifs at h
    obtain rfl := Host.Outcome.next.inj h
    exact .inr (.inr (.inr (.of_same rfl rfl rfl)))
  | memWrite addr bytes =>
    simp only [perform, hostWrite] at h
    split_ifs at h
    obtain rfl := Host.Outcome.next.inj h
    exact .inr (.inr (.inr (.of_same rfl rfl rfl)))
  | regWrite offset v =>
    simp only [perform, regWrite] at h
    split_ifs at h with hw hcmd hctrl harg
    · exact .inr (.inr (.inr (cmdWrite_keeps_hostRegs h)))
    · subst hctrl
      exact .inr (.inl ⟨v, rfl, (Host.Outcome.next.inj h).symm⟩)
    · obtain ⟨h8, -⟩ := registerOffsetWf_iff.mp hw
      have hoff : offset = 0x40 + 8 * ((offset - 0x40) / 8) := by omega
      exact .inr (.inr (.inl ⟨(offset - 0x40) / 8, v, by rw [← hoff], (Host.Outcome.next.inj h).symm⟩))
    · obtain rfl := Host.Outcome.next.inj h
      exact .inr (.inr (.inr (.of_same rfl rfl rfl)))

theorem step_hostRegs_cases {s t : State} (h : step s = .next t) :
    (∃ torn rest, s.agenda = .reset torn :: rest) ∨
      (∃ v rest, s.agenda = .regWrite 0x20 v :: rest ∧ t = (s.withAgenda rest).withIe (v.getLsbD 0)) ∨
      (∃ n v rest, s.agenda = .regWrite (0x40 + 8 * n) v :: rest ∧ t = (s.withAgenda rest).withX (argSet s.x n v)) ∨
      HostRegsKept s t := by
  cases ha : s.agenda with
  | nil => exact .inr (.inr (.inr (idleMove_keeps_hostRegs (step_nil ha ▸ h))))
  | cons m rest =>
    rw [step_cons ha] at h
    rcases perform_hostRegs_cases h with ⟨torn, rfl⟩ | ⟨v, rfl, ht⟩ | ⟨n, v, rfl, ht⟩ | hk
    · exact .inl ⟨torn, rest, rfl⟩
    · exact .inr (.inl ⟨v, rest, rfl, ht⟩)
    · exact .inr (.inr (.inl ⟨n, v, rest, rfl, ht⟩))
    · exact .inr (.inr (.inr ⟨hk.x, hk.ie, hk.falls⟩))

/-- Settles O40: by the four things a step can do to x and CTRL. -/
theorem argumentsBelongToHost : Obligations.ArgumentsBelongToHost := by
  intro s t h
  rcases step_hostRegs_cases h with hr | ⟨v, rest, ha, rfl⟩ | ⟨n, v, rest, ha, rfl⟩ | hk
  · exact .inl hr
  · exact .inr ⟨.inr ⟨v, rest, ha, rfl⟩, fun n => .inl rfl⟩
  · refine .inr ⟨.inl rfl, fun m => ?_⟩
    rw [State.withX_x, argGet_argSet]
    by_cases hm : m = n ∧ n < 7
    · exact .inr ⟨v, rest, hm.1 ▸ ha, if_pos hm⟩
    · exact .inl (if_neg hm)
  · exact .inr ⟨.inl hk.ie, fun n => .inl (congrArg (argGet · n) hk.x)⟩

/-! ## The interrupt line -/

theorem irq_iff (s : State) : irq s = true ↔ s.ie = true ∧ (s.status.done = true ∨ s.status.err = true) := by
  simp [irq]

/-- While a command runs the line is low. -/
theorem Inv.irq_of_busy {s : State} (h : Inv s) (hb : s.status.busy = true) : irq s = false := by
  simp [irq, h.done_of_busy hb, h.err_of_busy hb]

/-- With a command just ended the line is CTRL.IE, unless a reset ended it. -/
theorem irq_of_command_ended {s t : State} (h : step s = .next t) (hs : s.status.busy = true)
    (ht : t.status.busy = false) : irq t = s.ie ∨ ∃ torn rest, s.agenda = .reset torn :: rest := by
  rcases step_hostRegs_cases h with hr | ⟨v, rest, -, rfl⟩ | ⟨n, v, rest, -, rfl⟩ | hk
  · exact .inr hr
  · simp [hs] at ht
  · simp [hs] at ht
  · have hup : (t.status.done || t.status.err) = true := by simpa using hk.falls hs ht
    exact .inl (by rw [irq, hup, Bool.and_true, hk.ie])

/-- Settles O43: the accept by the invariant of the next state, the end of a command by what a step keeps. -/
theorem interruptLine : Obligations.InterruptLine := by
  intro s t hinv h
  refine ⟨irq_iff t, fun v rest ha => ?_, fun _ ht => (stepKeepsInvariant s t hinv h).irq_of_busy ht,
    irq_of_command_ended h, fun hb rest ha => ?_⟩
  · rw [step_cons ha] at h
    obtain rfl := Host.Outcome.next.inj ((perform_regWrite_ctrl v _).symm.trans h)
    rfl
  · have hclear : step s = .next (acknowledge (s.withAgenda rest)) := by
      have hdec : perform (.regWrite 0x08 0x03) (s.withAgenda rest) = issueClear (s.withAgenda rest) := rfl
      rw [step_cons ha, hdec, issueClear, State.withAgenda_status, hb]
      rfl
    obtain rfl := Host.Outcome.next.inj (hclear.symm.trans h)
    simp [irq, acknowledge]

end Sys2Proof.Machine

/-!
PROOF. The steps of a running command do not see x[0..6], CTRL.IE or the latched BATCH (10_state R22, R31; 43_merger
R218, R226): each commutes with putting other values there.
-/

namespace Sys2Proof.Machine

open Sys2Proof

/-- `s` with other values in the registers a running command does not look at. -/
def withUnseen (x : Args) (ie : Bool) (batch : Word) (s : State) : State :=
  { s with x := x, ie := ie, latch := { s.latch with a := { s.latch.a with batch := batch } } }

section

variable (x : Args) (ie : Bool) (batch : Word) (s : State) (i : Nat)

/-! ## What a step looks at -/

@[simp] theorem mem_withUnseen : (withUnseen x ie batch s).mem = s.mem := rfl

@[simp] theorem unitCount_withUnseen : unitCount (withUnseen x ie batch s) = unitCount s := rfl

@[simp] theorem unitPhase_withUnseen : unitPhase (withUnseen x ie batch s) i = unitPhase s i := rfl

@[simp] theorem unitReads_withUnseen : unitReads (withUnseen x ie batch s) i = unitReads s i := rfl

@[simp] theorem unitOut_withUnseen : unitOut (withUnseen x ie batch s) i = unitOut s i := rfl

@[simp] theorem barrier_withUnseen : barrier (withUnseen x ie batch s) = barrier s := rfl

/-! ## The steps -/

variable {x ie batch s i} {t : State} {port : PortAnswer}

theorem loadStep_withUnseen (h : loadStep i port s = .next t) :
    loadStep i port (withUnseen x ie batch s) = .next (withUnseen x ie batch t) := by
  unfold loadStep at h ⊢
  rw [mem_withUnseen, unitReads_withUnseen]
  cases hm : readAll s.mem port 0 (unitReads s i) <;> rw [hm] at h
  case outside => contradiction
  all_goals
    obtain rfl := Host.Outcome.next.inj h
    rfl

theorem storeStep_withUnseen {d : Bytes} (h : storeStep i d port s = .next t) :
    storeStep i d port (withUnseen x ie batch s) = .next (withUnseen x ie batch t) := by
  unfold storeStep at h ⊢
  rw [unitOut_withUnseen]
  split_ifs at h ⊢
  all_goals
    obtain rfl := Host.Outcome.next.inj h
    rfl

theorem unitStep_withUnseen (h : unitStep i port s = .next t) :
    unitStep i port (withUnseen x ie batch s) = .next (withUnseen x ie batch t) := by
  unfold unitStep at h ⊢
  rw [unitCount_withUnseen, unitPhase_withUnseen]
  split_ifs at h ⊢
  · cases hp : unitPhase s i <;> rw [hp] at h
    case waiting => exact loadStep_withUnseen h
    case loaded => exact storeStep_withUnseen h
    case finished =>
      obtain rfl := Host.Outcome.next.inj h
      rfl
  · obtain rfl := Host.Outcome.next.inj h
    rfl

theorem mcStep_withUnseen (h : mcStep s = .next t) :
    mcStep (withUnseen x ie batch s) = .next (withUnseen x ie batch t) := by
  have hq : (withUnseen x ie batch s).seq = s.seq := rfl
  have hn : (withUnseen x ie batch s).latch.a.leafCount = s.latch.a.leafCount := rfl
  unfold mcStep at h ⊢
  rw [barrier_withUnseen, hq, hn]
  cases hp : s.seq.phase <;> rw [hp] at h <;> dsimp only at h ⊢
  case idle =>
    obtain rfl := Host.Outcome.next.inj h
    rfl
  all_goals
    split_ifs at h ⊢
    all_goals
      obtain rfl := Host.Outcome.next.inj h
      rfl

end

/-- Settles O41: a unit's step and the MC's step each commute with `withUnseen`. -/
theorem runIgnoresArguments : Obligations.RunIgnoresArguments := by
  rintro s t x ie batch m (⟨i, port, rfl⟩ | rfl) h
  · exact unitStep_withUnseen h
  · exact mcStep_withUnseen h

end Sys2Proof.Machine

/-!
PROOF. The host's accesses to buffer memory (20_memory R62, R63, R75). Whether a write is taken turns on the regions of
the running command, which are never empty, so that the interval test of the model is the byte-by-byte one.
-/

namespace Sys2Proof.Machine

open Sys2Proof

/-! ## The regions of a running command -/

/-- A running command's regions hold at least one digest. -/
theorem Inv.regions_nonempty {s : State} (h : Inv s) (hp : s.seq.phase ≠ .idle) :
    0 < s.latch.a.srcLen.toNat ∧ 0 < s.latch.a.dstLen.toNat := by
  have hd := dlen_pos s.latch.variant
  rcases phase_running hp with hp | hp
  · obtain ⟨hsrc, hdst, -⟩ := h.hash_args hp
    omega
  · obtain ⟨L, hL, -⟩ := h.legal_tree hp
    have hslots : 0 < 2 ^ L * slotOf s.latch.variant :=
      Nat.mul_pos (Nat.two_pow_pos L) (hd.trans_le (dlen_le_slotOf _))
    rw [hL.srcLen, hL.dstLen]
    exact ⟨hslots, hslots⟩

/-- An access and a region that hold a byte each meet when a byte of the access lies in the region. -/
theorem rangesMeet_iff_byte {a n b k : Nat} (hn : 0 < n) (hk : 0 < k) :
    rangesMeet a n b k = true ↔ ∃ i, i < n ∧ b ≤ a + i ∧ a + i < b + k := by
  rw [rangesMeet_iff hn hk]
  constructor
  · rintro ⟨c, ⟨hlo, hhi⟩, hregion⟩
    obtain ⟨i, rfl⟩ := Nat.exists_eq_add_of_le hlo
    exact ⟨i, by omega, hregion⟩
  · rintro ⟨i, hi, hregion⟩
    exact ⟨a + i, by omega, hregion⟩

theorem Inv.meetsRegions_iff {s : State} (h : Inv s) (hb : s.status.busy = true) {addr n : Nat} (hn : 0 < n) :
    meetsRegions s addr n = true ↔ ∃ i, i < n ∧ (InSrc s.latch.a (addr + i) ∨ InDst s.latch.a (addr + i)) := by
  obtain ⟨hsrc, hdst⟩ := h.regions_nonempty (h.phase_of_busy hb)
  simp only [meetsRegions, Bool.or_eq_true, rangesMeet_iff_byte hn hsrc, rangesMeet_iff_byte hn hdst, InSrc, InDst,
    and_or_left, exists_or]

/-- A host write is refused for its place exactly while BUSY = 1 and when a byte of it lies in SRC or DST. -/
theorem Inv.write_barred_iff {s : State} (h : Inv s) {addr n : Nat} (hn : 0 < n) :
    (s.status.busy && meetsRegions s addr n) = true ↔
      s.status.busy = true ∧ ∃ i, i < n ∧ (InSrc s.latch.a (addr + i) ∨ InDst s.latch.a (addr + i)) := by
  rw [Bool.and_eq_true]
  exact and_congr_right fun hb => h.meetsRegions_iff hb hn

/-! ## One equation for each answer -/

theorem perform_memRead {addr n : Nat} (hn : 1 ≤ n) (htop : addr + n ≤ 2 ^ 64) (s : State) :
    perform (.memRead addr n) s = .next (s.withReplies (.mem addr (readBytes s.mem addr n) :: s.replies)) := by
  rw [perform, hostRead, if_neg (by omega), if_neg (by omega)]

theorem perform_memRead_outside {addr n : Nat} (hn : 1 ≤ n) (htop : 2 ^ 64 < addr + n) (s : State) :
    perform (.memRead addr n) s = .fault (.noSuchAddress addr) := by
  rw [perform, hostRead, if_neg (by omega), if_pos htop]

theorem perform_memWrite {s : State} {addr : Nat} {bytes : Bytes} (hn : 1 ≤ bytes.length)
    (htop : addr + bytes.length ≤ 2 ^ 64) (hfree : (s.status.busy && meetsRegions s addr bytes.length) = false) :
    perform (.memWrite addr bytes) s = .next (s.withMem (writeBytes s.mem addr bytes)) := by
  rw [perform, hostWrite, if_neg (by omega), if_neg (by omega), if_neg (by simp [hfree])]

theorem perform_memWrite_barred {s : State} {addr : Nat} {bytes : Bytes} (hn : 1 ≤ bytes.length)
    (htop : addr + bytes.length ≤ 2 ^ 64) (hbar : (s.status.busy && meetsRegions s addr bytes.length) = true) :
    perform (.memWrite addr bytes) s = .refused (.hostWritesBusyRegion addr) := by
  rw [perform, hostWrite, if_neg (by omega), if_neg (by omega), if_pos hbar]

theorem perform_memWrite_outside {addr : Nat} {bytes : Bytes} (hn : 1 ≤ bytes.length)
    (htop : 2 ^ 64 < addr + bytes.length) (s : State) :
    perform (.memWrite addr bytes) s = .fault (.noSuchAddress addr) := by
  rw [perform, hostWrite, if_neg (by omega), if_pos htop]

/-- Settles O44: one equation for each clause; the byte-by-byte test of the regions is `Inv.write_barred_iff`. -/
theorem hostMemoryAccess : Obligations.HostMemoryAccess := by
  refine ⟨fun s addr n hn htop => ?_, fun s addr bytes h hn htop hfree => ?_,
    fun s addr bytes h htop hb hmeet => ?_, fun s addr n bytes hn hb => ⟨fun htop => ?_, fun htop => ?_⟩,
    fun s addr => ⟨rfl, rfl⟩⟩
  · refine ⟨readBytes s.mem addr n, perform_memRead hn htop s, readBytes_length .., fun i hi => ?_⟩
    rw [List.getD_eq_getElem _ _ (by simpa using hi), readBytes_getElem]
  · have hopen : (s.status.busy && meetsRegions s addr bytes.length) = false := by
      rw [← Bool.not_eq_true, h.write_barred_iff hn]
      rintro ⟨hb, i, hi, hin⟩
      obtain ⟨hsrc, hdst⟩ := hfree hb i hi
      exact hin.elim hsrc hdst
    exact ⟨_, perform_memWrite hn htop hopen, rfl, readByte_writeBytes h.memWf addr bytes⟩
  · have ⟨i, hi, _⟩ := hmeet
    have hn : 1 ≤ bytes.length := by omega
    exact perform_memWrite_barred hn htop ((h.write_barred_iff hn).mpr ⟨hb, hmeet⟩)
  · exact perform_memRead_outside hn htop s
  · exact perform_memWrite_outside hb htop s

end Sys2Proof.Machine

/-!
PROOF. DONE rises in a completion step alone, and completion waits for the barrier of the last level (20_memory R73;
43_merger R229; 42_hash R192).
-/

namespace Sys2Proof.Machine

open Sys2Proof

/-- The one effect that raises DONE is completion: of a HASH, or of a MERKLIZE whose next level is the root alone. -/
theorem Effect.completes_of_done_rises {s t : State} (e : Effect s t) (hs : s.status.done = false)
    (ht : t.status.done = true) :
    t = completeCommand s ∧ barrier s = true ∧
      (s.seq.phase = .runHash ∨
        s.seq.phase = .runLevel ∧ levelSize s.latch.a.leafCount.toNat (s.seq.k + 1) = 1) := by
  cases e with
  | completeHash hp hb => exact ⟨rfl, hb, .inl hp⟩
  | completeMerklize hp hb root => exact ⟨rfl, hb, .inr ⟨hp, root⟩⟩
  | acknowledge | refuse | acceptHash | acceptMerklize | reset => exact absurd ht Bool.false_ne_true
  | same | reply | setArgs | setIe | hostWrite | drop | load | loadFails | store | storeFails | nextLevel =>
    exact absurd (hs.symm.trans ht) Bool.false_ne_true

/-- The next level is the root alone exactly at the last level (43_merger R211). -/
theorem Inv.last_level_of_root_next {s : State} (h : Inv s) (hp : s.seq.phase = .runLevel)
    (hroot : levelSize s.latch.a.leafCount.toNat (s.seq.k + 1) = 1) :
    s.seq.k + 1 = levels s.latch.a.leafCount.toNat := by
  obtain ⟨L, hL, hk⟩ := h.legal_tree hp
  rw [hL.leaves, levelSize_two_pow hk, Nat.pow_eq_one] at hroot
  rw [hL.leaves, levels_two_pow]
  omega

/-- Settles O26: the step is a completion, and the barrier it passed says that every unit was FINISHED. -/
theorem completionOrdering : Obligations.CompletionOrdering := by
  intro s t h hstep hs ht
  obtain ⟨rest, e⟩ := step_effect hstep
  obtain ⟨rfl, hbarrier, hlast⟩ := e.completes_of_done_rises hs ht
  have hrun : s.seq.phase ≠ .idle := by
    rcases hlast with hp | ⟨hp, -⟩ <;> exact fun hidle => by cases hp.symm.trans hidle
  exact ⟨hlast.imp_right fun ⟨hp, hroot⟩ => ⟨hp, h.last_level_of_root_next hp hroot⟩,
    (h.barrier_iff hrun).mp hbarrier, rfl⟩

end Sys2Proof.Machine

/-!
PROOF. Which step changes which byte of memory (20_memory R67, R75; 70_reset R312): the host's own writes, and the bytes
that a LOADED unit is about to write, in its store step or in a reset that tears it. Where these bytes lie follows from
the checks the running command has passed.
-/

namespace Sys2Proof.Machine

open Sys2Proof

/-! ## The output bytes of a LOADED unit -/

/-- Unit i of the open level is LOADED and `c` is one of the bytes its store writes. -/
structure LoadedOutput (s : State) (i c : Nat) : Prop where
  unit : i < unitCount s
  loaded : ∃ regs d, unitPhase s i = .loaded regs d
  lower : unitOut s i ≤ c
  upper : c < unitOut s i + dlen s.latch.variant

theorem Inv.loadedOutput {s : State} (h : Inv s) {i c : Nat} {regs : EngineRegs} {d : Bytes} (hi : i < unitCount s)
    (hp : unitPhase s i = .loaded regs d) (hlo : unitOut s i ≤ c) (hhi : c < unitOut s i + d.length) :
    LoadedOutput s i c := ⟨hi, ⟨regs, d, hp⟩, hlo, h.loaded_length hi hp ▸ hhi⟩

/-- What a unit of a running HASH writes lies in DST; what one of a MERKLIZE writes are digest bytes of the first N - 1
slots of DST, and none of SRC (43_merger R215, R228; 60_exceptions R282). -/
theorem Inv.output_place {s : State} (h : Inv s) {i c : Nat} (hi : i < unitCount s) (hlo : unitOut s i ≤ c)
    (hhi : c < unitOut s i + dlen s.latch.variant) :
    s.seq.phase = .runHash ∧ InDst s.latch.a c ∨
      s.seq.phase = .runLevel ∧ InTreeBytes s.latch.variant s.latch.a c ∧ ¬InSrc s.latch.a c := by
  rcases phase_running (unitCount_pos_phase hi) with hp | hp
  · obtain ⟨-, hdst, -⟩ := h.hash_args hp
    simp only [unitOut, hp] at hlo hhi
    exact .inl ⟨hp, hlo, hdst ▸ hhi⟩
  · obtain ⟨L, hL, hk⟩ := h.legal_tree hp
    rw [(unitCount_runLevel hp hL.leaves hk).1] at hi
    simp only [unitOut, hp] at hlo hhi
    refine .inr ⟨hp, ⟨levelOffset (2 ^ L) (s.seq.k + 1) + i, ?_, ?_⟩, ?_⟩
    · have hslot := levelOffset_add_lt (k := s.seq.k + 1) (by omega) hk hi
      rw [hL.leaves]
      omega
    · rw [digestAddr_succ, hL.leaves] at hlo hhi
      exact ⟨hlo, hhi⟩
    · obtain ⟨hbase, htop⟩ := hL.digest_in hk hi
      have hslots : (2 ^ L - 1) * slotOf s.latch.variant ≤ 2 ^ L * slotOf s.latch.variant :=
        Nat.mul_le_mul_right _ (Nat.sub_le _ _)
      have hapart := hL.apart
      rintro ⟨hsrc, hsrcTop⟩
      rw [hL.srcLen] at hsrcTop
      omega

/-! ## What each step does to memory -/

theorem exec_keeps_mem {i : Instr} {s t : State} (h : exec i s = .next t) : t.mem = s.mem := by
  rcases exec_cases i s with ⟨-, he⟩ | ⟨-, -, he⟩ | ⟨-, e, info, he, -⟩ | ⟨-, op, v, he, -⟩ <;>
    obtain rfl := Host.Outcome.next.inj (he.symm.trans h) <;> rfl

theorem cmdWrite_keeps_mem {c : Word} {s t : State} (h : cmdWrite c s = .next t) : t.mem = s.mem := by
  rcases cmdWrite_cases c s with ⟨i, -, he⟩ | ⟨-, he⟩ | ⟨-, -, he⟩ | ⟨-, -, he⟩
  · exact exec_keeps_mem (he.symm.trans h)
  all_goals obtain rfl := Host.Outcome.next.inj (he.symm.trans h); rfl

theorem regWrite_keeps_mem {offset : Nat} {v : Word} {s t : State} (h : regWrite offset v s = .next t) :
    t.mem = s.mem := by
  unfold regWrite at h
  split_ifs at h
  · exact cmdWrite_keeps_mem h
  all_goals obtain rfl := Host.Outcome.next.inj h; rfl

theorem mcStep_keeps_mem {s t : State} (h : mcStep s = .next t) : t.mem = s.mem := by
  rcases mcStep_cases s with ⟨-, he⟩ | ⟨-, -, he⟩ | ⟨-, -, -, he⟩ | ⟨-, -, -, he⟩ <;>
    obtain rfl := Host.Outcome.next.inj (he.symm.trans h) <;> rfl

/-- A write changes none but bytes of its range. -/
theorem writeBytes_changes {m : Memory} (hm : Memory.wf m = true) {a c : Nat} {bs : Bytes}
    (h : readByte (writeBytes m a bs) c ≠ readByte m c) : a ≤ c ∧ c < a + bs.length := by
  by_contra hc
  exact h (readByte_writeBytes_outside hm (by omega))

theorem loadStep_keeps_mem {i : Nat} {port : PortAnswer} {s t : State} (h : loadStep i port s = .next t) :
    t.mem = s.mem := by
  rcases loadStep_cases i port s with ⟨m, -, he⟩ | ⟨a, -, he⟩ | ⟨a, -, he⟩ <;> rw [he] at h
  case inr.inr => contradiction
  all_goals obtain rfl := Host.Outcome.next.inj h; rfl

/-- A store step, whole or torn, changes none but the bytes it writes. -/
theorem storeStep_changes {s t : State} (hm : Memory.wf s.mem = true) {i c : Nat} {d : Bytes} {port : PortAnswer}
    (h : storeStep i d port s = .next t) (hc : readByte t.mem c ≠ readByte s.mem c) :
    unitOut s i ≤ c ∧ c < unitOut s i + d.length := by
  rcases storeStep_cases i d port s with ⟨-, -, he⟩ | ⟨-, -, he⟩ | ⟨-, he⟩ <;> rw [he] at h
  · obtain rfl := Host.Outcome.next.inj h
    exact writeBytes_changes hm hc
  · obtain rfl := Host.Outcome.next.inj h
    exact writeSome_changes hm hc
  · contradiction

theorem Inv.unitStep_changes {s t : State} (hinv : Inv s) {i c : Nat} {port : PortAnswer}
    (h : unitStep i port s = .next t) (hc : readByte t.mem c ≠ readByte s.mem c) : LoadedOutput s i c := by
  rcases unitStep_cases i port s with ⟨-, he⟩ | ⟨-, -, he⟩ | ⟨regs, d, hi, hp, he⟩ <;> have ht := he.symm.trans h
  · obtain rfl := Host.Outcome.next.inj ht
    exact absurd rfl hc
  · exact absurd (congrArg (readByte · c) (loadStep_keeps_mem ht)) hc
  · obtain ⟨hlo, hhi⟩ := storeStep_changes hinv.memWf ht hc
    exact hinv.loadedOutput hi hp hlo hhi

theorem Inv.idleMove_changes {s t : State} (hinv : Inv s) {c : Nat} (h : idleMove s = .next t)
    (hc : readByte t.mem c ≠ readByte s.mem c) : ∃ i, LoadedOutput s i c := by
  unfold idleMove at h
  cases hp : s.seq.phase <;> simp only [hp] at h
  case idle =>
    obtain rfl := Host.Outcome.next.inj h
    exact absurd rfl hc
  all_goals
    split at h
    · exact absurd (congrArg (readByte · c) (mcStep_keeps_mem h)) hc
    · exact ⟨_, hinv.unitStep_changes h hc⟩

/-- A host write that is taken changes none but its bytes, and while BUSY = 1 it has none in SRC or DST. -/
theorem Inv.hostWrite_changes {s t : State} (hinv : Inv s) {addr c : Nat} {bytes : Bytes}
    (h : hostWrite addr bytes s = .next t) (hc : readByte t.mem c ≠ readByte s.mem c) :
    addr ≤ c ∧ c < addr + bytes.length ∧
      (s.status.busy = true → ¬InSrc s.latch.a c ∧ ¬InDst s.latch.a c) := by
  unfold hostWrite at h
  split_ifs at h with hempty htop hbarred
  obtain rfl := Host.Outcome.next.inj h
  obtain ⟨hlo, hhi⟩ := writeBytes_changes hinv.memWf hc
  rw [hinv.write_barred_iff (Nat.pos_of_ne_zero hempty)] at hbarred
  refine ⟨hlo, hhi, fun hb => not_or.mp fun hin => hbarred ⟨hb, c - addr, by omega, ?_⟩⟩
  rwa [Nat.add_sub_cancel' hlo]

/-! ## Once for all moves -/

/-- The moves that change a byte: a host write, a unit's store, a reset that tears a store. -/
theorem Inv.perform_changes {s t : State} (hinv : Inv s) {m : Move} {c : Nat} (h : perform m s = .next t)
    (hc : readByte t.mem c ≠ readByte s.mem c) :
    (∃ addr bytes, m = .memWrite addr bytes ∧ addr ≤ c ∧ c < addr + bytes.length ∧
      (s.status.busy = true → ¬InSrc s.latch.a c ∧ ¬InDst s.latch.a c)) ∨
    ∃ i, ((∃ port, m = .unit i port) ∨ ∃ torn subset, m = .reset torn ∧ (i, subset) ∈ torn) ∧ LoadedOutput s i c := by
  have unchanged : t.mem ≠ s.mem := fun he => hc (congrArg (readByte · c) he)
  cases m with
  | memWrite addr bytes => exact .inl ⟨addr, bytes, rfl, hinv.hostWrite_changes h hc⟩
  | unit i port => exact .inr ⟨i, .inl ⟨port, rfl⟩, hinv.unitStep_changes h hc⟩
  | reset torn =>
    obtain rfl := Host.Outcome.next.inj h
    obtain ⟨i, subset, regs, d, hmem, hi, hp, hlo, hhi⟩ := tearStores_changes hinv.memWf hc
    exact .inr ⟨i, .inr ⟨torn, subset, rfl, hmem⟩, hinv.loadedOutput hi hp hlo hhi⟩
  | regWrite offset v => exact absurd (regWrite_keeps_mem h) unchanged
  | mc => exact absurd (mcStep_keeps_mem h) unchanged
  | regRead offset =>
    simp only [perform, regRead] at h
    split_ifs at h
    obtain rfl := Host.Outcome.next.inj h
    exact absurd rfl unchanged
  | memRead addr n =>
    simp only [perform, hostRead] at h
    split_ifs at h
    obtain rfl := Host.Outcome.next.inj h
    exact absurd rfl unchanged

/-- Settles O27: the move by `Inv.perform_changes`, the place of the byte by `Inv.output_place`. -/
theorem commandFrame : Obligations.CommandFrame := by
  intro s t c h hstep hc
  cases ha : s.agenda with
  | nil =>
    obtain ⟨i, hi, ⟨regs, d, hp⟩, hlo, hhi⟩ := h.idleMove_changes (step_nil ha ▸ hstep) hc
    exact .inr ⟨i, regs, d, .inl rfl, hi, hp, hlo, hhi, h.output_place hi hlo hhi⟩
  | cons m rest =>
    rw [step_cons ha] at hstep
    rcases (h.agenda_free rest).perform_changes hstep hc with
      ⟨addr, bytes, rfl, hplace⟩ | ⟨i, hmove, hi, ⟨regs, d, hp⟩, hlo, hhi⟩
    · exact .inl ⟨addr, bytes, rest, rfl, hplace⟩
    · refine .inr ⟨i, regs, d, .inr ?_, hi, hp, hlo, hhi, h.output_place hi hlo hhi⟩
      rcases hmove with ⟨port, rfl⟩ | ⟨torn, subset, rfl, hmem⟩
      · exact .inl ⟨port, rest, rfl⟩
      · exact .inr ⟨torn, subset, rest, rfl, hmem⟩

end Sys2Proof.Machine

/-!
PROOF. Decoding and encoding of the command word (30_encoding R90 to R100). A word and its three fields determine each
other, and a command and its fields determine each other, so the words that are commands are those of the 25 commands;
the tests of R94 are then read on the number the word is.
-/

namespace Sys2Proof.Machine

open Sys2Proof

/-! ## The word and its fields -/

/-- A word is put together again from its fields. -/
theorem wordOfRaw_rawOfWord (c : Word) : wordOfRaw (rawOfWord c) = c := by
  have hcode : c.extractLsb' 8 56 ++ c.extractLsb' 4 4 = c.extractLsb' 4 60 :=
    BitVec.extractLsb'_append_extractLsb'_eq_extractLsb' rfl
  have hword : c.extractLsb' 4 60 ++ c.extractLsb' 0 4 = c.extractLsb' 0 64 :=
    BitVec.extractLsb'_append_extractLsb'_eq_extractLsb' rfl
  calc wordOfRaw (rawOfWord c) = c.extractLsb' 4 60 ++ c.extractLsb' 0 4 := by rw [← hcode]; rfl
    _ = c := by rw [hword, BitVec.extractLsb'_eq_self]

/-- OP is the low hexadecimal digit of the number the word is (30_encoding R91). -/
theorem op_rawOfWord_iff {c : Word} {n : BitVec 4} : (rawOfWord c).op = n ↔ c.toNat % 16 = n.toNat := by
  rw [← BitVec.toNat_inj, rawOfWord, BitVec.extractLsb'_toNat, Nat.shiftRight_zero]

/-- VARIANT is the next digit (30_encoding R91). -/
theorem variant_rawOfWord_iff {c : Word} {n : BitVec 4} : (rawOfWord c).variant = n ↔ c.toNat / 16 % 16 = n.toNat := by
  rw [← BitVec.toNat_inj, rawOfWord, BitVec.extractLsb'_toNat, Nat.shiftRight_eq_div_pow]

/-- RSVD is all above the two digits (30_encoding R91). -/
theorem rsvd_rawOfWord_iff {c : Word} {n : BitVec 56} : (rawOfWord c).rsvd = n ↔ c.toNat / 0x100 = n.toNat := by
  have hlt : c.toNat / 2 ^ 8 < 2 ^ 56 := Nat.div_lt_of_lt_mul c.isLt
  rw [← BitVec.toNat_inj, rawOfWord, BitVec.extractLsb'_toNat, Nat.shiftRight_eq_div_pow, Nat.mod_eq_of_lt hlt]
  rfl

/-! ## The command and its fields -/

/-- Each variant has its own code (30_encoding R93). -/
theorem eq_code_of_variantOfCode {v : Variant} : ∀ {code : BitVec 4}, variantOfCode code = some v → code = v.code := by
  cases v <;> decide

/-- A reserved code names no variant (30_encoding R93). -/
theorem variantOfCode_reserved : ∀ {code : BitVec 4}, 0xC ≤ code.toNat → variantOfCode code = none := by decide

theorem code_toNat_le (v : Variant) : v.code.toNat ≤ 0xB := by cases v <;> decide

/-- Every number up to 0xB is a code (30_encoding R93). -/
theorem exists_code {n : Nat} (h : n ≤ 0xB) : ∃ v : Variant, v.code.toNat = n := by
  cases hv : variantOfCode (BitVec.ofNat 4 n) with
  | none => interval_cases n <;> simp [variantOfCode] at hv
  | some v => exact ⟨v, by rw [← eq_code_of_variantOfCode hv, BitVec.toNat_ofNat]; omega⟩

/-! ## The answers of the decoder, a lemma for each test (30_encoding R94) -/

theorem decodeRaw_reserved {r : RawCmd} (h : r.rsvd ≠ 0) : decodeRaw r = .illegal := if_pos h

theorem decodeRaw_clear_variant {r : RawCmd} (hop : r.op = 3) (hv : r.variant ≠ 0) : decodeRaw r = .illegal := by
  rw [decodeRaw, if_pos hop, if_neg hv, ite_self]

theorem decodeRaw_bad_op {r : RawCmd} (h1 : r.op ≠ 1) (h2 : r.op ≠ 2) (h3 : r.op ≠ 3) : decodeRaw r = .illegal := by
  rw [decodeRaw, if_neg h3, if_neg h1, if_neg h2, ite_self]

theorem decodeRaw_bad_variant {r : RawCmd} (hr : r.rsvd = 0) (hop : r.op = 1 ∨ r.op = 2)
    (hv : variantOfCode r.variant = none) : decodeRaw r = .badVariant r.variant := by
  rw [decodeRaw, if_neg (not_not.mpr hr)]
  rcases hop with h | h <;> simp [h, hv]

theorem decodeRaw_rawOf (i : Instr) : decodeRaw (rawOf i) = .cmd i := by
  rcases instr_cases i with ⟨v, rfl⟩ | ⟨v, rfl⟩ | rfl
  · simp [decodeRaw, rawOf_hashOf, variantOfCode_code]
  · simp [decodeRaw, rawOf_merklizeOf, variantOfCode_code]
  · rfl

/-- The fields of a command are those the encoder gives it. -/
theorem eq_rawOf_of_decodeRaw {r : RawCmd} {i : Instr} (h : decodeRaw r = .cmd i) : r = rawOf i := by
  obtain ⟨op, variant, rsvd⟩ := r
  simp only [decodeRaw] at h
  split_ifs at h with hr h3 hv h1 h2
  · obtain rfl : Instr.clear = i := by simpa using h
    simp_all [rawOf]
  · cases hc : variantOfCode variant with
    | none => simp [hc] at h
    | some v =>
      obtain rfl : hashOf v = i := by simpa [hc] using h
      rw [rawOf_hashOf, eq_code_of_variantOfCode hc, h1, not_not.mp hr]
  · cases hc : variantOfCode variant with
    | none => simp [hc] at h
    | some v =>
      obtain rfl : merklizeOf v = i := by simpa [hc] using h
      rw [rawOf_merklizeOf, eq_code_of_variantOfCode hc, h2, not_not.mp hr]

/-! ## The round trip -/

@[simp] theorem decode_encode (i : Instr) : decode (encode i) = .cmd i := by
  rw [decode, encode, rawOfWord_wordOfRaw, decodeRaw_rawOf]

theorem eq_encode_of_decode {c : Word} {i : Instr} (h : decode c = .cmd i) : c = encode i := by
  rw [encode, ← eq_rawOf_of_decodeRaw h, wordOfRaw_rawOfWord]

theorem encode_injective {i j : Instr} (h : encode i = encode j) : i = j :=
  Decoded.cmd.inj (by rw [← decode_encode, h, decode_encode])

/-- A 64-bit word is its own table word (log 23). -/
theorem tableWord_toNat (c : Word) : tableWord 64 c.toNat = some c := by
  have hc : c.toNat % 2 ^ 64 = c.toNat := Nat.mod_eq_of_lt c.isLt
  simp only [tableWord, hc, if_pos c.isLt, BitVec.ofNat_toNat, BitVec.setWidth_eq]

theorem decodeTableWord_encode (i : Instr) : decodeTableWord 64 (encode i).toNat = some i := by
  simp [decodeTableWord, tableWord_toNat]

/-- Settles O1: a word and its fields, and a command and its fields, determine each other. -/
theorem decodeEncodeAgree : Obligations.DecodeEncodeAgree :=
  ⟨fun i _ => decode_encode i, fun _ _ => eq_encode_of_decode, fun _ _ => encode_injective, decodeTableWord_encode⟩

/-! ## The word as a number -/

theorem encode_hashOf_toNat (v : Variant) : (encode (hashOf v)).toNat = 16 * v.code.toNat + 1 := by cases v <;> rfl

theorem encode_merklizeOf_toNat (v : Variant) : (encode (merklizeOf v)).toNat = 16 * v.code.toNat + 2 := by
  cases v <;> rfl

/-- The word with a command's number is that command. -/
theorem decode_of_toNat {c : Word} {i : Instr} (h : c.toNat = (encode i).toNat) : decode c = .cmd i := by
  rw [BitVec.eq_of_toNat_eq h, decode_encode]

theorem decode_reserved {c : Word} (h : 0x100 ≤ c.toNat) : decode c = .illegal := by
  refine decodeRaw_reserved fun hr => ?_
  have h0 : c.toNat / 0x100 = 0 := rsvd_rawOfWord_iff.mp hr
  omega

theorem decode_clear_variant {c : Word} (hlt : c.toNat < 0x100) (hop : c.toNat % 16 = 3) (hv : c.toNat / 16 ≠ 0) :
    decode c = .illegal := by
  refine decodeRaw_clear_variant (op_rawOfWord_iff.mpr hop) fun hvar => ?_
  have h0 : c.toNat / 16 % 16 = 0 := variant_rawOfWord_iff.mp hvar
  omega

theorem decode_bad_op {c : Word} (h : c.toNat % 16 = 0 ∨ 4 ≤ c.toNat % 16) : decode c = .illegal := by
  have hop (n : BitVec 4) (h1 : 1 ≤ n.toNat) (h3 : n.toNat ≤ 3) : (rawOfWord c).op ≠ n := fun heq => by
    have hn := op_rawOfWord_iff.mp heq
    omega
  exact decodeRaw_bad_op (hop 1 (by decide) (by decide)) (hop 2 (by decide) (by decide)) (hop 3 (by decide) (by decide))

theorem decode_bad_variant {c : Word} (hlt : c.toNat < 0x100) (hop : c.toNat % 16 = 1 ∨ c.toNat % 16 = 2)
    (hv : 0xC ≤ c.toNat / 16) : decode c = .badVariant (BitVec.ofNat 4 (c.toNat / 16)) := by
  have hr : (rawOfWord c).rsvd = 0 := rsvd_rawOfWord_iff.mpr (Nat.div_eq_of_lt hlt)
  have hcode : (rawOfWord c).variant = BitVec.ofNat 4 (c.toNat / 16) :=
    variant_rawOfWord_iff.mpr (BitVec.toNat_ofNat (c.toNat / 16) 4).symm
  have hnone : variantOfCode (rawOfWord c).variant = none := by
    refine variantOfCode_reserved ?_
    rw [hcode, BitVec.toNat_ofNat]
    omega
  rw [← hcode]
  exact decodeRaw_bad_variant hr (hop.imp op_rawOfWord_iff.mpr op_rawOfWord_iff.mpr) hnone

/-- The 25 words that are commands (30_encoding R94). -/
theorem exists_decode_cmd_iff (c : Word) :
    (∃ i, decode c = .cmd i) ↔ c.toNat = 0x03 ∨ ∃ n, n ≤ 0xB ∧ (c.toNat = 16 * n + 1 ∨ c.toNat = 16 * n + 2) := by
  constructor
  · rintro ⟨i, h⟩
    obtain rfl := eq_encode_of_decode h
    rcases instr_cases i with ⟨v, rfl⟩ | ⟨v, rfl⟩ | rfl
    · exact .inr ⟨_, code_toNat_le v, .inl (encode_hashOf_toNat v)⟩
    · exact .inr ⟨_, code_toNat_le v, .inr (encode_merklizeOf_toNat v)⟩
    · exact .inl rfl
  · rintro (h | ⟨n, hn, h⟩)
    · exact ⟨.clear, decode_of_toNat h⟩
    · obtain ⟨v, rfl⟩ := exists_code hn
      rcases h with h | h
      · exact ⟨hashOf v, decode_of_toNat (h.trans (encode_hashOf_toNat v).symm)⟩
      · exact ⟨merklizeOf v, decode_of_toNat (h.trans (encode_merklizeOf_toNat v).symm)⟩

/-! ## The CMD write of a word that is no command -/

theorem Ready.dropped {s : State} (h : Ready s) : dropped s = false := dropped_eq_false.mpr h

theorem issueBadWord_ready {s : State} (h : Ready s) (e : ErrCode) (c : Word) :
    issueBadWord e c s = .next (refusedWith e.byte c s) := by
  rw [issueBadWord, h.dropped]
  rfl

theorem perform_cmd (c : Word) (s : State) : perform (.regWrite 0x08 c) s = cmdWrite c s := rfl

theorem cmdWrite_illegal {c : Word} {s : State} (h : Ready s) (hc : decode c = .illegal) :
    cmdWrite c s = .next (refusedWith 0x01 c s) := by
  rw [cmdWrite, hc]
  exact issueBadWord_ready h .illegalCmd c

theorem cmdWrite_badVariant {c : Word} {n : BitVec 4} {s : State} (h : Ready s) (hc : decode c = .badVariant n) :
    cmdWrite c s = .next (refusedWith 0x02 c s) := by
  rw [cmdWrite, hc]
  exact issueBadWord_ready h .badVariant c

/-- Settles O2: the lemma of each test, on the digits of the word's number. -/
theorem decodeFollowsFields : Obligations.DecodeFollowsFields := by
  refine ⟨fun _ => decode_reserved, fun c _ hop hv => ?clear, fun _ => decode_clear_variant, fun _ v h => ?hash,
    fun _ v h => ?merklize, fun _ => decode_bad_variant, fun _ => decode_bad_op, exists_decode_cmd_iff,
    fun _ _ => cmdWrite_illegal, fun _ _ _ => cmdWrite_badVariant⟩
  case clear =>
    have h3 : c.toNat = 3 := by omega
    exact decode_of_toNat h3
  case hash => exact decode_of_toNat (h.trans (encode_hashOf_toNat v).symm)
  case merklize => exact decode_of_toNat (h.trans (encode_merklizeOf_toNat v).symm)

/-- Settles O3: each word is a command's, or fails the test it names. -/
theorem specWordsDecode : Obligations.SpecWordsDecode :=
  ⟨decode_encode .hashSha1, decode_encode .hashSha2_512_224, decode_encode .hashKeccak_256,
    decode_encode .merklizeSha1, decode_encode .merklizeSha3_384, decode_encode .clear,
    decode_bad_op (by decide), decode_clear_variant (by decide) (by decide) (by decide), decode_reserved (by decide),
    decode_reserved (by decide), decode_bad_variant (by decide) (by decide) (by decide),
    decode_bad_variant (by decide) (by decide) (by decide)⟩

end Sys2Proof.Machine

/-!
PROOF. The padded messages of the two engines (30_encoding R96; 40_md R123, R142; 41_kp R162, R172): for any input that
leaves the given room in its last block, then for the input of two digests of each variant.
-/

namespace Sys2Proof.Machine

open Sys2Proof

/-! ## The sponge's padding -/

/-- The padding where the last block has room for `zeros` bytes between the suffix and the last byte (41_kp R162). -/
theorem kpPad_eq {r zeros : Nat} {m : Bytes} (suffix : Byte) (h : kpBlocks r m.length * r = m.length + 2 + zeros) :
    kpPad r suffix m = m ++ suffix :: List.replicate zeros 0 ++ [0x80] := by
  have hzeros : m.length + 2 + zeros - (m.length + 1) = zeros + 1 := by omega
  have hlast : m.length + 2 + zeros - 1 = (m ++ suffix :: List.replicate zeros (0 : Byte)).length + 0 := by
    rw [Nat.add_zero, List.length_append, List.length_cons, List.length_replicate]
    omega
  simp only [kpPad, h, hzeros, List.replicate_succ', ← List.cons_append, ← List.append_assoc]
  rw [hlast, List.modify, List.modifyTailIdx_add]
  rfl

/-- The input of a KP variant, two digests, padded to `nblk` blocks (41_kp R172). -/
theorem kpPad_two_digests {v : Variant} {nblk zeros : Nat} (hblk : 2 * dlen v / blockOf v + 1 = nblk)
    (hroom : nblk * blockOf v = 2 * dlen v + 2 + zeros) (m : Bytes) (hm : m.length = 2 * dlen v) :
    kpBlocks (blockOf v) m.length = nblk ∧
      kpPad (blockOf v) (suffixOf v) m = m ++ suffixOf v :: List.replicate zeros 0 ++ [0x80] ∧
      (kpPad (blockOf v) (suffixOf v) m).length = nblk * blockOf v := by
  have hn : kpBlocks (blockOf v) m.length = nblk := by rw [kpBlocks, hm, hblk]
  have hpad := kpPad_eq (suffixOf v) (m := m) (by rw [hn, hroom, hm])
  refine ⟨hn, hpad, ?_⟩
  rw [hpad, hroom, ← hm]
  simp only [List.length_append, List.length_cons, List.length_replicate, List.length_nil]
  omega

/-- Settles O53: the table's row of each variant, and the padding with the room the row states. -/
theorem kpPadLayout : Obligations.KpPadLayout := by
  intro row hrow
  simp only [List.mem_cons, List.not_mem_nil, or_false] at hrow
  rcases hrow with rfl | rfl | rfl | rfl | rfl
  all_goals exact ⟨rfl, rfl, rfl, rfl, rfl, rfl, rfl, kpPad_two_digests rfl rfl⟩

/-! ## The MD engine's padding -/

/-- A number of two bytes written in more: zeros in front of the two. -/
theorem beNat_two_bytes (k : Nat) {x : Nat} (h : x < 256 ^ 2) :
    beNat (k + 2) x = List.replicate k 0 ++ [BitVec.ofNat 8 (x / 256), BitVec.ofNat 8 x] := by
  induction k with
  | zero => simp [beNat]
  | succ k ih =>
    have hlead : x / 256 ^ (k + 2) = 0 :=
      Nat.div_eq_of_lt (h.trans_le (Nat.pow_le_pow_right (by decide) (Nat.le_add_left 2 k)))
    rw [show k + 1 + 2 = k + 2 + 1 from rfl, beNat, hlead, ih, List.replicate_succ, List.cons_append]
    rfl

/-- The padding where the length in bits fits in two bytes and the last block has room for `zeros` bytes in front of
them, the leading bytes of the length field included (40_md R123). -/
theorem mdPad_eq {B zeros : Nat} {m : Bytes} (hB : 2 ≤ B / 8) (hbits : 8 * m.length < 256 ^ 2)
    (hzeros : B / 8 - 2 ≤ zeros) (h : mdBlocks B m.length * B = m.length + 3 + zeros) :
    mdPad B m = m ++ 0x80 :: List.replicate zeros 0 ++
      [BitVec.ofNat 8 (8 * m.length / 256), BitVec.ofNat 8 (8 * m.length)] := by
  obtain ⟨k, hk⟩ := Nat.exists_eq_add_of_le' hB
  obtain ⟨z, rfl⟩ : ∃ z, zeros = z + k := Nat.exists_eq_add_of_le' (by omega)
  have hz : m.length + 3 + (z + k) - (k + 2) - (m.length + 1) = z := by omega
  simp only [mdPad, h, hk, hz, beNat_two_bytes k hbits, List.replicate_add, List.append_assoc, List.cons_append,
    List.nil_append]

/-- The input of an MD variant, two digests, padded to `nblk` blocks (40_md R142). -/
theorem mdPad_two_digests {v : Variant} {nblk zeros : Nat} {b1 b2 : Byte} (hB : 2 ≤ blockOf v / 8)
    (hblk : mdBlocks (blockOf v) (2 * dlen v) = nblk) (hzeros : blockOf v / 8 - 2 ≤ zeros)
    (hroom : nblk * blockOf v = 2 * dlen v + 3 + zeros) (hb1 : BitVec.ofNat 8 (8 * (2 * dlen v) / 256) = b1)
    (hb2 : BitVec.ofNat 8 (8 * (2 * dlen v)) = b2) (m : Bytes) (hm : m.length = 2 * dlen v) :
    mdBlocks (blockOf v) m.length = nblk ∧ mdPad (blockOf v) m = m ++ 0x80 :: List.replicate zeros 0 ++ [b1, b2] ∧
      (mdPad (blockOf v) m).length = nblk * blockOf v := by
  have hn : mdBlocks (blockOf v) m.length = nblk := hm ▸ hblk
  have hbits : 8 * m.length < 256 ^ 2 := by
    have := (dlen_le_slotOf v).trans (slotOf_le v)
    omega
  have hpad := mdPad_eq hB hbits hzeros (by rw [hn, hroom, hm])
  rw [hm, hb1, hb2] at hpad
  refine ⟨hn, hpad, ?_⟩
  rw [hpad, hroom, ← hm]
  simp only [List.length_append, List.length_cons, List.length_replicate, List.length_nil]
  omega

/-- Settles O47: the table's row of each variant, and the padding with the room the row states. -/
theorem mdPadLayout : Obligations.MdPadLayout := by
  intro row hrow
  simp only [List.mem_cons, List.not_mem_nil, or_false] at hrow
  rcases hrow with rfl | rfl | rfl | rfl | rfl | rfl | rfl
  all_goals exact ⟨rfl, rfl, rfl, rfl, mdPad_two_digests (by decide) rfl (by decide) rfl rfl rfl⟩

end Sys2Proof.Machine

/-!
PROOF. The host programs of 30_encoding R102: a run of argument writes is a fold over the argument registers, a command
whose checks pass is accepted by a block that takes commands, and the arguments the two programs write pass them.
-/

namespace Sys2Proof.Machine

open Sys2Proof

/-! ## Running a program -/

/-- The writes of a list of arguments, by number. -/
def writeArgs (args : List (Nat × Word)) : List Move := args.map fun p => writeArg p.1 p.2

/-- The argument registers after these writes. -/
def argsAfter (x : Args) (args : List (Nat × Word)) : Args := args.foldl (fun x p => argSet x p.1 p.2) x

/-- Argument writes at the head of the agenda take one step each and change the argument registers alone
(44_system R257). -/
theorem run_writeArgs {args : List (Nat × Word)} (hargs : ∀ p ∈ args, p.1 < 8) {more : List Move} {s : State}
    (ha : s.agenda = writeArgs args ++ more) (k : Nat) :
    Host.Core.run Sys2Proof.core (args.length + k) s =
      Host.Core.run Sys2Proof.core k ((s.withAgenda more).withX (argsAfter s.x args)) := by
  induction args generalizing s with
  | nil =>
    rw [List.length_nil, Nat.zero_add, ← (show s.agenda = more from ha)]
    rfl
  | cons p args ih =>
    obtain ⟨hp, hrest⟩ := List.forall_mem_cons.mp hargs
    have hstep : step s = .next ((s.withAgenda (writeArgs args ++ more)).withX (argSet s.x p.1 p.2)) :=
      (step_cons ha).trans (perform_regWrite_arg hp p.2 _)
    rw [List.length_cons, Nat.add_right_comm, run_step hstep, ih hrest rfl]
    rfl

/-- The CMD write of a command at the head of the agenda takes one step, the command's (44_system R250). -/
theorem step_issue {i : Instr} {rest : List Move} {s : State} (ha : s.agenda = issue i :: rest) :
    step s = exec i (s.withAgenda rest) := by
  rw [step_cons ha, issue, perform_cmd, cmdWrite, decode_encode]

/-- A program that writes arguments and issues a command runs to what the command answers with these arguments. -/
theorem run_program {args : List (Nat × Word)} (hargs : ∀ p ∈ args, p.1 < 8) {i : Instr} {rest : List Move}
    {s t : State} (ha : s.agenda = writeArgs args ++ issue i :: rest)
    (hexec : exec i ((s.withX (argsAfter s.x args)).withAgenda rest) = .next t) :
    Host.Core.run Sys2Proof.core (args.length + 1) s = .next t := by
  rw [run_writeArgs hargs ha 1]
  exact run_step ((step_issue rfl).trans hexec)

/-! ## A command that is accepted -/

theorem issueCommand_accepted {op : Op} {v : Variant} {s : State} (hd : dropped s = false) :
    issueCommand op v none s = acceptCommand op v (clearDone s) := by
  rw [issueCommand, hd]
  rfl

theorem exec_hashOf_accepted {v : Variant} {s : State} (h : Ready s) (hc : checkHash v s.x = none) :
    exec (hashOf v) s = .next (acceptCommand .hash v (clearDone s)) := by
  rw [exec_hashOf, issueHash, hc, issueCommand_accepted h.dropped]

theorem exec_merklizeOf_accepted {v : Variant} {s : State} (h : Ready s) (hc : checkMerklize v s.x = none) :
    exec (merklizeOf v) s = .next (acceptCommand .merklize v (clearDone s)) := by
  rw [exec_merklizeOf, issueMerklize, hc, issueCommand_accepted h.dropped]

/-! ## The arguments of the two programs -/

/-- What `hash.v src, dst` writes (30_encoding R102). -/
def hashProgramArgs (v : Variant) (src dst : Word) : List (Nat × Word) :=
  [(0, src), (1, BitVec.ofNat 64 (2 * dlen v)), (3, dst), (4, BitVec.ofNat 64 (dlen v))]

theorem hashProgram_eq (v : Variant) (src dst : Word) :
    hashProgram v src dst = writeArgs (hashProgramArgs v src dst) ++ [issue (hashOf v)] := rfl

/-- What `merklize.v leaves, n, dst, batch` writes (30_encoding R102). -/
def merklizeProgramArgs (v : Variant) (leaves : Word) (n : Nat) (dst batch : Word) : List (Nat × Word) :=
  [(0, leaves), (1, BitVec.ofNat 64 (n * slotOf v)), (2, BitVec.ofNat 64 n), (3, dst),
   (4, BitVec.ofNat 64 (n * slotOf v)), (5, BitVec.ofNat 64 (n - 1)), (6, batch)]

theorem merklizeProgram_eq (v : Variant) (leaves : Word) (n : Nat) (dst batch : Word) :
    merklizeProgram v leaves n dst batch =
      writeArgs (merklizeProgramArgs v leaves n dst batch) ++ [issue (merklizeOf v)] := rfl

/-- Regions inside the address space are all `hash.v` needs. -/
theorem checkHash_hashProgram {v : Variant} {src dst : Word} (x : Args) (hsrc : src.toNat + 2 * dlen v ≤ 2 ^ 64)
    (hdst : dst.toNat + dlen v ≤ 2 ^ 64) : checkHash v (argsAfter x (hashProgramArgs v src dst)) = none := by
  have hd : dlen v ≤ 64 := (dlen_le_slotOf v).trans (slotOf_le v)
  have h2 : (BitVec.ofNat 64 (2 * dlen v)).toNat = 2 * dlen v := Nat.mod_eq_of_lt (by omega)
  have h1 : (BitVec.ofNat 64 (dlen v)).toNat = dlen v := Nat.mod_eq_of_lt (by omega)
  exact checkHash_eq_none.mpr ⟨h2, h1, h2.symm ▸ hsrc, h1.symm ▸ hdst⟩

/-- A power of two divides the leaf count's units into groups at every level (43_merger R218). -/
theorem batchFits_two_pow (m L : Nat) : batchFits (2 ^ m) (2 ^ L) = true := by
  rw [batchFits, Bool.and_eq_true, decide_eq_true_eq, List.all_eq_true]
  refine ⟨Nat.one_le_two_pow, fun k hk => ?_⟩
  rw [List.mem_range, levels_two_pow] at hk
  rw [beq_iff_eq, batchSize, pairCount_two_pow hk, ← Nat.dvd_iff_mod_eq_zero]
  rcases Nat.le_total m (L - (k + 1)) with h | h
  · rw [Nat.min_eq_left (Nat.pow_le_pow_right (by decide) h)]
    exact Nat.pow_dvd_pow 2 h
  · rw [Nat.min_eq_right (Nat.pow_le_pow_right (by decide) h)]

/-- Disjoint regions inside the address space and a batch that fits are all `merklize.v` needs. Disjointness keeps the
length of a region below 2^64, so that a register holds it. -/
theorem checkMerklize_merklizeProgram {v : Variant} {leaves dst batch : Word} {L : Nat} (x : Args) (hL : 1 ≤ L)
    (hsrc : leaves.toNat + 2 ^ L * slotOf v ≤ 2 ^ 64) (hdst : dst.toNat + 2 ^ L * slotOf v ≤ 2 ^ 64)
    (hapart : leaves.toNat + 2 ^ L * slotOf v ≤ dst.toNat ∨ dst.toNat + 2 ^ L * slotOf v ≤ leaves.toNat)
    (hbatch : batchFits batch.toNat (2 ^ L) = true) :
    checkMerklize v (argsAfter x (merklizeProgramArgs v leaves (2 ^ L) dst batch)) = none := by
  have hn : 2 ^ L ≤ 2 ^ L * slotOf v := Nat.le_mul_of_pos_right _ ((by decide : 0 < 20).trans_le (slotOf_ge v))
  have hlen : 2 ^ L * slotOf v < 2 ^ 64 := by
    have := leaves.isLt
    have := dst.isLt
    omega
  exact checkMerklize_eq_none.mpr ⟨L, {
    one_le := hL
    leaves := Nat.mod_eq_of_lt (hn.trans_lt hlen)
    srcLen := Nat.mod_eq_of_lt hlen
    itmd := Nat.mod_eq_of_lt ((Nat.sub_le _ _).trans_lt (hn.trans_lt hlen))
    dstLen := Nat.mod_eq_of_lt hlen
    batch := hbatch
    srcTop := hsrc
    dstTop := hdst
    apart := hapart }⟩

/-- Settles O15: the program runs to what its command answers, and the arguments it has written pass the checks. -/
theorem programsIssueCommands : Obligations.ProgramsIssueCommands := by
  constructor
  · intro v src dst rest s hready ha hsrc hdst
    rw [hashProgram_eq, List.append_assoc] at ha
    exact ⟨_, run_program (by simp [hashProgramArgs]) ha
      (exec_hashOf_accepted hready (checkHash_hashProgram s.x hsrc hdst)), rfl, rfl, rfl, rfl, rfl, rfl⟩
  · rintro v leaves dst batch n L rest s hready ha hL rfl hsrc hdst hapart ⟨m, -, hm⟩
    rw [merklizeProgram_eq, List.append_assoc] at ha
    have hbatch : batchFits batch.toNat (2 ^ L) = true := hm ▸ batchFits_two_pow m L
    exact ⟨_, run_program (by simp [merklizeProgramArgs]) ha
      (exec_merklizeOf_accepted hready (checkMerklize_merklizeProgram s.x hL hsrc hdst hapart hbatch)),
      rfl, rfl, rfl, rfl, rfl, rfl⟩

end Sys2Proof.Machine

/-!
PROOF. The message schedule and the rounds of a block, for any recurrence and any round function (40_md R127, R128,
R138): what word t is made from, and how the state after t rounds gives the state after one more.
-/

namespace Sys2Proof.Machine

open Sys2Proof

/-! ## The schedule, word by word -/

theorem getD_take {α : Type} (l : List α) (d : α) {n i : Nat} (h : i < n) : (l.take n).getD i d = l.getD i d := by
  rw [List.getD_eq_getElem?_getD, List.getElem?_take_of_lt h, List.getD_eq_getElem?_getD]

section Schedule
variable {α : Type} {next : List α → α}

theorem extend_add (a b : Nat) (l : List α) : extend next (a + b) l = extend next b (extend next a l) := by
  induction a generalizing l with
  | zero => rw [Nat.zero_add]; rfl
  | succ a ih => rw [Nat.succ_add]; exact ih (next l :: l)

/-- The last of the new words stands in front of the words it is made from. -/
theorem extend_succ (n : Nat) (l : List α) : extend next (n + 1) l = next (extend next n l) :: extend next n l :=
  extend_add n 1 l

variable {m : List α} {rounds : Nat}

theorem schedule_length (hm : m.length = 16) (hr : 16 ≤ rounds) : (schedule next rounds m).length = rounds := by
  rw [schedule, List.length_reverse, extend_length, List.length_reverse, hm]; omega

/-- The first words of the schedule are those of the block. -/
theorem schedule_getD_block (d : α) {t : Nat} (ht : t < m.length) :
    (schedule next rounds m).getD t d = m.getD t d := by
  obtain ⟨e, he⟩ := extend_prefix next (rounds - 16) m.reverse
  rw [schedule, he, List.reverse_reverse, List.getD_append _ _ _ _ ht]

/-- The words made when t words stand are the latest ones of the schedule cut at t. -/
theorem extend_eq_take_schedule (hm : m.length = 16) {t : Nat} (ht : 16 ≤ t) (htr : t ≤ rounds) :
    extend next (t - 16) m.reverse = ((schedule next rounds m).take t).reverse := by
  obtain ⟨e, he⟩ := extend_prefix next (rounds - t) (extend next (t - 16) m.reverse)
  have hlen : (extend next (t - 16) m.reverse).reverse.length = t := by
    rw [List.length_reverse, extend_length, List.length_reverse, hm]; omega
  rw [schedule, show rounds - 16 = t - 16 + (rounds - t) by omega, extend_add, he, List.take_left' hlen,
    List.reverse_reverse]

/-- Place k among the latest of t words is word t - 1 - k. -/
theorem reverse_take_getD (d : α) {ws : List α} {t k : Nat} (ht : t ≤ ws.length) (hk : k < t) :
    (ws.take t).reverse.getD k d = ws.getD (t - (k + 1)) d := by
  have hlen : (ws.take t).length = t := by simp [ht]
  rw [List.getD_eq_getElem _ _ (by rw [List.length_reverse, hlen]; exact hk),
    List.getD_eq_getElem _ _ (by omega), List.getElem_reverse, List.getElem_take]
  congr 1
  omega

/-- Word t from 16 on is made from the words before it. -/
theorem schedule_getD_next (hm : m.length = 16) (d : α) {t : Nat} (ht : 16 ≤ t) (htr : t < rounds) :
    (schedule next rounds m).getD t d = next ((schedule next rounds m).take t).reverse := by
  have hlen := schedule_length (next := next) hm (ht.trans htr.le)
  have hsucc := extend_succ (next := next) (t - 16) m.reverse
  rw [show t - 16 + 1 = t + 1 - 16 by omega, extend_eq_take_schedule hm (by omega) htr,
    extend_eq_take_schedule hm ht htr.le] at hsucc
  have hlast := reverse_take_getD d (ws := schedule next rounds m) (t := t + 1) (k := 0) (by omega) (by omega)
  rw [hsucc] at hlast
  exact hlast.symm

end Schedule

/-! ## The rounds of a block -/

section Rounds
variable {σ α : Type}

/-- The state after t rounds, where round t takes the word at place t. -/
def afterRounds (round : Nat → α → σ → σ) (zero : α) (ws : List α) (s : σ) (t : Nat) : σ :=
  (List.range t).foldl (fun s t => round t (ws.getD t zero) s) s

variable (round : Nat → α → σ → σ) (zero : α) (ws : List α) (s : σ)

@[simp] theorem afterRounds_zero : afterRounds round zero ws s 0 = s := rfl

theorem afterRounds_succ (t : Nat) :
    afterRounds round zero ws s (t + 1) = round t (ws.getD t zero) (afterRounds round zero ws s t) := by
  rw [afterRounds, List.range_succ, List.foldl_concat]; rfl

theorem zipIdx_eq_map_range : ws.zipIdx = (List.range ws.length).map fun t => (ws.getD t zero, t) := by
  refine List.ext_getElem (by simp) fun t ht _ => ?_
  have ht : t < ws.length := by simpa using ht
  simp [ht]

/-- The rounds over the whole schedule are as many rounds as it has words. -/
theorem runFull_eq : runFull round ws s = afterRounds round zero ws s ws.length := by
  rw [runFull, zipIdx_eq_map_range zero, List.foldl_map]; rfl

end Rounds

end Sys2Proof.Machine

/-!
PROOF. Holding the last 16 schedule words is holding them all (92 D34; 40_md R127): the recurrence reads 16 words and no
more, so the rolling store is at every round the newest 16 of the whole schedule, and the rounds get the same words.
-/

namespace Sys2Proof.Machine

open Sys2Proof

/-! ## The rolling store -/

/-- The recurrence reads the 16 latest words alone. -/
def ReadsLatest16 {α : Type} (next : List α → α) : Prop := ∀ latest, next (latest.take 16) = next latest

theorem expandNext_readsLatest16 {w : Nat} (c : MdConfig w) : ReadsLatest16 (expandNext c) := fun latest => by
  unfold expandNext
  rw [getD_take latest 0 (by decide), getD_take latest 0 (by decide), getD_take latest 0 (by decide),
    getD_take latest 0 (by decide)]

theorem expandNext1_readsLatest16 : ReadsLatest16 expandNext1 := fun latest => by
  unfold expandNext1
  rw [getD_take latest 0 (by decide), getD_take latest 0 (by decide), getD_take latest 0 (by decide),
    getD_take latest 0 (by decide)]

section Window
variable {σ α : Type} {next : List α → α} {m : List α} {rounds : Nat}

/-- The store and the state after t rounds with the last 16 words in store. -/
theorem window_rounds (hnext : ReadsLatest16 next) (hm : m.length = 16) (zero : α) (round : Nat → α → σ → σ) (s : σ)
    {t : Nat} (ht : t ≤ rounds) :
    runWindow next zero round t m s =
      ((extend next (t - 16) m.reverse).take 16, afterRounds round zero (schedule next rounds m) s t) := by
  induction t with
  | zero => simp [runWindow, extend, hm]
  | succ t ih =>
    have hstep : runWindow next zero round (t + 1) m s =
        windowStep next zero round m (runWindow next zero round t m s) t := by
      rw [runWindow, List.range_succ, List.foldl_concat]; rfl
    rw [hstep, ih (by omega), windowStep, afterRounds_succ]
    by_cases h : t < 16
    · have hstore : t + 1 - 16 = t - 16 := by omega
      rw [if_pos h, schedule_getD_block zero (by omega), hstore]
    · have hword : (schedule next rounds m).getD t zero = next (extend next (t - 16) m.reverse) := by
        rw [schedule_getD_next hm zero (by omega) ht,
          extend_eq_take_schedule (rounds := rounds) hm (by omega) (by omega)]
      have hstore : t + 1 - 16 = t - 16 + 1 := by omega
      rw [if_neg h, hnext, hword, hstore, extend_succ, List.take_succ_cons, List.take_take]
      rfl

/-- The 16 words the rolling store ends with, oldest first, are the last of the schedule. -/
theorem window_store_eq_drop (hm : m.length = 16) (hr : 16 ≤ rounds) :
    ((extend next (rounds - 16) m.reverse).take 16).reverse = (schedule next rounds m).drop (rounds - 16) := by
  have hlen : (extend next (rounds - 16) m.reverse).length = rounds := by
    rw [extend_length, List.length_reverse, hm]; omega
  rw [schedule, List.drop_reverse, hlen, show rounds - (rounds - 16) = 16 by omega]

/-- The rounds end in the same state under both stores, and the rolling store holds the last 16 words. -/
theorem runWindow_eq (hnext : ReadsLatest16 next) (hm : m.length = 16) (hr : 16 ≤ rounds) (zero : α)
    (round : Nat → α → σ → σ) (s : σ) :
    (runWindow next zero round rounds m s).1.reverse = (schedule next rounds m).drop (rounds - 16) ∧
      (runWindow next zero round rounds m s).2 = runFull round (schedule next rounds m) s := by
  rw [window_rounds hnext hm zero round s le_rfl]
  exact ⟨window_store_eq_drop hm hr, by rw [runFull_eq round zero, schedule_length hm hr]⟩

end Window

/-! ## Blocks under both stores -/

theorem mdBlock_window {w : Nat} (c : MdConfig w) (hc : 16 ≤ c.k.length) (B j : Nat) (r : MdRegs w) :
    mdBlock .window16 c B r j =
      { mdBlock .full c B r j with ws := (mdBlock .full c B r j).ws.drop (c.k.length - 16) } := by
  obtain ⟨hstore, hstate⟩ := runWindow_eq (expandNext_readsLatest16 c) (mdWords_length w B r.pm j) hc 0
    (fun t x s => mdRound c (c.k.getD t 0) x s) (workOf r.hs)
  simp only [mdBlock, hstore, hstate]

theorem sha1Block_window (j : Nat) (r : Sha1Regs) :
    sha1Block .window16 r j = { sha1Block .full r j with ws := (sha1Block .full r j).ws.drop 64 } := by
  obtain ⟨hstore, hstate⟩ := runWindow_eq expandNext1_readsLatest16 (mdWords_length 32 64 r.pm j)
    (by decide : 16 ≤ sha1Rounds) 0 sha1Round (work1Of r.hs)
  simp only [sha1Block, hstore, hstate]
  rfl

/-! ## Runs under both stores -/

theorem mdRun_window_hs {w : Nat} (c : MdConfig w) (hc : 16 ≤ c.k.length) (B : Nat) (iv : List (BitVec w)) (m : Bytes) :
    (mdRun .window16 c B iv m).hs = (mdRun .full c B iv m).hs := by
  refine (List.foldl_rel (r := fun r r' : MdRegs w => r.pm = r'.pm ∧ r.hs = r'.hs) ⟨rfl, rfl⟩ fun j _ r r' h => ?_).2
  obtain ⟨hpm, hhs⟩ := h
  rw [mdBlock_window c hc]
  simp only [mdBlock, hpm, hhs, and_self]

theorem sha1Run_window_hs (m : Bytes) : (sha1Run .window16 m).hs = (sha1Run .full m).hs := by
  refine (List.foldl_rel (r := fun r r' : Sha1Regs => r.pm = r'.pm ∧ r.hs = r'.hs) ⟨rfl, rfl⟩ fun j _ r r' h => ?_).2
  obtain ⟨hpm, hhs⟩ := h
  rw [sha1Block_window]
  simp only [sha1Block, hpm, hhs, and_self]

theorem md32_rounds : md32.k.length = 64 := rfl

theorem md64_rounds : md64.k.length = 80 := rfl

/-- No digest depends on the schedule store. -/
theorem digestOf_window (path : KpPath) (v : Variant) (m : Bytes) :
    digestOf v (runEngine path .window16 v m) = digestOf v (runEngine path .full v m) := by
  unfold runEngine
  cases designOf v <;> simp only [digestOf]
  case sha1 => rw [sha1Run_window_hs]
  case md32 => rw [mdRun_window_hs md32 (by decide)]
  case md64 => rw [mdRun_window_hs md64 (by decide)]

/-- Settles O52: by block, then by run. -/
theorem mdSchedUnobservable : Obligations.MdSchedUnobservable := by
  refine ⟨fun B j r => ?_, fun B j r => ?_, fun j r => ?_, digestOf_window⟩
  · rw [mdBlock_window md32 (by decide), md32_rounds]; exact ⟨rfl, rfl⟩
  · rw [mdBlock_window md64 (by decide), md64_rounds]; exact ⟨rfl, rfl⟩
  · rw [sha1Block_window]; exact ⟨rfl, rfl⟩

end Sys2Proof.Machine

/-!
PROOF. SHA-1 (40_md R137 to R141): the schedule and the round with the rotations of bit vectors, one block, the block
loop, and the digest.
-/

namespace Sys2Proof.Machine

open Sys2Proof

/-! ## Reading the words a recurrence takes -/

/-- SHA-1 schedule word t from the four words it reads (40_md R138). -/
theorem schedule1_getD {m : List (BitVec 32)} (hm : m.length = 16) {t : Nat} (ht : 16 ≤ t) (htr : t < 80) :
    let x := fun t => (schedule expandNext1 80 m).getD t 0
    x t = (x (t - 3) ^^^ x (t - 8) ^^^ x (t - 14) ^^^ x (t - 16)).rotateLeft 1 := by
  have hlen := schedule_length (next := expandNext1) hm (by decide : 16 ≤ 80)
  intro x
  have hread : ∀ k, k < t → ((schedule expandNext1 80 m).take t).reverse.getD k 0 = x (t - (k + 1)) :=
    fun k hk => reverse_take_getD 0 (by omega) hk
  calc x t = expandNext1 ((schedule expandNext1 80 m).take t).reverse := schedule_getD_next hm 0 ht htr
    _ = _ := by
      rw [expandNext1, hread 2 (by omega), hread 7 (by omega), hread 13 (by omega), hread 15 (by omega),
        rotl_eq _ (by decide)]

/-! ## Round functions and constants -/

theorem sha1F_sha1K_values (t : Nat) (b c d : BitVec 32) :
    (t ≤ 19 → sha1F t b c d = (b &&& c) ^^^ (~~~b &&& d) ∧ sha1K t = 0x5a827999) ∧
      (20 ≤ t → t ≤ 39 → sha1F t b c d = b ^^^ c ^^^ d ∧ sha1K t = 0x6ed9eba1) ∧
      (40 ≤ t → t ≤ 59 → sha1F t b c d = (b &&& c) ^^^ (b &&& d) ^^^ (c &&& d) ∧ sha1K t = 0x8f1bbcdc) ∧
      (60 ≤ t → t ≤ 79 → sha1F t b c d = b ^^^ c ^^^ d ∧ sha1K t = 0xca62c1d6) := by
  unfold sha1F sha1K
  refine ⟨fun h => ?_, fun h h' => ?_, fun h h' => ?_, fun h h' => ?_⟩
  · simp only [show t < 20 by omega, if_true, and_self]
  · simp only [show ¬t < 20 by omega, show t < 40 by omega, if_true, if_false, and_self]
  · simp only [show ¬t < 20 by omega, show ¬t < 40 by omega, show t < 60 by omega, if_true, if_false, and_self]
  · simp only [show ¬t < 20 by omega, show ¬t < 40 by omega, show ¬t < 60 by omega, if_false, and_self]

/-! ## One block and the block loop -/

theorem feedForward_work1List {hs : List (BitVec 32)} (h : hs.length = 5) (z : Work1) :
    feedForward hs (work1List z) = [hs.getD 0 0 + z.a, hs.getD 1 0 + z.b, hs.getD 2 0 + z.c, hs.getD 3 0 + z.d,
      hs.getD 4 0 + z.e] := by
  match hs, h with
  | [_, _, _, _, _], _ => rfl

/-- The chaining words after a block (40_md R139, R141). -/
theorem sha1Block_full_hs (r : Sha1Regs) (j : Nat) :
    (sha1Block .full r j).hs = feedForward r.hs (work1List
      (afterRounds sha1Round 0 (schedule expandNext1 80 (mdWords 32 64 r.pm j)) (work1Of r.hs) 80)) := by
  have hlen := schedule_length (next := expandNext1) (mdWords_length 32 64 r.pm j) (by decide : 16 ≤ 80)
  have hrun := runFull_eq sha1Round 0 (schedule expandNext1 80 (mdWords 32 64 r.pm j)) (work1Of r.hs)
  rw [hlen] at hrun
  rw [← hrun]
  rfl

/-- The registers after j blocks of a SHA-1 run. -/
def sha1RegsAt (m : Bytes) (j : Nat) : Sha1Regs :=
  (List.range j).foldl (sha1Block .full)
    { pm := mdPad 64 m, hs := ivSha1, ws := [], vars := work1Of ivSha1, t := 0, j := 0 }

theorem sha1RegsAt_succ (m : Bytes) (j : Nat) : sha1RegsAt m (j + 1) = sha1Block .full (sha1RegsAt m j) j := by
  rw [sha1RegsAt, List.range_succ, List.foldl_concat]; rfl

theorem sha1Run_full_eq (m : Bytes) : sha1Run .full m = sha1RegsAt m (mdBlocks 64 m.length) := rfl

/-- The digest is uncut: five words of four bytes are dlen bytes (40_md R141). -/
theorem compress_sha1 (m : Bytes) : compress .sha1 m = (sha1Run .full m).hs.flatMap toBe := by
  have hlen : ((sha1Run .full m).hs.flatMap toBe).length = 20 := by
    simp [List.length_flatMap, sha1Run_hs_length]
  exact List.take_of_length_le hlen.le

/-- Settles O50: part by part. -/
theorem sha1Steps : Obligations.Sha1Steps := by
  refine ⟨fun m hm => ⟨schedule_length hm (by decide), fun t ht => schedule_getD_block 0 (by omega),
    fun t ht htr => schedule1_getD hm ht htr⟩, sha1F_sha1K_values, fun t x s => ?_, fun j r h => ?_, fun m => ?_⟩
  · rw [sha1Round, rotl_eq _ (by decide), rotl_eq _ (by decide)]
  · refine ⟨afterRounds sha1Round 0 (schedule expandNext1 80 (mdWords 32 64 r.pm j)) (work1Of r.hs), rfl,
      fun t _ => afterRounds_succ .., ?_, rfl⟩
    rw [sha1Block_full_hs, feedForward_work1List h]
  · exact ⟨sha1RegsAt m, rfl, rfl, fun j _ => sha1RegsAt_succ m j, sha1Run_hs_length .full m, compress_sha1 m⟩

end Sys2Proof.Machine

/-!
PROOF. SHA-2 (40_md R122 to R130): the logical functions with the rotations of bit vectors, how a block is parsed, the
schedule, one block and the block loop, for any configuration; then the schedule on both word widths.
-/

namespace Sys2Proof.Machine

open Sys2Proof

/-! ## Logical functions -/

theorem bigSigma_eq {w : Nat} {a b c : Nat} (ha : a < w) (hb : b < w) (hc : c < w) (x : BitVec w) :
    bigSigma (a, b, c) x = x.rotateRight a ^^^ x.rotateRight b ^^^ x.rotateRight c := by
  rw [bigSigma, rotr_eq x ha, rotr_eq x hb, rotr_eq x hc]

theorem smallSigma_eq {w : Nat} {a b c : Nat} (ha : a < w) (hb : b < w) (x : BitVec w) :
    smallSigma (a, b, c) x = x.rotateRight a ^^^ x.rotateRight b ^^^ x >>> c := by
  rw [smallSigma, rotr_eq x ha, rotr_eq x hb, shr]

@[simp] theorem rotr_zero_word {w : Nat} (n : Nat) : rotr 0#w n = 0#w := by simp [rotr]

theorem bigSigma_zero_word {w : Nat} (r : Nat × Nat × Nat) : bigSigma r (0 : BitVec w) = 0 := by simp [bigSigma]

theorem smallSigma_zero_word {w : Nat} (r : Nat × Nat × Nat) : smallSigma r (0 : BitVec w) = 0 := by
  simp [smallSigma, shr]

/-- Ch with all bits of x set selects y. -/
theorem ch_allOnes {w : Nat} (y z : BitVec w) : ch (BitVec.allOnes w) y z = y := by simp [ch]

/-- Ch with no bit of x set selects z. -/
theorem ch_zero {w : Nat} (y z : BitVec w) : ch 0 y z = z := by simp [ch]

/-- Maj is what two of its words agree on. -/
theorem maj_self {w : Nat} (x z : BitVec w) : maj x x z = x := by simp [maj]

/-! ## Parsing -/

theorem mdWords_getD (w B : Nat) (pm : Bytes) (j : Nat) {i : Nat} (hi : i < 16) :
    (mdWords w B pm j).getD i 0 = beWord w ((pm.drop (j * B + i * (w / 8))).take (w / 8)) :=
  getD_map_range _ 16 i 0 hi

/-- Byte b of a big-endian word is byte b of the list it was read from. -/
theorem beWord_byte {w k : Nat} (hw : w = 8 * k) {s : Bytes} (hs : s.length = k) {b : Nat} (hb : b < k) :
    (beWord w s).extractLsb' (w - 8 - 8 * b) 8 = s.getD b 0 := by
  rw [← toBe_getD (beWord w s) (by omega), toBe_beWord hw hs]

/-- Word i of block j is the w/8 bytes of the padded message at its place, first byte most significant (40_md R124). -/
theorem mdWords_byte {w k B : Nat} (hw : w = 8 * k) (hB : B = 16 * k) {pm : Bytes} {j i b : Nat} (hi : i < 16)
    (hb : b < k) (hpm : (j + 1) * B ≤ pm.length) :
    ((mdWords w B pm j).getD i 0).extractLsb' (w - 8 - 8 * b) 8 = pm.getD (j * B + i * k + b) 0 := by
  have hk : w / 8 = k := by omega
  have hroom : j * B + i * k + k ≤ pm.length := calc
    j * B + i * k + k = j * B + (i + 1) * k := by ring
    _ ≤ j * B + 16 * k := Nat.add_le_add_left (Nat.mul_le_mul_right k hi) _
    _ = (j + 1) * B := by rw [hB]; ring
    _ ≤ pm.length := hpm
  have hlen : ((pm.drop (j * B + i * k)).take k).length = k := by simp; omega
  rw [mdWords_getD w B pm j hi, hk, beWord_byte hw hlen hb, getD_take _ _ hb, List.getD_eq_getElem?_getD,
    List.getElem?_drop, List.getD_eq_getElem?_getD]

/-! ## The schedule -/

/-- SHA-2 schedule word t from the four words it reads (40_md R127). -/
theorem schedule2_getD {w : Nat} (c : MdConfig w) {m : List (BitVec w)} {rounds : Nat} (hm : m.length = 16) {t : Nat}
    (ht : 16 ≤ t) (htr : t < rounds) :
    let x := fun t => (schedule (expandNext c) rounds m).getD t 0
    x t = smallSigma c.smallSigma1 (x (t - 2)) + x (t - 7) + smallSigma c.smallSigma0 (x (t - 15)) + x (t - 16) := by
  have hlen := schedule_length (next := expandNext c) hm (ht.trans htr.le)
  intro x
  have hread : ∀ k, k < t → ((schedule (expandNext c) rounds m).take t).reverse.getD k 0 = x (t - (k + 1)) :=
    fun k hk => reverse_take_getD 0 (by omega) hk
  calc x t = expandNext c ((schedule (expandNext c) rounds m).take t).reverse := schedule_getD_next hm 0 ht htr
    _ = _ := by rw [expandNext, hread 1 (by omega), hread 6 (by omega), hread 14 (by omega), hread 15 (by omega)]

/-- Settles O48: the recurrence of any configuration, with the amounts of the two word widths. -/
theorem sha2Schedule : Obligations.Sha2Schedule := by
  refine ⟨fun m hm => ⟨schedule_length hm (by decide), fun _ ht => schedule_getD_block 0 (hm ▸ ht), ?w32⟩,
    fun m hm => ⟨schedule_length hm (by decide), fun _ ht => schedule_getD_block 0 (hm ▸ ht), ?w64⟩⟩
  case w32 =>
    intro t ht htr
    rw [schedule2_getD md32 hm ht htr, md32, smallSigma_eq (by decide) (by decide) _,
      smallSigma_eq (by decide) (by decide) _]
  case w64 =>
    intro t ht htr
    rw [schedule2_getD md64 hm ht htr, md64, smallSigma_eq (by decide) (by decide) _,
      smallSigma_eq (by decide) (by decide) _]

/-! ## One block and the block loop -/

theorem feedForward_workList {w : Nat} {hs : List (BitVec w)} (h : hs.length = 8) (z : Work w) :
    feedForward hs (workList z) = [hs.getD 0 0 + z.a, hs.getD 1 0 + z.b, hs.getD 2 0 + z.c, hs.getD 3 0 + z.d,
      hs.getD 4 0 + z.e, hs.getD 5 0 + z.f, hs.getD 6 0 + z.g, hs.getD 7 0 + z.h] := by
  match hs, h with
  | [_, _, _, _, _, _, _, _], _ => rfl

/-- The working variables after t rounds of block j (40_md R128, R129). -/
def mdVarsAt {w : Nat} (c : MdConfig w) (B : Nat) (r : MdRegs w) (j t : Nat) : Work w :=
  afterRounds (fun t x s => mdRound c (c.k.getD t 0) x s) 0 (schedule (expandNext c) c.k.length (mdWords w B r.pm j))
    (workOf r.hs) t

/-- The chaining words after a block (40_md R130). -/
theorem mdBlock_full_hs {w : Nat} (c : MdConfig w) (hc : 16 ≤ c.k.length) (B : Nat) (r : MdRegs w) (j : Nat) :
    (mdBlock .full c B r j).hs = feedForward r.hs (workList (mdVarsAt c B r j c.k.length)) := by
  have hlen := schedule_length (next := expandNext c) (mdWords_length w B r.pm j) hc
  have hrun := runFull_eq (fun t x s => mdRound c (c.k.getD t 0) x s) 0
    (schedule (expandNext c) c.k.length (mdWords w B r.pm j)) (workOf r.hs)
  rw [hlen] at hrun
  exact congrArg (fun z => feedForward r.hs (workList z)) hrun

/-- The registers after j blocks of a SHA-2 run (40_md R125). -/
def mdRegsAt {w : Nat} (c : MdConfig w) (B : Nat) (iv : List (BitVec w)) (m : Bytes) (j : Nat) : MdRegs w :=
  (List.range j).foldl (mdBlock .full c B) { pm := mdPad B m, hs := iv, ws := [], vars := workOf iv, t := 0, j := 0 }

theorem mdRegsAt_succ {w : Nat} (c : MdConfig w) (B : Nat) (iv : List (BitVec w)) (m : Bytes) (j : Nat) :
    mdRegsAt c B iv m (j + 1) = mdBlock .full c B (mdRegsAt c B iv m j) j := by
  rw [mdRegsAt, List.range_succ, List.foldl_concat]; rfl

/-! ## The digest of a SHA-2 variant -/

theorem compress_of_md32 {v : Variant} (h : designOf v = .md32) (m : Bytes) :
    compress v m = mdEmit (dlen v) (mdRun .full md32 (blockOf v) (iv32Of v) m).hs := by
  rw [compress, runEngine, h]; rfl

theorem compress_of_md64 {v : Variant} (h : designOf v = .md64) (m : Bytes) :
    compress v m = mdEmit (dlen v) (mdRun .full md64 (blockOf v) (iv64Of v) m).hs := by
  rw [compress, runEngine, h]; rfl

end Sys2Proof.Machine

/-!
PROOF. The round constants K by their definition (40_md R132, R135): the first 80 primes by trial division, and the
fractional part of each one's cube root as two inequalities between cubes.
-/

namespace Sys2Proof.Machine

open Sys2Proof

/-! ## The first 80 primes -/

/-- Trial division by the numbers below 21; it decides primality below 21 * 21. -/
def trialPrime (n : Nat) : Bool :=
  decide (2 ≤ n) && (List.range 21).all fun d => decide (d < 2) || decide (n < d * d) || n % d != 0

theorem trialPrime_iff {n : Nat} (hn : n < 441) : trialPrime n = true ↔ n.Prime := by
  rw [Nat.prime_def_le_sqrt]
  simp only [trialPrime, Bool.and_eq_true, decide_eq_true_eq, List.all_eq_true, List.mem_range, Bool.or_eq_true,
    bne_iff_ne, Nat.dvd_iff_mod_eq_zero, Nat.le_sqrt]
  refine and_congr_right fun _ => ⟨fun h d hd hdn => ?_, fun h d _ => ?_⟩
  · have hlt : d < 21 := by nlinarith
    rcases h d hlt with (h | h) | h
    · omega
    · omega
    · exact h
  · by_cases hd : d < 2
    · exact .inl (.inl hd)
    · by_cases hdn : n < d * d
      · exact .inl (.inr hdn)
      · exact .inr (h d (by omega) (by omega))

/-- The primes up to 409, the 80th. -/
def firstPrimes : List Nat :=
  [2, 3, 5, 7, 11, 13, 17, 19, 23, 29, 31, 37, 41, 43, 47, 53, 59, 61, 67, 71, 73, 79, 83, 89, 97, 101, 103, 107, 109,
   113, 127, 131, 137, 139, 149, 151, 157, 163, 167, 173, 179, 181, 191, 193, 197, 199, 211, 223, 227, 229, 233, 239,
   241, 251, 257, 263, 269, 271, 277, 281, 283, 293, 307, 311, 313, 317, 331, 337, 347, 349, 353, 359, 367, 373, 379,
   383, 389, 397, 401, 409]

theorem filter_trialPrime : (List.range 410).filter trialPrime = firstPrimes := by decide +kernel

/-- The numbers below a bound that meet a predicate, in order, are the first ones that do. -/
theorem filter_range_getElem (p : Nat → Prop) [DecidablePred p] (N t : Nat)
    (ht : t < ((List.range N).filter p).length) : ((List.range N).filter p)[t] = Nat.nth p t := by
  induction N with
  | zero => simp at ht
  | succ N ih =>
    by_cases hp : p N
    · have hsnoc : (List.range (N + 1)).filter p = (List.range N).filter p ++ [N] := by simp [List.range_succ, hp]
      simp only [hsnoc, List.length_append, List.length_singleton] at ht ⊢
      by_cases hlt : t < ((List.range N).filter p).length
      · rw [List.getElem_append_left hlt, ih hlt]
      · have hcount : t = Nat.count p N := by rw [Nat.count, List.countP_eq_length_filter]; omega
        rw [List.getElem_append_right (by omega), List.getElem_singleton, hcount, Nat.nth_count hp]
    · have hsame : (List.range (N + 1)).filter p = (List.range N).filter p := by simp [List.range_succ, hp]
      simp only [hsame] at ht ⊢
      exact ih ht

theorem filter_prime : (List.range 410).filter Nat.Prime = firstPrimes := by
  rw [← filter_trialPrime]
  refine List.filter_congr fun n hn => Bool.eq_iff_iff.mpr ?_
  have hn : n < 410 := List.mem_range.mp hn
  rw [decide_eq_true_eq, trialPrime_iff (by omega)]

theorem firstPrimes_getD {t : Nat} (ht : t < 80) : firstPrimes.getD t 0 = Nat.nth Nat.Prime t := by
  have hlen : t < ((List.range 410).filter Nat.Prime).length := by rw [filter_prime]; exact ht
  rw [← filter_prime, List.getD_eq_getElem _ _ hlen, filter_range_getElem]

/-! ## The constants -/

/-- K512[t] is the first 64 bits of the fractional part of the cube root of prime number t + 1: with n the root's whole
part, n * 2^64 + K512[t] is the largest number whose cube is at most the prime times 2^192. -/
theorem k512_cube_root : ∀ t, t < 80 → ∃ n, n < 8 ∧
    (n * 2 ^ 64 + (md64.k.getD t 0).toNat) ^ 3 ≤ firstPrimes.getD t 0 * 2 ^ 192 ∧
      firstPrimes.getD t 0 * 2 ^ 192 < (n * 2 ^ 64 + (md64.k.getD t 0).toNat + 1) ^ 3 := by decide +kernel

end Sys2Proof.Machine

/-!
PROOF. The parts of SHA-2 put together: the constants K in their words, one block and the run as sequences of states,
and every variant's IV and digest (40_md R122 to R135).
-/

namespace Sys2Proof.Machine

open Sys2Proof

/-! ## K256 and K512 -/

/-- K256 is the upper halves of the first 64 words of K512 (40_md R132, R135). -/
theorem md32_k_getD {t : Nat} (ht : t < 64) : md32.k.getD t 0 = (md64.k.getD t 0).extractLsb' 32 32 := by
  have hlen : t < k512.length := ht.trans_le (by decide : 64 ≤ k512.length)
  simp [md32, md64, k256, List.getD_eq_getElem?_getD, List.getElem?_take_of_lt ht, hlen]

/-- Settles O49: part by part. -/
theorem sha2Round : Obligations.Sha2Round := by
  refine ⟨fun x => ⟨bigSigma_eq ?_ ?_ ?_ x, bigSigma_eq ?_ ?_ ?_ x, smallSigma_eq ?_ ?_ x, smallSigma_eq ?_ ?_ x⟩,
    fun x => ⟨bigSigma_eq ?_ ?_ ?_ x, bigSigma_eq ?_ ?_ ?_ x, smallSigma_eq ?_ ?_ x, smallSigma_eq ?_ ?_ x⟩,
    fun w x y z => ⟨rfl, rfl, ch_allOnes y z, ch_zero y z, maj_self x z, ch_zero 0 0, maj_self 0 0,
      fun r => ⟨bigSigma_zero_word r, smallSigma_zero_word r⟩⟩,
    fun pm j i hi => ⟨mdWords_length .., mdWords_length .., fun b hb => mdWords_byte rfl rfl hi hb,
      fun b hb => mdWords_byte rfl rfl hi hb⟩,
    ⟨md32_rounds, md64_rounds, fun t ht => md32_k_getD ht, fun t ht => ?constants⟩, fun w c k x s => rfl,
    fun w c B j r hhs hc => ⟨mdVarsAt c B r j, rfl, fun t _ => afterRounds_succ .., ?block, rfl⟩,
    fun w c B iv m => ⟨mdRegsAt c B iv m, rfl, rfl, fun j _ => mdRegsAt_succ c B iv m j, rfl⟩,
    fun row hrow => ?iv32, fun row hrow => ?iv64⟩
  case constants =>
    obtain ⟨n, -, hlow, hhigh⟩ := k512_cube_root t ht
    rw [← firstPrimes_getD ht]
    exact ⟨n, hlow, hhigh⟩
  case block => rw [mdBlock_full_hs c hc, feedForward_workList hhs]
  case iv32 =>
    obtain ⟨hdesign, hblock, hiv⟩ : designOf row.1 = .md32 ∧ blockOf row.1 = 64 ∧
        (iv32Of row.1).foldl (fun n x => n * 2 ^ 32 + x.toNat) 0 = row.2 := by revert row; decide
    exact ⟨iv32Of_length _, hiv, fun m => by rw [compress_of_md32 hdesign, hblock]⟩
  case iv64 =>
    obtain ⟨hdesign, hblock, hiv⟩ : designOf row.1 = .md64 ∧ blockOf row.1 = 128 ∧
        (iv64Of row.1).foldl (fun n x => n * 2 ^ 64 + x.toNat) 0 = row.2.1 * 2 ^ 256 + row.2.2 := by revert row; decide
    exact ⟨iv64Of_length _, hiv, fun m => by rw [compress_of_md64 hdesign, hblock]⟩
  all_goals decide

end Sys2Proof.Machine

/-!
PROOF. A digest's bytes and their number (40_md R131, R141; 41_kp R171; 42_hash R189): words of a fixed number of bytes
one after the other, cut at the digest's length.
-/

namespace Sys2Proof.Machine

open Sys2Proof

/-! ## Byte i of a digest -/

/-- Place i of rows of k places one after the other. -/
theorem flatMap_getD {α β : Type} (f : α → List β) {k : Nat} (hf : ∀ a, (f a).length = k) (a₀ : α) (b₀ : β)
    (l : List α) {i : Nat} (hi : i < k * l.length) :
    (l.flatMap f).getD i b₀ = (f (l.getD (i / k) a₀)).getD (i % k) b₀ := by
  induction l generalizing i with
  | nil => simp at hi
  | cons a l ih =>
    rw [List.length_cons, Nat.mul_succ] at hi
    rw [List.flatMap_cons]
    by_cases h : i < k
    · rw [List.getD_append _ _ _ _ (by rw [hf]; exact h), Nat.div_eq_of_lt h, Nat.mod_eq_of_lt h, List.getD_cons_zero]
    · have hk : k ≤ i := Nat.le_of_not_lt h
      have hpos : 0 < k := Nat.pos_of_ne_zero fun h0 => by simp [h0] at hi
      rw [List.getD_append_right _ _ _ _ (by rw [hf]; exact hk), hf, ih (by omega), Nat.div_eq_sub_div hpos hk,
        List.getD_cons_succ, Nat.mod_eq_sub_mod hk]

/-- Byte i of an MD digest, for words of k bytes: byte i % k of word i / k, the first the most significant. -/
theorem mdEmit_getD {w k : Nat} (hw : w = 8 * k) {len i : Nat} {hs : List (BitVec w)} (hlen : len ≤ k * hs.length)
    (hi : i < len) : (mdEmit len hs).getD i 0 = (hs.getD (i / k) 0).extractLsb' (w - 8 - 8 * (i % k)) 8 := by
  have hk : w / 8 = k := by omega
  have hpos : 0 < k := Nat.pos_of_ne_zero fun h0 => by simp [h0] at hlen; omega
  rw [mdEmit, getD_take _ _ hi, flatMap_getD toBe (fun x => (toBe_length x).trans hk) 0 0 hs (hi.trans_le hlen),
    toBe_getD _ (by rw [hk]; exact Nat.mod_lt i hpos)]

/-- Byte i of a sponge digest: byte i % 8 of lane i / 8, the first the least significant. -/
theorem squeeze_getD {len i : Nat} {a : List (BitVec 64)} (hlen : len ≤ 8 * a.length) (hi : i < len) :
    (squeeze len a).getD i 0 = (lane a (i / 8)).extractLsb' (8 * (i % 8)) 8 := by
  rw [squeeze, getD_take _ _ hi, flatMap_getD toLe toLe_length 0 0 a (hi.trans_le hlen),
    toLe_getD _ (Nat.mod_lt i (by decide)), lane]

/-- Settles O51: the general forms at four and eight bytes a word. -/
theorem emittedBytes : Obligations.EmittedBytes :=
  ⟨fun _ _ _ hlen hi => ⟨mdEmit_length hlen, mdEmit_getD (k := 4) rfl hlen hi⟩,
    fun _ _ _ hlen hi => ⟨mdEmit_length hlen, mdEmit_getD (k := 8) rfl hlen hi⟩,
    fun _ _ _ hlen hi => ⟨squeeze_length hlen, squeeze_getD hlen hi⟩⟩

/-! ## The number of bytes, on both Keccak paths and with both schedule stores -/

/-- The limbs of a state: 25 even ones and 25 odd ones. -/
def Limbs.Full (a : Limbs) : Prop := a.e.length = 25 ∧ a.o.length = 25

theorem kpIlvRoundRegs_a_full (r : KpIlvRegs) (rnd : Nat) : (kpIlvRoundRegs r rnd).a.Full := by
  simp [kpIlvRoundRegs, iotaIlv, chiIlv, Limbs.Full]

theorem kpIlvBlock_a_full (rate : Nat) (r : KpIlvRegs) (j : Nat) : (kpIlvBlock rate r j).a.Full :=
  foldl_keeps (fun r => r.a.Full) _ (fun r j _ => kpIlvRoundRegs_a_full r j) _ _ (by simp [absorbIlv, Limbs.Full])

theorem kpIlvRun_a_full (rate : Nat) (suffix : Byte) (m : Bytes) : (kpIlvRun rate suffix m).a.Full :=
  foldl_keeps (fun r => r.a.Full) _ (fun r j _ => kpIlvBlock_a_full rate r j) _ _ (by simp [Limbs.Full])

theorem deinterleaveAll_length {a : Limbs} (h : a.Full) : (deinterleaveAll a).length = 25 := by
  rw [deinterleaveAll, List.length_zipWith, h.1, h.2]; rfl

/-- The digest in the registers has dlen bytes, whichever engine has run. -/
theorem digestOf_runEngine_length (path : KpPath) (sched : MdSched) (v : Variant) (m : Bytes) :
    (digestOf v (runEngine path sched v m)).length = dlen v := by
  have hd := dlen_le_longestDigest v
  unfold runEngine
  cases hv : designOf v <;> rw [hv] at hd
  case sha1 => exact mdEmit_length (by rw [sha1Run_hs_length]; exact hd)
  case md32 => exact mdEmit_length (by rw [mdRun_hs_length _ _ _ _ _ (iv32Of_length v)]; exact hd)
  case md64 => exact mdEmit_length (by rw [mdRun_hs_length _ _ _ _ _ (iv64Of_length v)]; exact hd)
  case sponge =>
    have hstate : dlen v ≤ 8 * 25 := hd.trans (by decide)
    cases path with
    | lane64 => exact squeeze_length (by rw [kpRun_a_length]; exact hstate)
    | ilv32 => exact squeeze_length (by rw [deinterleaveAll_length (kpIlvRun_a_full _ _ m)]; exact hstate)

/-- Settles O45: the registers of every engine, `compress` among them. -/
theorem compressLength : Obligations.CompressLength := fun v m =>
  ⟨compress_length v m, fun path sched => digestOf_runEngine_length path sched v m⟩

end Sys2Proof.Machine

/-!
PROOF. The step mappings of Keccak-p on lanes (41_kp R165 to R169): what each leaves at a place, then by coordinates.
-/

namespace Sys2Proof.Machine

open Sys2Proof

/-! ## The lanes of each mapping -/

@[simp] theorem theta_length (a : List (BitVec 64)) : (theta a).length = 25 := by simp [theta, thetaA]

@[simp] theorem rho_length (a : List (BitVec 64)) : (rho a).length = 25 := by simp [rho]

@[simp] theorem piStep_length (a : List (BitVec 64)) : (piStep a).length = 25 := by simp [piStep]

@[simp] theorem chi_length (b : List (BitVec 64)) : (chi b).length = 25 := by simp [chi]

@[simp] theorem iota_length (a : List (BitVec 64)) (rnd : Nat) : (iota a rnd).length = a.length := by simp [iota]

/-- C[x] is the parity of column x. -/
theorem lane_thetaC (a : List (BitVec 64)) {x : Nat} (h : x < 5) : lane (thetaC a) x =
    lane a x ^^^ lane a (x + 5) ^^^ lane a (x + 10) ^^^ lane a (x + 15) ^^^ lane a (x + 20) := lane_map_range _ h

theorem lane_thetaD (c : List (BitVec 64)) {x : Nat} (h : x < 5) :
    lane (thetaD c) x = lane c ((x + 4) % 5) ^^^ (lane c ((x + 1) % 5)).rotateLeft 1 := by
  rw [thetaD, lane_map_range _ h, rotl_eq _ (by decide)]

theorem lane_theta (a : List (BitVec 64)) {i : Nat} (h : i < 25) :
    lane (theta a) i = lane a i ^^^ lane (thetaD (thetaC a)) (i % 5) := lane_map_range _ h

/-- Every offset of the table is an amount a lane can be rotated by. -/
theorem rhoTable_lt (i : Nat) : rhoTable.getD i 0 < 64 := by
  rcases Nat.lt_or_ge i 25 with h | h
  · revert i; decide
  · rw [List.getD_eq_default _ _ h]; decide

theorem rotateLeft_zero_amount {w : Nat} (x : BitVec w) : x.rotateLeft 0 = x := by
  simp [BitVec.rotateLeft_def, BitVec.ushiftRight_eq_zero]

theorem lane_rho (a : List (BitVec 64)) {i : Nat} (h : i < 25) :
    lane (rho a) i = (lane a i).rotateLeft (rhoTable.getD i 0) := by
  rw [rho, lane_map_range _ h, rotl_eq _ (rhoTable_lt i)]

theorem lane_piStep (a : List (BitVec 64)) {j : Nat} (h : j < 25) : lane (piStep a) j = lane a (piSource j) :=
  lane_map_range _ h

theorem lane_chi (b : List (BitVec 64)) {i : Nat} (h : i < 25) : lane (chi b) i =
    lane b i ^^^ (~~~lane b ((i % 5 + 1) % 5 + 5 * (i / 5)) &&& lane b ((i % 5 + 2) % 5 + 5 * (i / 5))) :=
  lane_map_range _ h

theorem lane_iota_zero {a : List (BitVec 64)} (h : a ≠ []) (rnd : Nat) :
    lane (iota a rnd) 0 = lane a 0 ^^^ rcTable.getD rnd 0 := by
  obtain ⟨v, l, rfl⟩ := List.exists_cons_of_ne_nil h
  rfl

theorem lane_iota_of_ne_zero (a : List (BitVec 64)) (rnd : Nat) {i : Nat} (h : i ≠ 0) :
    lane (iota a rnd) i = lane a i := by
  simp [lane, iota, List.getD_eq_getElem?_getD, h.symm]

/-! ## Coordinates: lane (x, y) stands at x + 5y (41_kp R161) -/

theorem place_lt {x y : Nat} (hx : x < 5) (hy : y < 5) : x + 5 * y < 25 := by omega

theorem place_mod {x y : Nat} (hx : x < 5) : (x + 5 * y) % 5 = x := by omega

theorem place_div {x y : Nat} (hx : x < 5) : (x + 5 * y) / 5 = y := by omega

/-- Settles O54: the parities and D at the columns that lane (x, y) reads. -/
theorem thetaMapping : Obligations.ThetaMapping := by
  refine fun a => ⟨theta_length a, fun x y hx hy => ?_⟩
  rw [lane_theta a (place_lt hx hy), place_mod hx, lane_thetaD _ hx, lane_thetaC a (Nat.mod_lt _ (by decide)),
    lane_thetaC a (Nat.mod_lt _ (by decide))]

/-! ## The walk through the table of ρ -/

/-- Step t of the walk stands on a lane of the state, whose offset is the triangular number of 41_kp R166. -/
theorem rhoWalk_offset : ∀ t, t < 24 → (rhoWalk t).1 + 5 * (rhoWalk t).2 < 25 ∧
    rhoTable.getD ((rhoWalk t).1 + 5 * (rhoWalk t).2) 0 = (t + 1) * (t + 2) / 2 % 64 := by decide +kernel

theorem exists_rhoWalk : ∀ i, i < 25 → 0 < i → ∃ t, t < 24 ∧ (rhoWalk t).1 + 5 * (rhoWalk t).2 = i := by
  decide +kernel

/-- The offset of lane (x, y) stands in row y and column x. -/
theorem rhoTable_place : ∀ x, x < 5 → ∀ y, y < 5 →
    rhoTable.getD (x + 5 * y) 0 = (rhoRows.getD y []).getD x 0 := by decide

/-- Settles O55: the table read by coordinates and along the walk. -/
theorem rhoMapping : Obligations.RhoMapping := by
  refine fun a => ⟨rho_length a, ?origin, fun x y hx hy => ?table, fun t ht => ?walk,
    fun i h0 hi => exists_rhoWalk i hi h0⟩
  case origin => exact (lane_rho a (by decide)).trans (rotateLeft_zero_amount _)
  case table => rw [lane_rho a (place_lt hx hy), rhoTable_place x hx y hy]; rfl
  case walk =>
    obtain ⟨hplace, hoffset⟩ := rhoWalk_offset t ht
    rw [lane_rho a hplace, hoffset]

/-! ## π -/

theorem piDest_lt {i : Nat} (h : i < 25) : piDest i < 25 := by unfold piDest; omega

/-- Where the lane at i moves to, the lane comes from i. -/
theorem piSource_piDest : ∀ i, i < 25 → piSource (piDest i) = i := by decide

theorem piDest_place {x y : Nat} (hx : x < 5) : piDest (x + 5 * y) = y + 5 * ((2 * x + 3 * y) % 5) := by
  rw [piDest, place_mod hx, place_div hx]

theorem lane_piStep_piDest (a : List (BitVec 64)) {i : Nat} (h : i < 25) : lane (piStep a) (piDest i) = lane a i := by
  rw [lane_piStep a (piDest_lt h), piSource_piDest i h]

/-- Settles O56: π moves every lane to its destination, which the coordinates and the table name. -/
theorem piMapping : Obligations.PiMapping := by
  refine fun a => ⟨piStep_length a, fun x y hx hy => ?_, fun p hp => ?_⟩
  · rw [← piDest_place hx, lane_piStep_piDest a (place_lt hx hy)]
  · obtain ⟨hsource, hdest⟩ : p.1 < 25 ∧ piDest p.1 = p.2 := by revert p; decide
    exact ⟨hdest ▸ lane_piStep_piDest a hsource, hdest⟩

end Sys2Proof.Machine

/-!
PROOF. χ, ι and RC by coordinates, the order of a round and of the rounds, the absorb byte by byte, and the sponge run
as a sequence of states (41_kp R163, R164, R168 to R171).
-/

namespace Sys2Proof.Machine

open Sys2Proof

/-! ## RC -/

theorem rcTable_length : rcTable.length = 24 := rfl

/-- The bits a round constant may have (41_kp R170). -/
theorem rcTable_bits {rnd n : Nat} (hr : rnd < 24) (h : (rcTable.getD rnd 0).getLsbD n = true) :
    n ∈ [0, 1, 3, 7, 15, 31, 63] := by
  have hall : ∀ rnd, rnd < 24 → ∀ n, n < 64 → (rcTable.getD rnd 0).getLsbD n = true →
      n ∈ [0, 1, 3, 7, 15, 31, 63] := by decide +kernel
  exact hall rnd hr n (BitVec.lt_of_getLsbD h) h

/-! ## The rounds -/

/-- The state after the first rounds of Keccak-p. -/
def keccakAt (a : List (BitVec 64)) (rnd : Nat) : List (BitVec 64) := (List.range rnd).foldl keccakRound a

theorem keccakAt_succ (a : List (BitVec 64)) (rnd : Nat) :
    keccakAt a (rnd + 1) = keccakRound (keccakAt a rnd) rnd := by
  rw [keccakAt, List.range_succ, List.foldl_concat]; rfl

theorem keccakP_eq (a : List (BitVec 64)) : keccakP a = keccakAt a 24 := rfl

/-! ## Absorb -/

@[simp] theorem absorb_length (r : Nat) (pm : Bytes) (j : Nat) (a : List (BitVec 64)) :
    (absorb r pm j a).length = 25 := by simp [absorb]

theorem lane_absorb_rate (r : Nat) (pm : Bytes) (j : Nat) (a : List (BitVec 64)) {i : Nat} (hi : i < 25)
    (hr : i < r / 8) : lane (absorb r pm j a) i = lane a i ^^^ blockLane r pm j i := by
  rw [absorb, lane_map_range _ hi, if_pos hr]

theorem lane_absorb_capacity (r : Nat) (pm : Bytes) (j : Nat) (a : List (BitVec 64)) {i : Nat} (hi : i < 25)
    (hr : r / 8 ≤ i) : lane (absorb r pm j a) i = lane a i := by
  rw [absorb, lane_map_range _ hi, if_neg (Nat.not_lt.mpr hr)]

/-- Byte b of lane i of block j is the byte at its place in PM, the first byte the least significant. -/
theorem blockLane_byte {r j i b : Nat} {pm : Bytes} (hi : i < r / 8) (hb : b < 8) (hpm : (j + 1) * r ≤ pm.length) :
    (blockLane r pm j i).extractLsb' (8 * b) 8 = pm.getD (j * r + 8 * i + b) 0 := by
  rw [Nat.succ_mul] at hpm
  have hlen : ((pm.drop (j * r + 8 * i)).take 8).length = 8 := by
    rw [List.length_take, List.length_drop]; omega
  rw [← toLe_getD _ hb, blockLane, toLe_leLane hlen, getD_take _ _ hb, List.getD_eq_getElem?_getD, List.getElem?_drop,
    List.getD_eq_getElem?_getD]

/-! ## The sponge run -/

/-- A block over the registers absorbs and permutes the state, and leaves PM. -/
theorem kpBlock_a (rate : Nat) (r : KpRegs) (j : Nat) : (kpBlock rate r j).a = keccakP (absorb rate r.pm j r.a) :=
  (List.foldl_hom KpRegs.a fun _ _ => rfl).symm

theorem kpBlock_pm (rate : Nat) (r : KpRegs) (j : Nat) : (kpBlock rate r j).pm = r.pm :=
  foldl_keeps (fun t : KpRegs => t.pm = r.pm) kpRoundRegs (fun _ _ h => h) _ _ rfl

/-- The registers after j blocks of a sponge run. -/
def kpRegsAt (rate : Nat) (suffix : Byte) (m : Bytes) (j : Nat) : KpRegs :=
  (List.range j).foldl (kpBlock rate)
    { pm := kpPad rate suffix m, a := List.replicate 25 0, c := [], d := [], bt := [], rnd := 0, j := 0 }

theorem kpRun_eq (rate : Nat) (suffix : Byte) (m : Bytes) :
    kpRun rate suffix m = kpRegsAt rate suffix m (kpBlocks rate m.length) := rfl

theorem kpRegsAt_pm (rate : Nat) (suffix : Byte) (m : Bytes) (j : Nat) :
    (kpRegsAt rate suffix m j).pm = kpPad rate suffix m :=
  foldl_keeps (fun t => t.pm = kpPad rate suffix m) _ (fun r j h => (kpBlock_pm rate r j).trans h) _ _ rfl

theorem kpRegsAt_succ_a (rate : Nat) (suffix : Byte) (m : Bytes) (j : Nat) : (kpRegsAt rate suffix m (j + 1)).a =
    keccakP (absorb rate (kpPad rate suffix m) j (kpRegsAt rate suffix m j).a) := by
  rw [← kpRegsAt_pm rate suffix m j, ← kpBlock_a]
  simp only [kpRegsAt, List.range_succ, List.foldl_concat]

theorem compress_of_sponge {v : Variant} (h : designOf v = .sponge) (m : Bytes) :
    compress v m = squeeze (dlen v) (kpRun (blockOf v) (suffixOf v) m).a := by
  rw [compress, runEngine, h]; rfl

/-- The rate of a sponge variant is whole lanes (41_kp R163). -/
theorem blockOf_sponge {v : Variant} (h : designOf v = .sponge) :
    blockOf v % 8 = 0 ∧ blockOf v / 8 ∈ [18, 17, 13, 9] := by
  revert h; cases v <;> decide

/-- Settles O57: part by part. -/
theorem chiIotaMapping : Obligations.ChiIotaMapping := by
  refine ⟨fun a ha => ⟨⟨chi_length a, fun x y hx hy => ?chi⟩, fun rnd _ => ⟨(iota_length a rnd).trans ha, ?iota,
      fun i hi => lane_iota_of_ne_zero a rnd hi⟩⟩,
    ⟨rcTable_length, by decide, fun rnd n hr h => rcTable_bits hr h⟩, by decide +kernel, fun a rnd => rfl,
    fun a => ⟨keccakAt a, rfl, fun rnd _ => keccakAt_succ a rnd, keccakP_eq a⟩,
    fun r j pm a => ⟨absorb_length r pm j a, fun i b hi hr hb hpm => ?bytes,
      fun i hr hi => lane_absorb_capacity r pm j a hi hr⟩,
    fun v m hv => ?run⟩
  case chi => rw [lane_chi a (place_lt hx hy), place_mod hx, place_div hx]
  case iota => exact lane_iota_zero (List.ne_nil_of_length_eq_add_one ha) rnd
  case bytes => rw [lane_absorb_rate r pm j a hi hr, BitVec.xor_comm, ← BitVec.xor_assoc, BitVec.xor_self,
      BitVec.zero_xor, blockLane_byte hr hb hpm]
  case run =>
    obtain ⟨hlanes, hrate⟩ := blockOf_sponge hv
    exact ⟨hlanes, hrate, fun j => (kpRegsAt (blockOf v) (suffixOf v) m j).a, rfl,
      fun j _ => kpRegsAt_succ_a .., by rw [compress_of_sponge hv, kpRun_eq]⟩

end Sys2Proof.Machine

/-!
PROOF. Bit interleaving (41_kp R174 to R176): the conversions by the bits of a word, that they are inverse, and the
operations and rotations on limbs.
-/

namespace Sys2Proof.Machine

open Sys2Proof

/-! ## The conversions, bit by bit -/

theorem toInterleaved_even (x : BitVec 64) {n : Nat} (h : n < 32) :
    (toInterleaved x).1.getLsbD n = x.getLsbD (2 * n) := by
  simp only [toInterleaved, gatherBits_getLsbD, h, decide_true, Bool.true_and]

theorem toInterleaved_odd (x : BitVec 64) {n : Nat} (h : n < 32) :
    (toInterleaved x).2.getLsbD n = x.getLsbD (2 * n + 1) := by
  simp only [toInterleaved, gatherBits_getLsbD, h, decide_true, Bool.true_and]

theorem fromInterleaved_even (p : BitVec 32 × BitVec 32) {n : Nat} (h : n < 32) :
    (fromInterleaved p).getLsbD (2 * n) = p.1.getLsbD n := by
  rw [fromInterleaved, gatherBits_getLsbD]
  simp [show 2 * n < 64 by omega]

theorem fromInterleaved_odd (p : BitVec 32 × BitVec 32) {n : Nat} (h : n < 32) :
    (fromInterleaved p).getLsbD (2 * n + 1) = p.2.getLsbD n := by
  rw [fromInterleaved, gatherBits_getLsbD]
  simp [show 2 * n + 1 < 64 by omega, show (2 * n + 1) / 2 = n by omega]

/-- The limbs of a word are the pair that holds its bits by turns. -/
theorem toInterleaved_eq {x : BitVec 64} {p : BitVec 32 × BitVec 32}
    (h : ∀ n, n < 32 → x.getLsbD (2 * n) = p.1.getLsbD n ∧ x.getLsbD (2 * n + 1) = p.2.getLsbD n) :
    toInterleaved x = p := by
  refine Prod.ext (BitVec.eq_of_getLsbD_eq fun n hn => ?_) (BitVec.eq_of_getLsbD_eq fun n hn => ?_)
  · exact (toInterleaved_even x hn).trans (h n hn).1
  · exact (toInterleaved_odd x hn).trans (h n hn).2

theorem toInterleaved_fromInterleaved (p : BitVec 32 × BitVec 32) : toInterleaved (fromInterleaved p) = p :=
  toInterleaved_eq fun _ hn => ⟨fromInterleaved_even p hn, fromInterleaved_odd p hn⟩

theorem fromInterleaved_toInterleaved (x : BitVec 64) : fromInterleaved (toInterleaved x) = x := by
  refine BitVec.eq_of_getLsbD_eq fun i hi => ?_
  obtain ⟨n, rfl | rfl⟩ := Nat.even_or_odd' i
  · rw [fromInterleaved_even _ (by omega), toInterleaved_even x (by omega)]
  · rw [fromInterleaved_odd _ (by omega), toInterleaved_odd x (by omega)]

/-! ## The operations limb by limb -/

theorem toInterleaved_and (x y : BitVec 64) : toInterleaved (x &&& y) =
    ((toInterleaved x).1 &&& (toInterleaved y).1, (toInterleaved x).2 &&& (toInterleaved y).2) :=
  toInterleaved_eq fun n hn => by
    simp only [BitVec.getLsbD_and, toInterleaved_even _ hn, toInterleaved_odd _ hn, and_self]

theorem toInterleaved_or (x y : BitVec 64) : toInterleaved (x ||| y) =
    ((toInterleaved x).1 ||| (toInterleaved y).1, (toInterleaved x).2 ||| (toInterleaved y).2) :=
  toInterleaved_eq fun n hn => by
    simp only [BitVec.getLsbD_or, toInterleaved_even _ hn, toInterleaved_odd _ hn, and_self]

theorem toInterleaved_xor (x y : BitVec 64) : toInterleaved (x ^^^ y) =
    ((toInterleaved x).1 ^^^ (toInterleaved y).1, (toInterleaved x).2 ^^^ (toInterleaved y).2) :=
  toInterleaved_eq fun n hn => by
    simp only [BitVec.getLsbD_xor, toInterleaved_even _ hn, toInterleaved_odd _ hn, and_self]

theorem toInterleaved_not (x : BitVec 64) :
    toInterleaved (~~~x) = (~~~(toInterleaved x).1, ~~~(toInterleaved x).2) :=
  toInterleaved_eq fun n hn => by
    simp only [BitVec.getLsbD_not, toInterleaved_even _ hn, toInterleaved_odd _ hn, hn, show 2 * n < 64 by omega,
      show 2 * n + 1 < 64 by omega, and_self]

/-! ## Rotations -/

/-- Bit i after a rotation to the left by r was bit i - r, counted around the word. -/
theorem getLsbD_rotateLeft_around {w : Nat} (x : BitVec w) {r i : Nat} (hr : r < w) (hi : i < w) :
    (x.rotateLeft r).getLsbD i = x.getLsbD ((i + (w - r)) % w) := by
  rw [BitVec.getLsbD_rotateLeft, Nat.mod_eq_of_lt hr]
  by_cases h : i < r
  · rw [Nat.mod_eq_of_lt (by omega), Nat.add_comm]
    simp [h]
  · rw [show i + (w - r) = i - r + w by omega, Nat.add_mod_right, Nat.mod_eq_of_lt (by omega)]
    simp [h, hi]

theorem getLsbD_rotateLeft_even (x : BitVec 64) {r i : Nat} (hr : r < 32) (hi : i < 32) :
    ((toInterleaved x).1.rotateLeft r).getLsbD i = x.getLsbD (2 * ((i + (32 - r)) % 32)) := by
  rw [getLsbD_rotateLeft_around _ hr hi, toInterleaved_even x (Nat.mod_lt _ (by decide))]

theorem getLsbD_rotateLeft_odd (x : BitVec 64) {r i : Nat} (hr : r < 32) (hi : i < 32) :
    ((toInterleaved x).2.rotateLeft r).getLsbD i = x.getLsbD (2 * ((i + (32 - r)) % 32) + 1) := by
  rw [getLsbD_rotateLeft_around _ hr hi, toInterleaved_odd x (Nat.mod_lt _ (by decide))]

theorem toInterleaved_rotateLeft_even (x : BitVec 64) {n : Nat} (h : n < 32) : toInterleaved (x.rotateLeft (2 * n)) =
    ((toInterleaved x).1.rotateLeft n, (toInterleaved x).2.rotateLeft n) := by
  refine toInterleaved_eq fun i hi => ?_
  rw [getLsbD_rotateLeft_around x (by omega) (by omega), getLsbD_rotateLeft_around x (by omega) (by omega),
    getLsbD_rotateLeft_even x h hi, getLsbD_rotateLeft_odd x h hi]
  constructor <;> congr 1 <;> omega

/-- An odd amount moves every bit to the other limb, and the odd bits one place further. -/
theorem toInterleaved_rotateLeft_odd (x : BitVec 64) {n : Nat} (h : n < 32) :
    toInterleaved (x.rotateLeft (2 * n + 1)) =
      ((toInterleaved x).2.rotateLeft ((n + 1) % 32), (toInterleaved x).1.rotateLeft n) := by
  refine toInterleaved_eq fun i hi => ?_
  rw [getLsbD_rotateLeft_around x (by omega) (by omega), getLsbD_rotateLeft_around x (by omega) (by omega),
    getLsbD_rotateLeft_odd x (Nat.mod_lt _ (by decide)) hi, getLsbD_rotateLeft_even x h hi]
  constructor <;> congr 1 <;> omega

/-- The engine's rotation of limbs is the rotation of the word (41_kp R176). -/
theorem rotlLimbs_toInterleaved (x : BitVec 64) {r : Nat} (h : r < 64) :
    rotlLimbs (toInterleaved x) r = toInterleaved (x.rotateLeft r) := by
  obtain ⟨n, rfl | rfl⟩ := Nat.even_or_odd' r
  · have hn : n < 32 := by omega
    rw [rotlLimbs, if_pos (by omega), show 2 * n / 2 = n by omega, rotl_eq _ hn, rotl_eq _ hn,
      toInterleaved_rotateLeft_even x hn]
  · have hn : n < 32 := by omega
    rw [rotlLimbs, if_neg (by omega), show (2 * n + 1) / 2 = n by omega, rotl_eq _ hn,
      rotl_eq _ (Nat.mod_lt _ (by decide)), toInterleaved_rotateLeft_odd x hn]

/-- Settles O58: law by law. -/
theorem interleavingLaws : Obligations.InterleavingLaws :=
  ⟨fun x _ hn => ⟨toInterleaved_even x hn, toInterleaved_odd x hn⟩,
    fun p _ hn => ⟨fromInterleaved_even p hn, fromInterleaved_odd p hn⟩,
    fromInterleaved_toInterleaved, toInterleaved_fromInterleaved,
    fun x y => ⟨toInterleaved_and x y, toInterleaved_or x y, toInterleaved_xor x y, toInterleaved_not x⟩,
    fun x _ hn => ⟨toInterleaved_rotateLeft_even x hn, toInterleaved_rotateLeft_odd x hn,
      rotlLimbs_toInterleaved x (by omega), rotlLimbs_toInterleaved x (by omega)⟩⟩

end Sys2Proof.Machine

/-!
PROOF. The two paths of the KP engine (41_kp R177 to R179): every step mapping commutes with the lane-wise conversion,
so a round, the permutation and the registers of a whole run do, and the conversion back on squeeze undoes it.
-/

namespace Sys2Proof.Machine

open Sys2Proof

/-! ## The conversion of a row of lanes -/

theorem toInterleaved_zero : toInterleaved 0 = (0, 0) := by decide

theorem limb_interleaveAll_e (a : List (BitVec 64)) (i : Nat) :
    limb (interleaveAll a).e i = (toInterleaved (lane a i)).1 :=
  List.getD_map a 0 fun v => (toInterleaved v).1

theorem limb_interleaveAll_o (a : List (BitVec 64)) (i : Nat) :
    limb (interleaveAll a).o i = (toInterleaved (lane a i)).2 :=
  List.getD_map a 0 fun v => (toInterleaved v).2

theorem interleaveAll_map_range (f : Nat → BitVec 64) (n : Nat) : interleaveAll ((List.range n).map f) =
    { e := (List.range n).map fun i => (toInterleaved (f i)).1
      o := (List.range n).map fun i => (toInterleaved (f i)).2 } := by
  simp [interleaveAll, Function.comp_def]

theorem interleaveAll_replicate_zero (n : Nat) :
    interleaveAll (List.replicate n 0) = { e := List.replicate n 0, o := List.replicate n 0 } := by
  simp only [interleaveAll, List.map_replicate, toInterleaved_zero]

/-- Converting back undoes the conversion (41_kp R175). -/
theorem deinterleaveAll_interleaveAll (a : List (BitVec 64)) : deinterleaveAll (interleaveAll a) = a := by
  simp [deinterleaveAll, interleaveAll, fromInterleaved_toInterleaved]

/-! ## The step mappings -/

theorem toInterleaved_rotl (x : BitVec 64) {r : Nat} (h : r < 64) :
    toInterleaved (rotl x r) = rotlLimbs (toInterleaved x) r := by rw [rotl_eq x h, rotlLimbs_toInterleaved x h]

/-- Rotating by 1 swaps the limbs and rotates only the new even one. -/
theorem rotlLimbs_one (p : BitVec 32 × BitVec 32) : rotlLimbs p 1 = (rotl p.2 1, p.1) := by
  have hodd : rotlLimbs p 1 = (rotl p.2 1, rotl p.1 0) := rfl
  rw [hodd, rotl_eq _ (by decide : 0 < 32), rotateLeft_zero_amount]

theorem thetaCIlv_interleaveAll (a : List (BitVec 64)) : thetaCIlv (interleaveAll a) = interleaveAll (thetaC a) := by
  simp only [thetaC, interleaveAll_map_range, thetaCIlv, limb_interleaveAll_e, limb_interleaveAll_o, toInterleaved_xor]

theorem thetaDIlv_interleaveAll (c : List (BitVec 64)) : thetaDIlv (interleaveAll c) = interleaveAll (thetaD c) := by
  simp only [thetaD, interleaveAll_map_range, thetaDIlv, limb_interleaveAll_e, limb_interleaveAll_o, toInterleaved_xor,
    toInterleaved_rotl _ (by decide : 1 < 64), rotlLimbs_one]

theorem thetaAIlv_interleaveAll (a d : List (BitVec 64)) :
    thetaAIlv (interleaveAll a) (interleaveAll d) = interleaveAll (thetaA a d) := by
  simp only [thetaA, interleaveAll_map_range, thetaAIlv, limb_interleaveAll_e, limb_interleaveAll_o, toInterleaved_xor]

theorem rhoIlv_interleaveAll (a : List (BitVec 64)) : rhoIlv (interleaveAll a) = interleaveAll (rho a) := by
  simp only [rho, interleaveAll_map_range, rhoIlv, limb_interleaveAll_e, limb_interleaveAll_o,
    toInterleaved_rotl _ (rhoTable_lt _)]

theorem piStepIlv_interleaveAll (a : List (BitVec 64)) : piStepIlv (interleaveAll a) = interleaveAll (piStep a) := by
  simp only [piStep, interleaveAll_map_range, piStepIlv, limb_interleaveAll_e, limb_interleaveAll_o]

theorem chiIlv_interleaveAll (b : List (BitVec 64)) : chiIlv (interleaveAll b) = interleaveAll (chi b) := by
  simp only [chi, interleaveAll_map_range, chiIlv, limb_interleaveAll_e, limb_interleaveAll_o, toInterleaved_xor,
    toInterleaved_and, toInterleaved_not]

/-- The limb table holds the limbs of RC (41_kp R178). -/
theorem rcLimbTable_eq : rcLimbTable = rcTable.map toInterleaved := by decide +kernel

theorem rcLimbTable_getD (rnd : Nat) : rcLimbTable.getD rnd (0, 0) = toInterleaved (rcTable.getD rnd 0) := by
  rw [rcLimbTable_eq, ← toInterleaved_zero, List.getD_map]

theorem iotaIlv_interleaveAll (a : List (BitVec 64)) (rnd : Nat) :
    iotaIlv (interleaveAll a) rnd = interleaveAll (iota a rnd) := by
  rw [iotaIlv, rcLimbTable_getD]
  cases a with
  | nil => rfl
  | cons v l => simp [iota, interleaveAll, toInterleaved_xor]

/-! ## The permutation -/

theorem keccakRoundIlv_interleaveAll (a : List (BitVec 64)) (rnd : Nat) :
    keccakRoundIlv (interleaveAll a) rnd = interleaveAll (keccakRound a rnd) := by
  rw [keccakRoundIlv, thetaCIlv_interleaveAll, thetaDIlv_interleaveAll, thetaAIlv_interleaveAll, rhoIlv_interleaveAll,
    piStepIlv_interleaveAll, chiIlv_interleaveAll, iotaIlv_interleaveAll, keccakRound, theta]

theorem keccakPIlv_interleaveAll (a : List (BitVec 64)) : keccakPIlv (interleaveAll a) = interleaveAll (keccakP a) :=
  List.foldl_hom interleaveAll keccakRoundIlv_interleaveAll

/-! ## The run over the registers -/

theorem absorbIlv_interleaveAll (r : Nat) (pm : Bytes) (j : Nat) (a : List (BitVec 64)) :
    absorbIlv r pm j (interleaveAll a) = interleaveAll (absorb r pm j a) := by
  simp only [absorb, interleaveAll_map_range, absorbIlv, limb_interleaveAll_e, limb_interleaveAll_o]
  congr 2 <;> funext i <;> split <;> simp only [toInterleaved_xor]

/-- The registers of the lane engine with every lane split into its limbs. -/
def KpRegs.interleaved (r : KpRegs) : KpIlvRegs :=
  { pm := r.pm, a := interleaveAll r.a, c := interleaveAll r.c, d := interleaveAll r.d, bt := interleaveAll r.bt,
    rnd := r.rnd, j := r.j }

theorem kpIlvRoundRegs_interleaved (r : KpRegs) (rnd : Nat) :
    kpIlvRoundRegs r.interleaved rnd = (kpRoundRegs r rnd).interleaved := by
  simp only [kpIlvRoundRegs, kpRoundRegs, KpRegs.interleaved, thetaCIlv_interleaveAll, thetaDIlv_interleaveAll,
    thetaAIlv_interleaveAll, rhoIlv_interleaveAll, piStepIlv_interleaveAll, chiIlv_interleaveAll, iotaIlv_interleaveAll]

theorem kpIlvBlock_interleaved (rate : Nat) (r : KpRegs) (j : Nat) :
    kpIlvBlock rate r.interleaved j = (kpBlock rate r j).interleaved := by
  rw [kpIlvBlock, kpBlock, ← List.foldl_hom KpRegs.interleaved kpIlvRoundRegs_interleaved]
  simp only [KpRegs.interleaved, absorbIlv_interleaveAll]

/-- The limb engine runs through the interleaved registers of the lane engine. -/
theorem kpIlvRun_eq (rate : Nat) (suffix : Byte) (m : Bytes) :
    kpIlvRun rate suffix m = (kpRun rate suffix m).interleaved := by
  rw [kpIlvRun, kpRun, ← List.foldl_hom KpRegs.interleaved (kpIlvBlock_interleaved rate)]
  simp only [KpRegs.interleaved, interleaveAll_replicate_zero]
  rfl

/-- Settles O59: the permutation commutes with the conversion, and the limb engine's registers convert back. -/
theorem keccakPathsAgree : Obligations.KeccakPathsAgree := by
  refine ⟨fun a _ => (keccakPIlv_interleaveAll a).symm, fun sched v m => ?_⟩
  unfold runEngine
  cases designOf v with
  | sha1 | md32 | md64 => rfl
  | sponge =>
    simp only [digestOf, kpIlvRun_eq, KpRegs.interleaved, deinterleaveAll_interleaveAll]

end Sys2Proof.Machine

/-!
PROOF. The CMD write of HASH.v (42_hash R190 step 1; 60_exceptions R269, R280, R281): each of the four tests of
`check_hash` has the answer it gives when the tests before it pass, and a block that takes commands accepts or refuses
with that answer.
-/

namespace Sys2Proof.Machine

open Sys2Proof

/-! ## The tests of `check_hash`, in their order -/

section CheckHash

variable {v : Variant} {x : Args}

theorem wraps_eq_true {base len : Word} : wraps base len = true ↔ 2 ^ 64 < base.toNat + len.toNat :=
  decide_eq_true_iff

/-- The first test (60_exceptions R280). -/
theorem checkHash_of_srcLen (h : x.srcLen.toNat ≠ 2 * dlen v) : checkHash v x = some (.shape, x.srcLen) := if_pos h

/-- The second test (60_exceptions R280). -/
theorem checkHash_of_dstLen (hsrc : x.srcLen.toNat = 2 * dlen v) (h : x.dstLen.toNat ≠ dlen v) :
    checkHash v x = some (.shape, x.dstLen) := by
  rw [checkHash, if_neg (not_not.mpr hsrc), if_pos h]

/-- With both lengths right, the wrap tests are about the variant's lengths (60_exceptions R281). -/
theorem checkHash_of_lengths (hsrc : x.srcLen.toNat = 2 * dlen v) (hdst : x.dstLen.toNat = dlen v) :
    checkHash v x =
      if 2 ^ 64 < x.srcPtr.toNat + 2 * dlen v then some (.wrap, x.srcPtr)
      else if 2 ^ 64 < x.dstPtr.toNat + dlen v then some (.wrap, x.dstPtr)
      else none := by
  simp only [checkHash, wraps_eq_true, hsrc, hdst, ne_eq, not_true_eq_false, if_false]

end CheckHash

/-! ## Accept and refusal -/

theorem exec_hashOf_refused {v : Variant} {s : State} {e : ErrCode} {info : Word} (h : Ready s)
    (hc : checkHash v s.x = some (e, info)) : exec (hashOf v) s = .next (refusedWith e.byte info s) := by
  rw [exec_hashOf, issueHash, hc, issueCommand_refused h.dropped]

/-- Settles O9: legal arguments pass every test, and an accept changes LATCH, STATUS and SEQ alone. -/
theorem hashAccepts : Obligations.HashAccepts := by
  intro v s hready hsrcLen hdstLen hsrc hdst
  have hc : checkHash v s.x = none := by
    rw [checkHash_of_lengths hsrcLen hdstLen, if_neg (Nat.not_lt.mpr hsrc), if_neg (Nat.not_lt.mpr hdst)]
  exact ⟨_, exec_hashOf_accepted hready hc, rfl, rfl, rfl⟩

/-- Settles O11: each clause is the refusal with the answer of its test. -/
theorem hashRefusesInOrder : Obligations.HashRefusesInOrder := by
  intro v s hready
  refine ⟨fun h => exec_hashOf_refused hready (checkHash_of_srcLen h), fun hsrcLen =>
    ⟨fun h => exec_hashOf_refused hready (checkHash_of_dstLen hsrcLen h), fun hdstLen =>
      ⟨fun hsrc => ?srcWraps, fun hsrc hdst => ?dstWraps⟩⟩⟩
  case srcWraps =>
    have hc : checkHash v s.x = some (.wrap, s.x.srcPtr) := by rw [checkHash_of_lengths hsrcLen hdstLen, if_pos hsrc]
    exact exec_hashOf_refused hready hc
  case dstWraps =>
    have hc : checkHash v s.x = some (.wrap, s.x.dstPtr) := by
      rw [checkHash_of_lengths hsrcLen hdstLen, if_neg (Nat.not_lt.mpr hsrc), if_pos hdst]
    exact exec_hashOf_refused hready hc

end Sys2Proof.Machine

/-!
PROOF. The steps of one unit when no access fails (42_hash R190; 43_merger R220, R223, R224): in a sound state every
byte a unit reads or writes exists, so the load step and the store step each have one outcome. Both statements are that
outcome with the addresses written out.
-/

namespace Sys2Proof.Machine

open Sys2Proof

/-! ## Addresses -/

/-- Digest j of level k lies j slots above the first byte of its level (43_merger R215, R220). -/
theorem digestAddr_eq (v : Variant) (a : Args) (k j : Nat) : digestAddr v a k j = levelBase v a k + j * slotOf v := by
  cases k with
  | zero => rfl
  | succ k => rw [digestAddr_succ, dstSlot, Nat.add_mul, ← Nat.add_assoc]; rfl

/-- What unit i reads, the bytes of its reads joined. -/
def unitInput (s : State) (i : Nat) : Bytes := (unitReads s i).flatMap fun p => readBytes s.mem p.1 p.2

section Units

variable {s : State} {i : Nat} {port : PortAnswer} {regs : EngineRegs} {d : Bytes} {rest : List Move}

theorem unitInput_runHash (hp : s.seq.phase = .runHash) :
    unitInput s i = readBytes s.mem s.latch.a.srcPtr.toNat (2 * dlen s.latch.variant) := by
  simp [unitInput, unitReads, hp]

theorem unitInput_runLevel (hp : s.seq.phase = .runLevel) :
    unitInput s i =
      readBytes s.mem (digestAddr s.latch.variant s.latch.a s.seq.k (2 * i)) (dlen s.latch.variant) ++
        readBytes s.mem (digestAddr s.latch.variant s.latch.a s.seq.k (2 * i + 1)) (dlen s.latch.variant) := by
  simp [unitInput, unitReads, hp]

theorem unitOut_runHash (hp : s.seq.phase = .runHash) : unitOut s i = s.latch.a.dstPtr.toNat := by rw [unitOut, hp]

theorem unitOut_runLevel (hp : s.seq.phase = .runLevel) :
    unitOut s i = digestAddr s.latch.variant s.latch.a (s.seq.k + 1) i := by rw [unitOut, hp]

/-! ## A store of a known length -/

/-- A store of n bytes is read back. -/
theorem readBytes_written {m : Memory} (hm : Memory.wf m = true) {a n : Nat} (hd : d.length = n) :
    readBytes (writeBytes m a d) a n = d := hd ▸ readBytes_writeBytes_same hm a d

/-- A store of n bytes leaves the bytes outside its range. -/
theorem readByte_kept {m : Memory} (hm : Memory.wf m = true) {a c n : Nat} (hd : d.length = n)
    (hc : c < a ∨ a + n ≤ c) : readByte (writeBytes m a d) c = readByte m c :=
  readByte_writeBytes_outside hm (hd ▸ hc)

/-! ## The two steps -/

/-- The phase of a unit that has loaded `m` (log 7, log 8). -/
def loadedWith (v : Variant) (m : Bytes) : UnitPhase :=
  .loaded (runEngine Config.kpPath Config.mdSched v m) (compress v m)

theorem unitStep_of_waiting (hi : i < unitCount s) (hp : unitPhase s i = .waiting) :
    unitStep i port s = loadStep i port s := by
  rw [unitStep, if_pos hi, hp]

theorem unitStep_of_loaded (hi : i < unitCount s) (hp : unitPhase s i = .loaded regs d) :
    unitStep i port s = storeStep i d port s := by
  rw [unitStep, if_pos hi, hp]

/-- Every byte the unit reads exists, so with no read failing it loads its whole input (43_merger R223). -/
theorem loadStep_performed (h : Inv s) (hi : i < unitCount s)
    (hport : ∀ n, n < (unitReads s i).length → portFailsAt port n = false) :
    loadStep i port s = .next (setUnit i (loadedWith s.latch.variant (unitInput s i)) s) := by
  have hread : readAll s.mem port 0 (unitReads s i) = .performed (unitInput s i) :=
    readAll_performed (fun n hn => (Nat.zero_add n).symm ▸ hport n hn) (h.reads_exist hi)
  rw [loadStep, hread]
  rfl

/-- Every byte the unit writes exists, so with its write not failing it stores its whole digest (43_merger R224). -/
theorem storeStep_performed (h : Inv s) (hi : i < unitCount s) (hd : d.length = dlen s.latch.variant)
    (hport : portFailsAt port 0 = false) :
    storeStep i d port s = .next (setUnit i .finished (s.withMem (writeBytes s.mem (unitOut s i) d))) := by
  have htop := h.out_exists hi
  rw [storeStep, if_neg (by omega), hport]
  rfl

/-- The step of a WAITING unit at the head of the agenda, no read failing. -/
theorem step_loads (h : Inv s) (ha : s.agenda = .unit i port :: rest) (hi : i < unitCount s)
    (hp : unitPhase s i = .waiting) (hport : ∀ n, n < (unitReads s i).length → portFailsAt port n = false) :
    step s = .next (setUnit i (loadedWith s.latch.variant (unitInput s i)) (s.withAgenda rest)) :=
  (step_cons ha).trans <| (unitStep_of_waiting (s := s.withAgenda rest) hi hp).trans <|
    loadStep_performed (h.agenda_free rest) hi hport

/-- The step of a LOADED unit at the head of the agenda, its write not failing. -/
theorem step_stores (h : Inv s) (ha : s.agenda = .unit i port :: rest) (hi : i < unitCount s)
    (hp : unitPhase s i = .loaded regs d) (hport : portFailsAt port 0 = false) :
    step s = .next (setUnit i .finished ((s.withAgenda rest).withMem (writeBytes s.mem (unitOut s i) d))) :=
  (step_cons ha).trans <| (unitStep_of_loaded (s := s.withAgenda rest) hi hp).trans <|
    storeStep_performed (h.agenda_free rest) hi (h.loaded_length hi hp) hport

/-- A unit that moves has the phase it moves to, and the others keep theirs. -/
theorem unitPhase_moved (h : Inv s) (hi : i < unitCount s) (p : UnitPhase) :
    unitPhase (setUnit i p s) i = p ∧ ∀ j, j ≠ i → unitPhase (setUnit i p s) j = unitPhase s j := by
  have hmoved := unitPhase_setUnit (h.seq.table (unitCount_pos_phase hi)) i (p := p)
  exact ⟨(hmoved i).trans (if_pos rfl), fun j hj => (hmoved j).trans (if_neg hj)⟩

end Units

/-! ## The statements about unit steps -/

/-- Settles O22: the step is `step_loads`, and the unit's input is the bytes at the addresses of the two rules. -/
theorem unitLoads : Obligations.UnitLoads := by
  intro s i port rest h ha hi hp hport
  obtain ⟨hself, hothers⟩ := unitPhase_moved h hi (loadedWith s.latch.variant (unitInput s i))
  refine ⟨_, unitInput s i, step_loads h ha hi hp hport, unitInput_runHash, fun hlevel => ?_, hself, hothers, rfl⟩
  rw [unitInput_runLevel hlevel, digestAddr_eq, digestAddr_eq]

/-- Settles O23: the step is `step_stores`; memory by the laws of a write. -/
theorem unitStores : Obligations.UnitStores := by
  intro s i regs d port rest h ha hi hp hport
  have hd := h.loaded_length hi hp
  obtain ⟨hself, hothers⟩ := unitPhase_moved h hi .finished
  exact ⟨_, step_stores h ha hi hp hport, hd, unitOut_runHash, unitOut_runLevel,
    readBytes_written h.memWf hd, fun _ => readByte_kept h.memWf hd, hself, hothers, rfl⟩

end Sys2Proof.Machine

/-!
PROOF. A whole HASH (42_hash R190, R192): the accept, the load and the store step of its one unit, and the completion,
which the barrier allows because that unit is FINISHED.
-/

namespace Sys2Proof.Machine

open Sys2Proof

/-! ## A running HASH -/

section RunningHash

variable {s : State} {rest : List Move}

/-- A HASH has unit 0 and no other (44_system R252). -/
theorem lt_unitCount_runHash (hp : s.seq.phase = .runHash) {i : Nat} : i < unitCount s ↔ i = 0 := by
  rw [unitCount, hp, Nat.lt_one_iff]

/-- The barrier of a HASH completes it (42_hash R192). -/
theorem mcStep_runHash (hp : s.seq.phase = .runHash) (hb : barrier s = true) :
    mcStep s = .next (completeCommand s) := by
  rw [mcStep, hp, hb]
  rfl

/-- The MC's step at the head of the agenda completes a HASH whose unit is FINISHED (42_hash R192). -/
theorem step_completesHash (h : Inv s) (ha : s.agenda = .mc :: rest) (hp : s.seq.phase = .runHash)
    (hf : unitPhase s 0 = .finished) : step s = .next (completeCommand (s.withAgenda rest)) := by
  have hb : barrier s = true := (h.barrier_iff (by simp [hp])).mpr fun i hi => (lt_unitCount_runHash hp).mp hi ▸ hf
  exact (step_cons ha).trans (mcStep_runHash (s := s.withAgenda rest) hp hb)

/-- The three steps of a HASH after its accept, when no access fails: the digest of the input is stored, and the command
completes. -/
theorem run_hash (h : Inv s) (ha : s.agenda = .unit 0 .ok :: .unit 0 .ok :: .mc :: rest)
    (hp : s.seq.phase = .runHash) (hw : unitPhase s 0 = .waiting) :
    ∃ units, Host.Core.run Sys2Proof.core 3 s = .next (completeCommand (((s.withAgenda rest).withMem
      (writeBytes s.mem s.latch.a.dstPtr.toNat
        (compress s.latch.variant (readBytes s.mem s.latch.a.srcPtr.toNat (2 * dlen s.latch.variant))))).withSeq
      { s.seq with units := units })) := by
  have hi : 0 < unitCount s := (lt_unitCount_runHash hp).mpr rfl
  have hload := step_loads h ha hi hw fun _ _ => rfl
  have hloaded := stepKeepsInvariant _ _ h hload
  have hstore := step_stores hloaded rfl hi (unitPhase_moved h hi _).1 rfl
  have hstored := stepKeepsInvariant _ _ hloaded hstore
  have hdone := step_completesHash hstored rfl hp (unitPhase_moved hloaded hi .finished).1
  rw [← unitInput_runHash hp (i := 0), ← unitOut_runHash hp (i := 0)]
  exact ⟨_, (run_step hload).trans ((run_step hstore).trans (run_step hdone))⟩

end RunningHash

/-! ## The statement about a whole HASH -/

/-- Settles O32: the accept is the first step, `run_hash` the other three; memory by the laws of a write. -/
theorem hashCommandWritesDigest : Obligations.HashCommandWritesDigest := by
  intro v s rest h hready hc ha
  have haccept : step s = .next (acceptCommand .hash v (clearDone (s.withAgenda _))) :=
    (step_issue ha).trans (exec_hashOf_accepted hready hc)
  obtain ⟨units, hrun⟩ := run_hash (stepKeepsInvariant _ _ h haccept) rfl rfl rfl
  have hlen := compress_length v (readBytes s.mem s.x.srcPtr.toNat (2 * dlen v))
  exact ⟨_, (run_step haccept).trans hrun, readBytes_written h.memWf hlen, fun _ => readByte_kept h.memWf hlen,
    rfl, rfl, rfl, rfl, rfl, rfl⟩

end Sys2Proof.Machine

/-!
PROOF. The tree quantities for N = 2^L (43_merger R211, R215, R218): the sums and places of the levels, the batch sizes
that fit, and the slots the units write.
-/

namespace Sys2Proof.Machine

open Sys2Proof

/-! ## The levels of a tree -/

section Levels

variable {L k : Nat}

/-- The units of the levels below K and the digests of level K are as many as the leaves. -/
theorem sum_pairCount_add_levelSize (hk : k ≤ L) :
    ((List.range k).map (pairCount (2 ^ L))).sum + levelSize (2 ^ L) k = 2 ^ L := by
  induction k with
  | zero => simp [levelSize]
  | succ k ih =>
    have hbelow := ih (by omega)
    have hdouble := levelSize_eq_double hk
    have hpairs := pairCount_eq_levelSize hk
    rw [List.range_succ, List.map_append, List.sum_append, List.map_singleton, List.sum_singleton]
    omega

theorem levelSize_top (L : Nat) : levelSize (2 ^ L) L = 1 := by
  rw [levelSize_two_pow (Nat.le_refl L), Nat.sub_self, pow_zero]

/-- Settles O16: a leaf count is a power of two, and each quantity is one of its exponent. -/
theorem treeQuantities : Obligations.TreeQuantities := by
  intro n hn hleaf
  obtain ⟨L, hL, rfl⟩ := isLeafCount_iff.mp hleaf
  rw [levels_two_pow]
  refine ⟨hL, Nat.le_of_lt_succ ((Nat.pow_lt_pow_iff_right (by decide)).mp hn), rfl, Nat.div_one _, levelSize_top L,
    fun k hk => ?product, fun k hk => ⟨?half, pairCount_eq_levelSize hk⟩, ?sum⟩
  case product => rw [levelSize_two_pow hk, ← pow_add, Nat.sub_add_cancel hk]
  case half => rw [← pairCount_eq_levelSize hk, levelSize_eq_double hk]
  case sum =>
    have hsum := sum_pairCount_add_levelSize (Nat.le_refl L)
    rw [levelSize_top] at hsum
    omega

end Levels

/-! ## Batches (43_merger R218; 60_exceptions R277) -/

section Batches

variable {L B k i : Nat}

/-- The test of 60_exceptions R277 on the exponent. -/
theorem batchFits_iff :
    batchFits B (2 ^ L) = true ↔ 1 ≤ B ∧ ∀ k, k < L → min B (2 ^ (L - 1 - k)) ∣ 2 ^ (L - 1 - k) := by
  simp only [batchFits, Bool.and_eq_true, decide_eq_true_eq, List.all_eq_true, List.mem_range, levels_two_pow,
    beq_iff_eq, batchSize, ← Nat.dvd_iff_mod_eq_zero]
  refine and_congr_right fun _ => forall₂_congr fun k hk => ?_
  rw [pairCount_two_pow hk, Nat.sub_right_comm, Nat.sub_sub]

/-- At level 0 a batch of fewer units than N/2 must divide a power of two, so it is one; one that is not smaller takes
every level in one group. -/
theorem batchFits_iff_large_or_pow (hL : 1 ≤ L) :
    batchFits B (2 ^ L) = true ↔ 1 ≤ B ∧ (2 ^ L / 2 ≤ B ∨ ∃ m, B = 2 ^ m) := by
  have hhalf : 2 ^ L / 2 = 2 ^ (L - 1) := by
    rw [← pairCount_two_pow (L := L) (k := 0) hL, pairCount, levelSize, pow_zero, Nat.div_one]
  rw [hhalf]
  constructor
  · intro h
    obtain ⟨hB, hdvd⟩ := batchFits_iff.mp h
    refine ⟨hB, or_iff_not_imp_left.mpr fun hsmall => ?_⟩
    have hdvd0 := hdvd 0 hL
    rw [Nat.sub_zero, Nat.min_eq_left (by omega)] at hdvd0
    obtain ⟨m, -, hm⟩ := (Nat.dvd_prime_pow Nat.prime_two).mp hdvd0
    exact ⟨m, hm⟩
  · rintro ⟨hB, hlarge | ⟨m, rfl⟩⟩
    · refine batchFits_iff.mpr ⟨hB, fun k _ => ?_⟩
      rw [Nat.min_eq_right ((Nat.pow_le_pow_right (by decide) (Nat.sub_le _ _)).trans hlarge)]
    · exact batchFits_two_pow m L

/-- The size of a group divides the units of its level. -/
theorem batchSize_dvd (h : batchFits B (2 ^ L) = true) (hk : k < L) :
    batchSize B (2 ^ L) k ∣ pairCount (2 ^ L) k := by
  have hdvd := (batchFits_iff.mp h).2 k hk
  rwa [batchSize, pairCount_two_pow hk, Nat.add_comm, ← Nat.sub_sub]

theorem batchSize_pos (h : batchFits B (2 ^ L) = true) (hk : k < L) : 0 < batchSize B (2 ^ L) k := by
  rw [batchSize, pairCount_two_pow hk]
  exact Nat.lt_min.mpr ⟨(batchFits_iff.mp h).1, Nat.two_pow_pos _⟩

/-- Settles O18: which sizes fit by `batchFits_iff_large_or_pow`, the groups by division. -/
theorem batchRule : Obligations.BatchRule := by
  refine ⟨fun L B hL => batchFits_iff_large_or_pow hL, fun L B k h hk => ?_⟩
  have hdvd := batchSize_dvd h hk
  have hpos := batchSize_pos h hk
  exact ⟨rfl, Nat.div_mul_cancel hdvd, fun i hi => ⟨Nat.div_lt_div_of_lt_of_dvd hdvd hi, Nat.div_mul_le_self _ _,
    Nat.lt_mul_of_div_lt (Nat.lt_succ_self _) hpos⟩⟩

end Batches

/-! ## The slots the units write (43_merger R215, R224) -/

section Slots

variable {L k i q : Nat}

/-- The slots of level k + 1 come after those of the levels below, as many as N - S_k. -/
theorem levelOffset_eq (hk : k < L) : levelOffset (2 ^ L) (k + 1) = 2 ^ L - levelSize (2 ^ L) k := by
  rw [levelOffset, ← pairCount_eq_levelSize hk, levelSize_eq_double hk]

theorem levelSize_le (k : Nat) : levelSize (2 ^ L) k ≤ 2 ^ L := Nat.div_le_self _ _

/-- The slots of level k + 1 end where N - S_(k+1) of them have been written. -/
theorem slot_lt (hk : k < L) (hi : i < pairCount (2 ^ L) k) :
    levelOffset (2 ^ L) (k + 1) + i < 2 ^ L - levelSize (2 ^ L) (k + 1) := by
  have hdouble := levelSize_eq_double hk
  have hpairs := pairCount_eq_levelSize hk
  have hle := levelSize_le (L := L) k
  rw [levelOffset_eq hk]
  omega

/-- The first N - S_K slots are those of the units of the first K levels. -/
theorem exists_unit_of_slot (hk : k ≤ L) (hq : q < 2 ^ L - levelSize (2 ^ L) k) :
    ∃ j i, j < k ∧ i < pairCount (2 ^ L) j ∧ levelOffset (2 ^ L) (j + 1) + i = q := by
  induction k with
  | zero => simp [levelSize] at hq
  | succ k ih =>
    by_cases hbelow : q < 2 ^ L - levelSize (2 ^ L) k
    · obtain ⟨j, i, hj, hi, hslot⟩ := ih (by omega) hbelow
      exact ⟨j, i, by omega, hi, hslot⟩
    · have hdouble := levelSize_eq_double hk
      have hpairs := pairCount_eq_levelSize hk
      have hoff := levelOffset_eq hk
      exact ⟨k, q - (2 ^ L - levelSize (2 ^ L) k), by omega, by omega, by omega⟩

/-- A unit of a lower level writes a lower slot. -/
theorem slot_lt_of_level_lt {k' i' : Nat} (hk' : k' < L) (hlt : k < k') (hi : i < pairCount (2 ^ L) k) :
    levelOffset (2 ^ L) (k + 1) + i < levelOffset (2 ^ L) (k' + 1) + i' := by
  have hslot := slot_lt (hlt.trans hk') hi
  have hmono : levelSize (2 ^ L) k' ≤ levelSize (2 ^ L) (k + 1) :=
    Nat.div_le_div_left (Nat.pow_le_pow_right (by decide) hlt) (Nat.two_pow_pos _)
  have hoff := levelOffset_eq hk'
  omega

/-- Settles O19: the slots of the levels follow one another from 0 to N - 2. -/
theorem slotsWrittenOnce : Obligations.SlotsWrittenOnce := by
  intro L _
  refine ⟨fun k i hk hi => levelOffset_add_lt (Nat.succ_pos k) hk (pairCount_eq_levelSize hk ▸ hi), fun q hq => ?_⟩
  obtain ⟨k, i, hk, hi, rfl⟩ := exists_unit_of_slot (Nat.le_refl L) (by rwa [levelSize_top])
  refine ⟨k, i, ⟨hk, hi, rfl⟩, fun k' i' hk' hi' hslot => ?_⟩
  rcases Nat.lt_trichotomy k k' with hlt | rfl | hgt
  · exact absurd hslot (slot_lt_of_level_lt hk' hlt hi).ne'
  · exact ⟨rfl, Nat.add_left_cancel hslot⟩
  · exact absurd hslot (slot_lt_of_level_lt hk hgt hi').ne

end Slots

end Sys2Proof.Machine

/-!
PROOF. The CMD write of MERKLIZE.v (43_merger R212, R221; 60_exceptions R269, R273 to R277, R281, R282): with a legal
leaf count the seven other tests of `check_merklize` are tests on its exponent, and a block that takes commands accepts
or refuses with the answer of the first that fails.
-/

namespace Sys2Proof.Machine

open Sys2Proof

section CheckMerklize

variable {v : Variant} {x : Args} {L : Nat}

/-- The first test (60_exceptions R273). -/
theorem checkMerklize_of_leafCount (h : ¬∃ L, 1 ≤ L ∧ x.leafCount.toNat = 2 ^ L) :
    checkMerklize v x = some (.leafCount, x.leafCount) :=
  if_pos (Bool.eq_false_iff.mpr (mt isLeafCount_iff.mp h))

/-- What `check_merklize` compares after the first test, on the exponent of the leaf count (60_exceptions R274 to R277,
R281, R282). -/
theorem checkMerklize_of_leaves (hL : 1 ≤ L) (hN : x.leafCount.toNat = 2 ^ L) :
    checkMerklize v x =
      if x.srcLen.toNat ≠ 2 ^ L * slotOf v then some (.srcLen, x.srcLen)
      else if x.itmdCount.toNat + 1 ≠ 2 ^ L then some (.itmdCount, x.itmdCount)
      else if x.dstLen.toNat ≠ 2 ^ L * slotOf v then some (.dstLen, x.dstLen)
      else if ¬batchFits x.batch.toNat (2 ^ L) then some (.batch, x.batch)
      else if 2 ^ 64 < x.srcPtr.toNat + x.srcLen.toNat then some (.wrap, x.srcPtr)
      else if 2 ^ 64 < x.dstPtr.toNat + x.dstLen.toNat then some (.wrap, x.dstPtr)
      else if rangesMeet x.srcPtr.toNat x.srcLen.toNat x.dstPtr.toNat x.dstLen.toNat then some (.overlap, x.dstPtr)
      else none := by
  have hleaf : isLeafCount (2 ^ L) = true := isLeafCount_iff.mpr ⟨L, hL, rfl⟩
  have hpos := Nat.two_pow_pos L
  have hitmd : x.itmdCount.toNat = 2 ^ L - 1 ↔ x.itmdCount.toNat + 1 = 2 ^ L := by omega
  simp only [checkMerklize, hN, hleaf, hitmd, wraps_eq_true, ne_eq, Bool.not_eq_true, reduceCtorEq, if_false]
  by_cases h : x.itmdCount.toNat + 1 = 2 ^ L
  · simp only [h]
  · simp only [h, not_false_eq_true, if_true]

/-- Regions of the right length share a byte exactly when the model's test says so (60_exceptions R282). -/
theorem rangesMeet_regions (hsrc : x.srcLen.toNat = 2 ^ L * slotOf v) (hdst : x.dstLen.toNat = 2 ^ L * slotOf v) :
    rangesMeet x.srcPtr.toNat x.srcLen.toNat x.dstPtr.toNat x.dstLen.toNat = true ↔ ∃ c, InSrc x c ∧ InDst x c := by
  have hpos : 0 < 2 ^ L * slotOf v := Nat.mul_pos (Nat.two_pow_pos L) ((by decide : 0 < 20).trans_le (slotOf_ge v))
  exact rangesMeet_iff (hsrc ▸ hpos) (hdst ▸ hpos)

end CheckMerklize

theorem exec_merklizeOf_refused {v : Variant} {s : State} {e : ErrCode} {info : Word} (h : Ready s)
    (hc : checkMerklize v s.x = some (e, info)) : exec (merklizeOf v) s = .next (refusedWith e.byte info s) := by
  rw [exec_merklizeOf, issueMerklize, hc, issueCommand_refused h.dropped]

/-- Settles O10: legal arguments pass every test, and an accept changes LATCH, STATUS and SEQ alone. -/
theorem merklizeAccepts : Obligations.MerklizeAccepts := by
  intro v s L hready hL hN hsrcLen hitmd hdstLen hB hdvd hsrc hdst happ
  have hbatch : batchFits s.x.batch.toNat (2 ^ L) = true := batchFits_iff.mpr ⟨hB, hdvd⟩
  have hapart := mt (rangesMeet_regions hsrcLen hdstLen).mp (not_exists.mpr happ)
  have hc : checkMerklize v s.x = none := by
    rw [checkMerklize_of_leaves hL hN, if_neg (not_not.mpr hsrcLen), if_neg (not_not.mpr hitmd),
      if_neg (not_not.mpr hdstLen), if_neg (not_not.mpr hbatch), if_neg (by omega), if_neg (by omega), if_neg hapart]
  refine ⟨_, exec_merklizeOf_accepted hready hc, rfl, ?_, fun _ => rfl⟩
  change pairCount s.x.leafCount.toNat 0 = _
  rw [hN, pairCount_two_pow hL, Nat.zero_add]

/-- Settles O12: each clause is the refusal with the answer of its test, the tests before it passed. -/
theorem merklizeRefusesInOrder : Obligations.MerklizeRefusesInOrder := by
  intro v s hready
  refine ⟨fun h => exec_merklizeOf_refused hready (checkMerklize_of_leafCount h), fun L hL hN => ?_⟩
  have hc := checkMerklize_of_leaves (v := v) hL hN
  refine ⟨fun h => exec_merklizeOf_refused hready (hc.trans (if_pos h)), fun hsrcLen => ?_⟩
  rw [if_neg (not_not.mpr hsrcLen)] at hc
  refine ⟨fun h => exec_merklizeOf_refused hready (hc.trans (if_pos h)), fun hitmd => ?_⟩
  rw [if_neg (not_not.mpr hitmd)] at hc
  refine ⟨fun h => exec_merklizeOf_refused hready (hc.trans (if_pos h)), fun hdstLen => ?_⟩
  rw [if_neg (not_not.mpr hdstLen)] at hc
  refine ⟨fun h => exec_merklizeOf_refused hready (hc.trans (if_pos ?batch)), fun hB hdvd => ?_⟩
  case batch =>
    rw [batchFits_iff]
    rintro ⟨hB, hdvd⟩
    obtain h0 | ⟨k, hk, hndvd⟩ := h
    · omega
    · exact hndvd (hdvd k hk)
  rw [if_neg (not_not.mpr (batchFits_iff.mpr ⟨hB, hdvd⟩))] at hc
  refine ⟨fun h => exec_merklizeOf_refused hready (hc.trans (if_pos h)), fun hsrc => ?_, fun hsrc hdst hmeet => ?_⟩
  · intro h
    rw [if_neg (Nat.not_lt.mpr hsrc)] at hc
    exact exec_merklizeOf_refused hready (hc.trans (if_pos h))
  · rw [if_neg (Nat.not_lt.mpr hsrc), if_neg (Nat.not_lt.mpr hdst)] at hc
    exact exec_merklizeOf_refused hready (hc.trans (if_pos ((rangesMeet_regions hsrcLen hdstLen).mpr hmeet)))

end Sys2Proof.Machine

/-!
PROOF. The tree is a function of the digest bytes of the leaves (43_merger R216, R227, R236), so a level that stands
goes on standing while its bytes and the leaves are kept.
-/

namespace Sys2Proof.Machine

open Sys2Proof

section Tree

variable {v : Variant} {a : Args} {m m' : Memory} {L k i : Nat}

/-- The digest bytes of level k are in `m'` what they are in `m`. -/
def LevelKept (m m' : Memory) (v : Variant) (a : Args) (k : Nat) : Prop :=
  ∀ i, i < levelSize a.leafCount.toNat k →
    readBytes m' (digestAddr v a k i) (dlen v) = readBytes m (digestAddr v a k i) (dlen v)

/-- The two children of a digest are digests of the level below. -/
theorem children_lt (hk : k < L) (hi : i < levelSize (2 ^ L) (k + 1)) : 2 * i + 1 < levelSize (2 ^ L) k := by
  have hdouble := levelSize_eq_double hk
  have hpairs := pairCount_eq_levelSize hk
  omega

/-- Memories with the same leaf digests have the same tree. -/
theorem treeDigest_congr (hN : a.leafCount.toNat = 2 ^ L) (hleaves : LevelKept m m' v a 0) (hk : k ≤ L)
    (hi : i < levelSize (2 ^ L) k) : treeDigest m' v a k i = treeDigest m v a k i := by
  induction k generalizing i with
  | zero => exact hleaves i (hN ▸ hi)
  | succ k ih =>
    have hc := children_lt hk hi
    rw [treeDigest, treeDigest, ih (by omega) (by omega), ih (by omega) hc]

/-- A level that stands goes on standing when its bytes and the leaves are kept. -/
theorem LevelStands.of_kept (h : LevelStands m v a k) (hN : a.leafCount.toNat = 2 ^ L) (hk : k ≤ L)
    (hleaves : LevelKept m m' v a 0) (hkept : LevelKept m m' v a k) : LevelStands m' v a k := fun i hi =>
  (hkept i hi).trans <| (h i hi).trans (treeDigest_congr hN hleaves hk (hN ▸ hi)).symm

/-- Settles O21: the leaf digests are the bytes that the two memories agree on. -/
theorem onlyDigestBytesMatter : Obligations.OnlyDigestBytesMatter := by
  intro v a m m' L hN hagree k i hk hi
  refine (treeDigest_congr (m := m) (m' := m') hN (fun j hj => ?_) hk hi).symm
  have hj' : j < 2 ^ L := by simpa [hN, levelSize] using hj
  exact readBytes_congr fun c hc => (hagree j hj' c hc).symm

end Tree

end Sys2Proof.Machine

/-!
PROOF. The tree a MERKLIZE builds (43_merger R225 to R228). No step changes a byte of a level that stands: the host has
no write into SRC or DST, and a unit's store does not meet the digests of the levels below it. So each step keeps
`TreeSound`, and the barrier turns the agreement of the units into the next level.
-/

namespace Sys2Proof.Machine

open Sys2Proof

/-! ## Where the digests of a running MERKLIZE lie -/

section Running

variable {s : State} {m : Memory}

/-- A leaf lies in SRC. -/
theorem LegalTree.leaf_in_src {v : Variant} {x : Args} {L i c : Nat} (h : LegalTree v x L)
    (hi : i < levelSize (2 ^ L) 0) (hc : c < dlen v) : InSrc x (digestAddr v x 0 i + c) := by
  obtain ⟨hbase, htop⟩ := h.leaf_in hi
  rw [InSrc, h.srcLen]
  omega

/-- A digest above the leaves lies in DST and not in SRC (20_memory R67). -/
theorem LegalTree.digest_in_dst {v : Variant} {x : Args} {L k i c : Nat} (h : LegalTree v x L) (hk : k < L)
    (hi : i < levelSize (2 ^ L) (k + 1)) (hc : c < dlen v) :
    InDst x (digestAddr v x (k + 1) i + c) ∧ ¬InSrc x (digestAddr v x (k + 1) i + c) := by
  obtain ⟨hbase, htop⟩ := h.digest_in hk hi
  have hslots : (2 ^ L - 1) * slotOf v ≤ 2 ^ L * slotOf v := Nat.mul_le_mul_right _ (Nat.sub_le _ _)
  have hapart := h.apart
  rw [InDst, InSrc, h.srcLen, h.dstLen]
  omega

/-- A digest byte of the tree lies in SRC or DST (43_merger R220). -/
theorem LegalTree.digest_in_regions {v : Variant} {x : Args} {L k i c : Nat} (h : LegalTree v x L) (hk : k ≤ L)
    (hi : i < levelSize (2 ^ L) k) (hc : c < dlen v) :
    InSrc x (digestAddr v x k i + c) ∨ InDst x (digestAddr v x k i + c) := by
  cases k with
  | zero => exact .inl (h.leaf_in_src hi hc)
  | succ k => exact .inr (h.digest_in_dst hk hi hc).1

/-- Memory that is the same in SRC and DST has the same digests at every level. -/
theorem LegalTree.levelKept_of_regions {v : Variant} {x : Args} {L k : Nat} {m m' : Memory} (h : LegalTree v x L)
    (hsame : ∀ c, InSrc x c ∨ InDst x c → readByte m' c = readByte m c) (hk : k ≤ L) : LevelKept m m' v x k :=
  fun _ hi => readBytes_congr fun _ hc => hsame _ (h.digest_in_regions hk (h.leaves ▸ hi) hc)

/-- The open level has a unit for each digest of the next. -/
theorem Inv.unitCount_eq (h : Inv s) (hp : s.seq.phase = .runLevel) :
    unitCount s = levelSize s.latch.a.leafCount.toNat (s.seq.k + 1) := by
  obtain ⟨L, hL, hk⟩ := h.legal_tree hp
  rw [hL.leaves, (unitCount_runLevel hp hL.leaves hk).1]

/-- Only a level of a MERKLIZE has two units. -/
theorem runLevel_of_two_units {i j : Nat} (hi : i < unitCount s) (hj : j < unitCount s) (hne : i ≠ j) :
    s.seq.phase = .runLevel := by
  refine (phase_running (unitCount_pos_phase hi)).resolve_left fun hp => ?_
  simp only [unitCount, hp] at hi hj
  omega

/-- A store keeps every level up to the one being read (43_merger R217). -/
theorem Inv.store_keeps_levels (h : Inv s) (hp : s.seq.phase = .runLevel) {i : Nat} (hi : i < unitCount s) {d : Bytes}
    (hd : d.length = dlen s.latch.variant) {k : Nat} (hk : k ≤ s.seq.k) :
    LevelKept s.mem (writeBytes s.mem (unitOut s i) d) s.latch.variant s.latch.a k := by
  obtain ⟨L, hL, hkL⟩ := h.legal_tree hp
  intro j hj
  rw [(unitCount_runLevel hp hL.leaves hkL).1] at hi
  refine readBytes_writeBytes_apart h.memWf ?_
  rw [hd, unitOut_runLevel hp]
  exact hL.digest_apart hkL (by omega) hi (hL.leaves ▸ hj) (.inl (by omega))

/-- The outputs of two units do not meet (43_merger R217, R224). -/
theorem Inv.outputs_apart (h : Inv s) {i j : Nat} (hi : i < unitCount s) (hj : j < unitCount s) (hne : j ≠ i) :
    unitOut s j + dlen s.latch.variant ≤ unitOut s i ∨ unitOut s i + dlen s.latch.variant ≤ unitOut s j := by
  have hp := runLevel_of_two_units hi hj hne.symm
  obtain ⟨L, hL, hkL⟩ := h.legal_tree hp
  rw [(unitCount_runLevel hp hL.leaves hkL).1] at hi hj
  rw [unitOut_runLevel hp, unitOut_runLevel hp]
  exact hL.digest_apart hkL (Nat.le_refl _) hi hj (.inr hne.symm)

/-! ## What the units have done, by phase -/

variable {i j : Nat}

theorem unitAgrees_waiting (hp : unitPhase s i = .waiting) : UnitAgrees s i := by
  rw [UnitAgrees, hp]
  trivial

theorem unitAgrees_loaded {regs : EngineRegs} {d : Bytes} (hp : unitPhase s i = .loaded regs d) :
    UnitAgrees s i ↔ d = treeDigest s.mem s.latch.variant s.latch.a (s.seq.k + 1) i := by
  rw [UnitAgrees, hp]

theorem unitAgrees_finished (hp : unitPhase s i = .finished) :
    UnitAgrees s i ↔ readBytes s.mem (unitOut s i) (dlen s.latch.variant) =
      treeDigest s.mem s.latch.variant s.latch.a (s.seq.k + 1) i := by
  rw [UnitAgrees, hp]

/-- A unit that another unit's move leaves in its phase agrees as before. -/
theorem unitAgrees_setUnit_other (hs : sparseWf UnitPhase.waiting s.seq.units = true) (hne : j ≠ i) (p : UnitPhase) :
    UnitAgrees (setUnit i p s) j ↔ UnitAgrees s j := by
  have hphase : unitPhase (setUnit i p s) j = unitPhase s j := (unitPhase_setUnit hs i j p).trans (if_neg hne)
  unfold UnitAgrees
  rw [hphase]
  rfl

/-! ## What keeps the tree sound -/

/-- The tree is sound while no MERKLIZE runs. -/
theorem TreeSound.of_not_level {t : State} (h : t.seq.phase ≠ .runLevel) : TreeSound t := fun hp => absurd hp h

/-- The tree speaks of memory, LATCH and SEQ alone. -/
theorem TreeSound.of_same {t : State} (h : TreeSound s) (hm : t.mem = s.mem) (hl : t.latch = s.latch)
    (hq : t.seq = s.seq) : TreeSound t := by
  cases s
  cases t
  subst hm hl hq
  exact h

/-- Memory changes, but in no digest of the levels that stand and in no output that is stored. -/
theorem TreeSound.withMem (h : TreeSound s) (hinv : Inv s)
    (hlevels : s.seq.phase = .runLevel → ∀ k, k ≤ s.seq.k → LevelKept s.mem m s.latch.variant s.latch.a k)
    (houts : s.seq.phase = .runLevel → ∀ i, i < unitCount s → unitPhase s i = .finished →
      readBytes m (unitOut s i) (dlen s.latch.variant) = readBytes s.mem (unitOut s i) (dlen s.latch.variant)) :
    TreeSound (s.withMem m) := by
  intro hp
  replace hp : s.seq.phase = .runLevel := hp
  obtain ⟨hstand, hunits⟩ := h hp
  obtain ⟨L, hL, hkL⟩ := hinv.legal_tree hp
  have hleaves := hlevels hp 0 (Nat.zero_le _)
  refine ⟨fun k hk => (hstand k hk).of_kept hL.leaves (hk.trans hkL.le) hleaves (hlevels hp k hk), fun i hi => ?_⟩
  replace hi : i < unitCount s := hi
  have htree : treeDigest m s.latch.variant s.latch.a (s.seq.k + 1) i =
      treeDigest s.mem s.latch.variant s.latch.a (s.seq.k + 1) i :=
    treeDigest_congr hL.leaves hleaves hkL (by rwa [← hL.leaves, ← hinv.unitCount_eq hp])
  have hagree := hunits i hi
  cases hphase : unitPhase s i with
  | waiting => exact unitAgrees_waiting (s := s.withMem m) hphase
  | loaded regs d =>
    exact (unitAgrees_loaded (s := s.withMem m) hphase).mpr (((unitAgrees_loaded hphase).mp hagree).trans htree.symm)
  | finished =>
    exact (unitAgrees_finished (s := s.withMem m) hphase).mpr
      ((houts hp i hi hphase).trans (((unitAgrees_finished hphase).mp hagree).trans htree.symm))

/-- One unit moves to a phase that agrees with the tree. -/
theorem TreeSound.setUnit (h : TreeSound s) (hinv : Inv s) {p : UnitPhase}
    (hagree : s.seq.phase = .runLevel → UnitAgrees (setUnit i p s) i) : TreeSound (setUnit i p s) := by
  intro hp
  replace hp : s.seq.phase = .runLevel := hp
  obtain ⟨hstand, hunits⟩ := h hp
  refine ⟨hstand, fun j hj => ?_⟩
  by_cases hji : j = i
  · exact hji ▸ hagree hp
  · exact (unitAgrees_setUnit_other (hinv.seq.table (by simp [hp])) hji p).mpr (hunits j hj)

/-! ## The steps of a unit -/

/-- A load that is performed has read the unit's whole input. -/
theorem readAll_eq_performed {m : Memory} {port : PortAnswer} {n : Nat} {l : List (Nat × Nat)} {bs : Bytes}
    (h : readAll m port n l = .performed bs) : bs = l.flatMap fun p => readBytes m p.1 p.2 := by
  induction l generalizing n bs with
  | nil => exact (Access.performed.inj h).symm
  | cons p r ih =>
    rw [readAll] at h
    split_ifs at h
    cases hr : readAll m port (n + 1) r <;> rw [hr] at h
    case performed rest =>
      rw [List.flatMap_cons, ← ih hr]
      exact (Access.performed.inj h).symm
    all_goals contradiction

/-- What a unit computes from levels that stand is the digest of the next level (43_merger R227). -/
theorem Inv.compress_unitInput (hinv : Inv s) (h : TreeSound s) (hp : s.seq.phase = .runLevel) (hi : i < unitCount s) :
    compress s.latch.variant (unitInput s i) = treeDigest s.mem s.latch.variant s.latch.a (s.seq.k + 1) i := by
  obtain ⟨L, hL, hkL⟩ := hinv.legal_tree hp
  have hstand := (h hp).1 s.seq.k (Nat.le_refl _)
  have hchild := children_lt hkL (by rwa [← hL.leaves, ← hinv.unitCount_eq hp])
  rw [← hL.leaves] at hchild
  rw [unitInput_runLevel hp, hstand (2 * i) (by omega), hstand (2 * i + 1) hchild, treeDigest]

theorem TreeSound.load (h : TreeSound s) (hinv : Inv s) (hi : i < unitCount s) {regs : EngineRegs} :
    TreeSound (Machine.setUnit i (.loaded regs (compress s.latch.variant (unitInput s i))) s) :=
  h.setUnit hinv fun hp => (unitAgrees_loaded (unitPhase_moved hinv hi _).1).mpr (hinv.compress_unitInput h hp hi)

theorem TreeSound.store (h : TreeSound s) (hinv : Inv s) (hi : i < unitCount s) {regs : EngineRegs} {d : Bytes}
    (hphase : unitPhase s i = .loaded regs d) :
    TreeSound (Machine.setUnit i .finished (s.withMem (writeBytes s.mem (unitOut s i) d))) := by
  have hd := hinv.loaded_length hi hphase
  have htop := hinv.out_exists hi
  have hwritten : TreeSound (s.withMem (writeBytes s.mem (unitOut s i) d)) := by
    refine h.withMem hinv (fun hp k hk => hinv.store_keeps_levels hp hi hd hk) fun hp j hj hfin => ?_
    have hne : j ≠ i := by
      rintro rfl
      cases hphase.symm.trans hfin
    exact readBytes_writeBytes_apart hinv.memWf (hd ▸ hinv.outputs_apart hi hj hne)
  have hinv' : Inv (s.withMem (writeBytes s.mem (unitOut s i) d)) :=
    hinv.withMem (writeBytes_wf _ _ hinv.memWf) (writeBytes_bounded (hd ▸ htop) hinv.memBounded)
  refine hwritten.setUnit hinv' fun hp => (unitAgrees_finished (unitPhase_moved hinv' hi _).1).mpr ?_
  have hkept := (unitAgrees_loaded (s := s.withMem (writeBytes s.mem (unitOut s i) d)) hphase).mp
    ((hwritten hp).2 i hi)
  exact (readBytes_written hinv.memWf hd).trans hkept

/-! ## The steps of the MC -/

/-- At the barrier the next level stands (43_merger R225, R227). -/
theorem Inv.next_level_stands (hinv : Inv s) (h : TreeSound s) (hp : s.seq.phase = .runLevel)
    (hb : barrier s = true) : ∀ k, k ≤ s.seq.k + 1 → LevelStands s.mem s.latch.variant s.latch.a k := by
  obtain ⟨hstand, hunits⟩ := h hp
  intro k hk
  rcases Nat.le_succ_iff.mp hk with hk | rfl
  · exact hstand k hk
  · intro i hi
    rw [← hinv.unitCount_eq hp] at hi
    have hfin := (hinv.barrier_iff (by simp [hp])).mp hb i hi
    rw [← unitOut_runLevel hp]
    exact (unitAgrees_finished hfin).mp (hunits i hi)

/-- A new level opens on one that stands, with no unit at work. -/
theorem TreeSound.of_units_waiting {t : State} (hu : t.seq.units = [])
    (hstand : ∀ k, k ≤ t.seq.k → LevelStands t.mem t.latch.variant t.latch.a k) : TreeSound t :=
  fun _ => ⟨hstand, fun i _ => unitAgrees_waiting (by rw [unitPhase, hu]; rfl)⟩

/-- A level is the leaves themselves at the accept (43_merger R221). -/
theorem levelStands_zero (m : Memory) (v : Variant) (a : Args) : LevelStands m v a 0 := fun _ _ => rfl

/-! ## Every effect, and so every step -/

/-- A host write that is taken changes no byte of SRC or DST while a command runs (20_memory R75). -/
theorem Inv.hostWrite_keeps_regions (hinv : Inv s) {addr : Nat} {bytes : Bytes}
    (free : s.status.busy = true → meetsRegions s addr bytes.length = false) (hb : s.status.busy = true) {c : Nat}
    (hc : InSrc s.latch.a c ∨ InDst s.latch.a c) : readByte (writeBytes s.mem addr bytes) c = readByte s.mem c := by
  by_contra hne
  obtain ⟨hlo, hhi⟩ := writeBytes_changes hinv.memWf hne
  have hmeet : meetsRegions s addr bytes.length = true :=
    (hinv.meetsRegions_iff hb (by omega)).mpr ⟨c - addr, by omega, by rwa [Nat.add_sub_cancel' hlo]⟩
  cases hmeet.symm.trans (free hb)

theorem TreeSound.hostWrite (h : TreeSound s) (hinv : Inv s) {addr : Nat} {bytes : Bytes}
    (free : s.status.busy = true → meetsRegions s addr bytes.length = false) :
    TreeSound (s.withMem (writeBytes s.mem addr bytes)) := by
  have hkept : s.seq.phase = .runLevel → ∀ k, k ≤ s.seq.k + 1 →
      LevelKept s.mem (writeBytes s.mem addr bytes) s.latch.variant s.latch.a k := by
    intro hp k hk
    obtain ⟨L, hL, hkL⟩ := hinv.legal_tree hp
    have hb := hinv.busy_of_phase (by simp [hp])
    exact hL.levelKept_of_regions (fun c hc => hinv.hostWrite_keeps_regions free hb hc) (by omega)
  refine h.withMem hinv (fun hp k hk => hkept hp k (by omega)) fun hp i hi _ => ?_
  rw [unitOut_runLevel hp]
  exact hkept hp (s.seq.k + 1) (Nat.le_refl _) i (hinv.unitCount_eq hp ▸ hi)

theorem Effect.keeps_treeSound {t : State} (e : Effect s t) (hinv : Inv s) (h : TreeSound s) : TreeSound t := by
  cases e with
  | same => exact h
  | reply | setArgs | setIe | drop | acknowledge | refuse => exact h.of_same rfl rfl rfl
  | hostWrite addr bytes top free => exact h.hostWrite hinv free
  | acceptHash => exact .of_not_level (by simp [acceptCommand, seqAtAccept])
  | acceptMerklize v hd ok =>
    refine .of_units_waiting rfl fun k hk => ?_
    obtain rfl : k = 0 := Nat.le_zero.mp hk
    exact levelStands_zero _ _ _
  | load i port m hi hp hm =>
    rw [show m = unitInput s i from readAll_eq_performed hm]
    exact h.load hinv hi
  | store i regs d hi hp top => exact h.store hinv hi hp
  | nextLevel hp hb more => exact .of_units_waiting rfl (hinv.next_level_stands h hp hb)
  | loadFails | storeFails | completeHash | completeMerklize | reset =>
    exact .of_not_level (by simp [failBackend, completeCommand, resetStep, State.reset])

/-- Settles O30: every effect keeps the tree sound, and the completion comes at the barrier of the last level. -/
theorem merklizeBuildsTree : Obligations.MerklizeBuildsTree := by
  intro s t hinv h hstep
  obtain ⟨rest, e⟩ := step_effect hstep
  refine ⟨e.keeps_treeSound (hinv.agenda_free rest) (h.of_same rfl rfl rfl), fun hp ht k hk => ?_⟩
  have hs := hinv.done_of_busy (hinv.busy_of_phase (by simp [hp]))
  obtain ⟨rfl, hbarrier, hhash | ⟨-, hroot⟩⟩ := e.completes_of_done_rises hs ht
  · cases hp.symm.trans hhash
  · have hlast := hinv.last_level_of_root_next hp hroot
    exact hinv.next_level_stands h hp hbarrier k (hlast ▸ hk)

end Running

end Sys2Proof.Machine

/-!
PROOF. Where the units of a MERKLIZE read and write (43_merger R217, R220, R228; 20_memory R67, R71): the digests of a
level are apart from those its units write, and no step writes a leaf.
-/

namespace Sys2Proof.Machine

open Sys2Proof

/-- Settles O20: the digests of two levels and of one level are apart, and each lies in its region. -/
theorem levelsDisjoint : Obligations.LevelsDisjoint := by
  intro v x k hc hk
  obtain ⟨L, hL⟩ := checkMerklize_eq_none.mp hc
  rw [hL.leaves, levels_two_pow] at hk
  rw [hL.leaves, pairCount_eq_levelSize hk]
  refine ⟨fun i j c c' hi hj _ _ => ?_, fun i j c c' hi hj _ _ hne => ?_,
    fun i c hi hc => ⟨?_, ?_⟩, fun j c hj hc => hL.digest_in_dst hk hj hc⟩
  · have hapart := hL.digest_apart (j := k) hk (by omega) hj hi (.inl (by omega))
    omega
  · have hapart := hL.digest_apart hk (Nat.le_refl _) hj hi (.inr hne.symm)
    omega
  · rintro rfl
    exact hL.leaf_in_src hi hc
  · intro hpos
    obtain ⟨j, rfl⟩ := Nat.exists_eq_add_one_of_ne_zero hpos.ne'
    exact (hL.digest_in_dst (by omega) hi hc).1

/-- Settles O28: a step that changes a byte is one of those of `commandFrame`, and none of them does it in the SRC of a
running MERKLIZE. -/
theorem leavesNeverWritten : Obligations.LeavesNeverWritten := by
  intro s t c hinv hp hstep hsrc
  by_contra hchanged
  rcases commandFrame s t c hinv hstep hchanged with
    ⟨addr, bytes, rest, -, -, -, hbarred⟩ | ⟨i, regs, d, -, -, -, -, -, ⟨hhash, -⟩ | ⟨-, -, hoff⟩⟩
  · exact (hbarred (hinv.busy_of_phase (by simp [hp]))).1 hsrc
  · cases hp.symm.trans hhash
  · exact hoff hsrc

end Sys2Proof.Machine

/-!
PROOF. The MC's step: it waits at the barrier, then opens the next level or completes the command (43_merger R222, R225,
R229; 42_hash R192).
-/

namespace Sys2Proof.Machine

open Sys2Proof

section

variable {s : State}

theorem mcStep_idle (hp : s.seq.phase = .idle) : mcStep s = .next s := by rw [mcStep, hp]

/-- Before the barrier the MC waits (43_merger R225). -/
theorem mcStep_waits (hb : barrier s = false) : mcStep s = .next s := by
  rw [mcStep, hb]
  cases s.seq.phase <;> rfl

/-- At the barrier of the last level the MC completes the MERKLIZE (43_merger R229). -/
theorem mcStep_completesMerklize (hp : s.seq.phase = .runLevel) (hb : barrier s = true)
    (hroot : levelSize s.latch.a.leafCount.toNat (s.seq.k + 1) = 1) : mcStep s = .next (completeCommand s) := by
  rw [mcStep, hp, hb]
  exact if_pos hroot

/-- At the barrier of any other level the MC opens the next one (43_merger R225). -/
theorem mcStep_opensNextLevel (hp : s.seq.phase = .runLevel) (hb : barrier s = true)
    (hmore : levelSize s.latch.a.leafCount.toNat (s.seq.k + 1) ≠ 1) : mcStep s = .next (openNextLevel s) := by
  rw [mcStep, hp, hb]
  exact if_neg hmore

/-- A unit that is not FINISHED holds the barrier. -/
theorem Inv.barrier_held (h : Inv s) {i : Nat} (hi : i < unitCount s) (hne : unitPhase s i ≠ .finished) :
    barrier s = false :=
  Bool.eq_false_iff.mpr fun hb => hne ((h.barrier_iff (unitCount_pos_phase hi)).mp hb i hi)

end

/-- Settles O25: an equation of the MC's step for each clause. -/
theorem levelClose : Obligations.LevelClose := by
  intro s rest h ha
  have h' := h.agenda_free rest
  have hstep := step_cons ha
  refine ⟨fun ⟨i, hi, hne⟩ => hstep.trans (mcStep_waits (h'.barrier_held hi hne)), fun hfin => ?_⟩
  have hbarrier : s.seq.phase ≠ .idle → barrier (s.withAgenda rest) = true := fun hp => (h'.barrier_iff hp).mpr hfin
  refine ⟨fun hp => hstep.trans (mcStep_idle hp), ?_, fun hp hmore => ?_⟩
  · rintro (hp | ⟨hp, hroot⟩)
    · exact hstep.trans (mcStep_runHash hp (hbarrier (by simp [hp])))
    · exact hstep.trans (mcStep_completesMerklize hp (hbarrier (by simp [hp])) hroot)
  · refine ⟨openNextLevel (s.withAgenda rest),
      hstep.trans (mcStep_opensNextLevel hp (hbarrier (by simp [hp])) hmore), ?_, ?_, fun _ => rfl⟩
    · rw [← hp]
      rfl
    · simp only [unitCount, openNextLevel, State.withSeq_seq, State.withAgenda_seq, hp]
      rfl

end Sys2Proof.Machine

/-!
PROOF. The digest a unit stores is the one its engine's registers hold (43_merger R223; 41_kp R179; 92 D34).
-/

namespace Sys2Proof.Machine

open Sys2Proof

/-- Settles O60: the schedule store by `digestOf_window`, the path by `keccakPathsAgree`. -/
theorem engineRegistersHoldDigest : Obligations.EngineRegistersHoldDigest := by
  have hfull : ∀ path v m, digestOf v (runEngine path .full v m) = compress v m := by
    intro path v m
    cases path with
    | lane64 => rfl
    | ilv32 => exact keccakPathsAgree.2 .full v m
  intro path sched v m
  cases sched with
  | full => exact hfull path v m
  | window16 => rw [digestOf_window, hfull]

end Sys2Proof.Machine

/-!
PROOF. The steps of two units commute (43_merger R226; 20_memory R71). With no access failing, a unit's step is one
change of its phase and of memory; what it reads and what it writes is apart from what every other unit of the level
writes, so each change is the same before and after the other.
-/

namespace Sys2Proof.Machine

open Sys2Proof

section

variable {s : State} {i j : Nat} {port : PortAnswer}

/-! ## A unit's step as one change -/

/-- The phase unit i has after its next step. -/
def phaseAfter (s : State) (i : Nat) : UnitPhase :=
  match unitPhase s i with
  | .waiting => loadedWith s.latch.variant (unitInput s i)
  | .loaded _ _ => .finished
  | .finished => .finished

/-- The bytes unit i writes in its next step. -/
def bytesToStore (s : State) (i : Nat) : Bytes :=
  match unitPhase s i with
  | .waiting => []
  | .loaded _ d => d
  | .finished => []

/-- The state after unit i's next step when no access fails. -/
def afterUnit (i : Nat) (s : State) : State :=
  setUnit i (phaseAfter s i) (s.withMem (writeBytes s.mem (unitOut s i) (bytesToStore s i)))

/-- A move to the phase a unit has changes nothing. -/
theorem setUnit_same (hs : sparseWf UnitPhase.waiting s.seq.units = true) {p : UnitPhase} (hp : unitPhase s i = p) :
    setUnit i p s = s := by
  have hunits : sparsePut .waiting s.seq.units i p = s.seq.units :=
    sparse_ext (sparsePut_wf _ _ hs) hs fun j => by
      rw [sparseGet_put hs, ← hp]
      split_ifs with hj
      · exact hj ▸ rfl
      · rfl
  rw [setUnit_eq, hunits]

theorem unitReads_length_le (s : State) (i : Nat) : (unitReads s i).length ≤ 2 := by
  unfold unitReads
  cases s.seq.phase <;> simp

/-- With no access failing, a unit of a sound state takes its next step. -/
theorem Inv.unitStep_eq (h : Inv s) (hi : i < unitCount s) (hport : ∀ n, n < 2 → portFailsAt port n = false) :
    unitStep i port s = .next (afterUnit i s) := by
  cases hp : unitPhase s i with
  | waiting =>
    rw [unitStep_of_waiting hi hp,
      loadStep_performed h hi fun n hn => hport n (hn.trans_le (unitReads_length_le s i)),
      afterUnit, phaseAfter, bytesToStore, hp]
    rfl
  | loaded regs d =>
    rw [unitStep_of_loaded hi hp, storeStep_performed h hi (h.loaded_length hi hp) (hport 0 (by decide)),
      afterUnit, phaseAfter, bytesToStore, hp]
  | finished =>
    have hsame := setUnit_same (h.seq.table (unitCount_pos_phase hi)) hp
    rw [unitStep, if_pos hi, hp, afterUnit, phaseAfter, bytesToStore, hp]
    exact congrArg _ hsame.symm

/-- With no access failing, a unit's step is its next one, or nothing where there is no such unit. -/
theorem Inv.unitStep_next {t : State} (h : Inv s) (hport : ∀ n, n < 2 → portFailsAt port n = false)
    (hstep : unitStep i port s = .next t) : (i < unitCount s ∧ t = afterUnit i s) ∨ (¬i < unitCount s ∧ t = s) := by
  by_cases hi : i < unitCount s
  · exact .inl ⟨hi, Host.Outcome.next.inj (hstep.symm.trans (h.unitStep_eq hi hport))⟩
  · exact .inr ⟨hi, Host.Outcome.next.inj (hstep.symm.trans (if_neg hi))⟩

/-! ## What a unit's step leaves to the others -/

theorem Inv.bytesToStore_length (h : Inv s) (hi : i < unitCount s) :
    (bytesToStore s i).length ≤ dlen s.latch.variant := by
  unfold bytesToStore
  cases hp : unitPhase s i with
  | waiting | finished => exact Nat.zero_le _
  | loaded regs d => exact (h.loaded_length hi hp).le

/-- A unit's step changes no byte outside its output. -/
theorem Inv.readBytes_afterUnit (h : Inv s) (hi : i < unitCount s) {a n : Nat}
    (hapart : a + n ≤ unitOut s i ∨ unitOut s i + dlen s.latch.variant ≤ a) :
    readBytes (afterUnit i s).mem a n = readBytes s.mem a n := by
  have hlen := h.bytesToStore_length hi
  exact readBytes_writeBytes_apart h.memWf (by omega)

/-- What a unit reads is apart from what any unit of its level writes (43_merger R217). -/
theorem Inv.reads_apart (h : Inv s) (hp : s.seq.phase = .runLevel) (hi : i < unitCount s) {c : Nat}
    (hc : c < 2 * unitCount s) :
    digestAddr s.latch.variant s.latch.a s.seq.k c + dlen s.latch.variant ≤ unitOut s i ∨
      unitOut s i + dlen s.latch.variant ≤ digestAddr s.latch.variant s.latch.a s.seq.k c := by
  obtain ⟨L, hL, hk⟩ := h.legal_tree hp
  obtain ⟨hcount, hdouble⟩ := unitCount_runLevel hp hL.leaves hk
  rw [unitOut_runLevel hp]
  exact hL.digest_apart hk (Nat.le_succ _) (hcount ▸ hi) (hdouble ▸ hc) (.inl (by omega))

section

variable (h : Inv s) (hi : i < unitCount s) (hj : j < unitCount s) (hne : i ≠ j)
include h hi hne

theorem unitPhase_afterUnit : unitPhase (afterUnit i s) j = unitPhase s j := (unitPhase_moved h hi _).2 j hne.symm

theorem bytesToStore_afterUnit : bytesToStore (afterUnit i s) j = bytesToStore s j := by
  rw [bytesToStore, bytesToStore, unitPhase_afterUnit h hi hne]

include hj

theorem unitInput_afterUnit : unitInput (afterUnit i s) j = unitInput s j := by
  have hp := runLevel_of_two_units hi hj hne
  rw [unitInput_runLevel (s := afterUnit i s) hp, unitInput_runLevel hp]
  exact congr_arg₂ (· ++ ·) (h.readBytes_afterUnit hi (h.reads_apart hp hi (by omega)))
    (h.readBytes_afterUnit hi (h.reads_apart hp hi (by omega)))

theorem phaseAfter_afterUnit : phaseAfter (afterUnit i s) j = phaseAfter s j := by
  rw [phaseAfter, phaseAfter, unitPhase_afterUnit h hi hne, unitInput_afterUnit h hi hj hne]
  rfl

/-- The two units write apart from each other. -/
theorem writes_comm :
    writeBytes (writeBytes s.mem (unitOut s i) (bytesToStore s i)) (unitOut s j) (bytesToStore s j) =
      writeBytes (writeBytes s.mem (unitOut s j) (bytesToStore s j)) (unitOut s i) (bytesToStore s i) := by
  have hapart := h.outputs_apart hi hj hne.symm
  have hleni := h.bytesToStore_length hi
  have hlenj := h.bytesToStore_length hj
  exact writeBytes_comm h.memWf (by omega)

/-- What two units lead to, one after the other. -/
theorem afterUnit_afterUnit :
    afterUnit j (afterUnit i s) = (s.withMem (writeBytes (writeBytes s.mem (unitOut s i) (bytesToStore s i))
      (unitOut s j) (bytesToStore s j))).withSeq { s.seq with
        units := sparsePut .waiting (sparsePut .waiting s.seq.units i (phaseAfter s i)) j (phaseAfter s j) } := by
  rw [afterUnit, phaseAfter_afterUnit h hi hj hne, bytesToStore_afterUnit h hi hne]
  rfl

/-- Two units lead to the same state in both orders. -/
theorem afterUnit_comm : afterUnit j (afterUnit i s) = afterUnit i (afterUnit j s) := by
  rw [afterUnit_afterUnit h hi hj hne, afterUnit_afterUnit h hj hi hne.symm, writes_comm h hi hj hne,
    sparsePut_comm (h.seq.table (unitCount_pos_phase hi)) hne]

end

end

/-- Settles O29: unless one of the units does not exist, the two steps are `afterUnit`, which commute. -/
theorem unitStepsCommute : Obligations.UnitStepsCommute := by
  intro s s₁ s₁₂ i j p q h hne hp hq hstepi hstepj
  have h₁ := (unitStep_effect hstepi).keeps_inv h
  rcases h.unitStep_next hp hstepi with ⟨hi, rfl⟩ | ⟨hi, rfl⟩
  · rcases h₁.unitStep_next hq hstepj with ⟨hj, rfl⟩ | ⟨hj, rfl⟩
    · have hj' : j < unitCount s := hj
      have hstep := h.unitStep_eq hj' hq
      have h₂ := (unitStep_effect hstep).keeps_inv h
      exact ⟨afterUnit j s, hstep, afterUnit_comm h hi hj' hne ▸ h₂.unitStep_eq hi hp⟩
    · exact ⟨s, if_neg hj, hstepi⟩
  · have hcount : unitCount s₁₂ = unitCount s₁ := by
      rcases h.unitStep_next hq hstepj with ⟨-, rfl⟩ | ⟨-, rfl⟩ <;> rfl
    exact ⟨s₁₂, hstepj, if_neg (hcount ▸ hi)⟩

end Sys2Proof.Machine

/-!
PROOF. The steps a running command has left (70_reset R325): each unit step takes one, the close of a level takes one,
and a command just accepted has 2 * (N - 1) + L.
-/

namespace Sys2Proof.Machine

open Sys2Proof

section

variable {s : State} {i : Nat}

/-! ## The steps of the units of a level -/

/-- A sum is one less when one of its terms is. -/
theorem sum_map_range_add_one {f g : Nat → Nat} {n i : Nat} (hi : i < n) (hone : f i + 1 = g i)
    (hother : ∀ j, j ≠ i → f j = g j) : ((List.range n).map f).sum + 1 = ((List.range n).map g).sum := by
  induction n with
  | zero => omega
  | succ n ih =>
    simp only [List.range_succ, List.map_append, List.sum_append, List.map_singleton, List.sum_singleton]
    rcases Nat.lt_succ_iff_lt_or_eq.mp hi with hlt | rfl
    · rw [hother n (by omega), ← ih hlt]
      omega
    · rw [← hone, List.map_congr_left fun j hj => hother j (by have := List.mem_range.mp hj; omega)]
      omega

/-- A unit's step takes one from the steps it has left. -/
theorem phaseStepsLeft_phaseAfter (hp : unitPhase s i ≠ .finished) :
    phaseStepsLeft (phaseAfter s i) + 1 = phaseStepsLeft (unitPhase s i) := by
  unfold phaseAfter
  cases hi : unitPhase s i with
  | waiting | loaded => rfl
  | finished => exact absurd hi hp

theorem Inv.unitStepsLeft_afterUnit (h : Inv s) (hi : i < unitCount s) (hp : unitPhase s i ≠ .finished) :
    unitStepsLeft (afterUnit i s) + 1 = unitStepsLeft s := by
  obtain ⟨hself, hothers⟩ := unitPhase_moved h hi (phaseAfter s i)
  exact sum_map_range_add_one (f := fun j => phaseStepsLeft (unitPhase (afterUnit i s) j)) hi
    ((congrArg (phaseStepsLeft · + 1) hself).trans (phaseStepsLeft_phaseAfter hp))
    fun j hj => congrArg phaseStepsLeft (hothers j hj)

theorem unitStepsLeft_finished (hfin : ∀ i, i < unitCount s → unitPhase s i = .finished) : unitStepsLeft s = 0 := by
  refine List.sum_eq_zero fun n hn => ?_
  obtain ⟨i, hi, rfl⟩ := List.mem_map.mp hn
  rw [hfin i (List.mem_range.mp hi)]
  rfl

theorem unitStepsLeft_waiting (hu : s.seq.units = []) : unitStepsLeft s = 2 * unitCount s := by
  simp [unitStepsLeft, unitPhase, hu, sparseGet, phaseStepsLeft, Nat.mul_comm]

/-! ## The steps of a command -/

theorem stepsLeft_idle (hp : s.seq.phase = .idle) : stepsLeft s = 0 := by rw [stepsLeft, hp]

theorem stepsLeft_runHash (hp : s.seq.phase = .runHash) : stepsLeft s = unitStepsLeft s + 1 := by rw [stepsLeft, hp]

theorem stepsLeft_runLevel (hp : s.seq.phase = .runLevel) :
    stepsLeft s = unitStepsLeft s + 1 + 2 * (levelSize s.latch.a.leafCount.toNat (s.seq.k + 1) - 1)
      + (levels s.latch.a.leafCount.toNat - 1 - s.seq.k) := by rw [stepsLeft, hp]

/-- Each unit step takes one from the steps left. -/
theorem Inv.stepsLeft_afterUnit (h : Inv s) (hi : i < unitCount s) (hp : unitPhase s i ≠ .finished) :
    stepsLeft (afterUnit i s) + 1 = stepsLeft s := by
  have hunits := h.unitStepsLeft_afterUnit hi hp
  have hseq : (afterUnit i s).seq.phase = s.seq.phase ∧ (afterUnit i s).seq.k = s.seq.k := ⟨rfl, rfl⟩
  have hlatch : (afterUnit i s).latch = s.latch := rfl
  rcases phase_running (unitCount_pos_phase hi) with hrun | hrun
  · rw [stepsLeft_runHash hrun, stepsLeft_runHash (hseq.1.trans hrun)]
    omega
  · rw [stepsLeft_runLevel hrun, stepsLeft_runLevel (hseq.1.trans hrun), hseq.2, hlatch]
    omega

/-- A level with all its units WAITING. -/
theorem Inv.stepsLeft_waiting (h : Inv s) (hp : s.seq.phase = .runLevel) (hu : s.seq.units = []) :
    stepsLeft s = 2 * levelSize s.latch.a.leafCount.toNat (s.seq.k + 1) + 1
      + 2 * (levelSize s.latch.a.leafCount.toNat (s.seq.k + 1) - 1)
      + (levels s.latch.a.leafCount.toNat - 1 - s.seq.k) := by
  rw [stepsLeft_runLevel hp, unitStepsLeft_waiting hu, h.unitCount_eq hp]

/-- At the barrier of the last level the completion is left. -/
theorem Inv.stepsLeft_last (h : Inv s) (hp : s.seq.phase = .runLevel) (hb : barrier s = true)
    (hroot : levelSize s.latch.a.leafCount.toNat (s.seq.k + 1) = 1) : stepsLeft s = 1 := by
  have hlast := h.last_level_of_root_next hp hroot
  rw [stepsLeft_runLevel hp, unitStepsLeft_finished ((h.barrier_iff (by simp [hp])).mp hb), hroot]
  omega

theorem openNextLevel_k (s : State) : (openNextLevel s).seq.k = s.seq.k + 1 := rfl

theorem openNextLevel_latch (s : State) : (openNextLevel s).latch = s.latch := rfl

/-- The close of a level takes one from the steps left. -/
theorem Inv.stepsLeft_openNextLevel (h : Inv s) (hp : s.seq.phase = .runLevel) (hb : barrier s = true)
    (hmore : levelSize s.latch.a.leafCount.toNat (s.seq.k + 1) ≠ 1) :
    stepsLeft (Machine.openNextLevel s) + 1 = stepsLeft s := by
  have hopen := h.openNextLevel hp hmore
  obtain ⟨L, hL, -⟩ := h.legal_tree hp
  obtain ⟨-, -, hk⟩ := hopen.seq.level hp
  have hcounts := hopen.stepsLeft_waiting hp rfl
  rw [openNextLevel_k, openNextLevel_latch, hL.leaves, levels_two_pow] at hk hcounts
  have hdouble := levelSize_eq_double hk
  have hpairs := pairCount_eq_levelSize hk
  have hpos := Nat.two_pow_pos (L - (s.seq.k + 1 + 1))
  rw [← levelSize_two_pow hk] at hpos
  rw [hcounts, stepsLeft_runLevel hp, unitStepsLeft_finished ((h.barrier_iff (by simp [hp])).mp hb), hL.leaves,
    levels_two_pow]
  omega

/-! ## The MSC's own steps -/

/-- With no move listed, a running command's next step is that of a unit that is not FINISHED, or the MC's at the
barrier (log 2). -/
theorem Inv.idleMove_running (h : Inv s) (hp : s.seq.phase ≠ .idle) :
    (∃ i, i < unitCount s ∧ unitPhase s i ≠ .finished ∧ idleMove s = .next (afterUnit i s)) ∨
      (barrier s = true ∧ idleMove s = mcStep s) := by
  have hmove : idleMove s = if barrier s then mcStep s else unitStep (firstUnfinished 0 s.seq.units) .ok s := by
    rcases phase_running hp with hrun | hrun <;> rw [idleMove, hrun]
  cases hb : barrier s with
  | true => exact .inr ⟨rfl, hmove.trans (if_pos hb)⟩
  | false =>
    have hi : firstUnfinished 0 s.seq.units < unitCount s := by simpa [barrier] using hb
    refine .inl ⟨_, hi, (firstUnfinished_spec (h.seq.table hp)).2, ?_⟩
    exact hmove.trans ((if_neg (by simp [hb])).trans (h.unitStep_eq hi fun _ _ => rfl))

end

end Sys2Proof.Machine

/-!
PROOF. A whole MERKLIZE (43_merger R215, R227; 70_reset R325). Left alone, a running MERKLIZE takes a unit's
step, closes a level or completes; each takes one from the steps left and changes tree bytes alone, so the count is how
many steps it runs, and at its end every level stands over the leaves that stood there at the accept.
-/

namespace Sys2Proof.Machine

open Sys2Proof

/-! ## A MERKLIZE left alone -/

section Running

variable {s t u : State}

/-- No byte but those a MERKLIZE writes has changed from `s` to `t` (20_memory R67). -/
def OnlyTreeBytesChange (s t : State) : Prop :=
  ∀ c, ¬InTreeBytes s.latch.variant s.latch.a c → readByte t.mem c = readByte s.mem c

/-- A step of the running MERKLIZE that leaves it running. -/
structure RunsOn (s u : State) : Prop where
  phase : u.seq.phase = .runLevel
  fields : u = { s with mem := u.mem, seq := u.seq }
  stepsLeft : stepsLeft u + 1 = stepsLeft s

/-- From the running MERKLIZE in `s` to its completion in `t`. -/
structure RunsToRoot (s t : State) : Prop where
  fields : t = { s with
    mem := t.mem
    status := { s.status with busy := false, done := true }
    seq := { t.seq with phase := .idle } }
  frame : OnlyTreeBytesChange s t
  levels : ∀ k, k ≤ levels s.latch.a.leafCount.toNat → LevelStands t.mem s.latch.variant s.latch.a k

/-- A step of a running MERKLIZE with no move listed changes tree bytes alone. -/
theorem Inv.onlyTreeBytesChange (h : Inv s) (ha : s.agenda = []) (hp : s.seq.phase = .runLevel)
    (hstep : step s = .next t) : OnlyTreeBytesChange s t := by
  intro c hc
  by_contra hchanged
  rcases commandFrame s t c h hstep hchanged with
    ⟨addr, bytes, rest, hcons, -⟩ | ⟨i, regs, d, -, -, -, -, -, ⟨hhash, -⟩ | ⟨-, htree, -⟩⟩
  · cases ha.symm.trans hcons
  · cases hp.symm.trans hhash
  · exact hc htree

/-- The step of a running MERKLIZE with no move listed: it runs on, or it completes with its last step. -/
theorem Inv.step_level (h : Inv s) (ha : s.agenda = []) (hp : s.seq.phase = .runLevel) :
    (∃ u, step s = .next u ∧ RunsOn s u) ∨ (step s = .next (Machine.completeCommand s) ∧ stepsLeft s = 1) := by
  rw [step_nil ha]
  rcases h.idleMove_running (by simp [hp]) with ⟨i, hi, hne, hmove⟩ | ⟨hb, hmove⟩ <;> rw [hmove]
  · exact .inl ⟨_, rfl, hp, rfl, h.stepsLeft_afterUnit hi hne⟩
  · by_cases hroot : levelSize s.latch.a.leafCount.toNat (s.seq.k + 1) = 1
    · exact .inr ⟨mcStep_completesMerklize hp hb hroot, h.stepsLeft_last hp hb hroot⟩
    · exact .inl ⟨_, mcStep_opensNextLevel hp hb hroot, hp, rfl, h.stepsLeft_openNextLevel hp hb hroot⟩

/-- What a step keeps and what the rest of the run does, put together. -/
theorem RunsOn.then_root (hu : RunsOn s u) (hframe : OnlyTreeBytesChange s u) (ht : RunsToRoot u t) :
    RunsToRoot s t := by
  have hlatch : u.latch = s.latch := by rw [hu.fields]
  obtain ⟨hfields, htree, hlevels⟩ := ht
  rw [hlatch] at hlevels
  rw [OnlyTreeBytesChange, hlatch] at htree
  exact ⟨hfields.trans (by rw [hu.fields]), fun c hc => (htree c hc).trans (hframe c hc), hlevels⟩

/-- A running MERKLIZE with no move listed runs to its root in as many steps as it has left. -/
theorem run_level {n : Nat} (h : Inv s) (htree : TreeSound s) (ha : s.agenda = []) (hp : s.seq.phase = .runLevel)
    (hn : stepsLeft s = n) : ∃ t, Host.Core.run Sys2Proof.core n s = .next t ∧ RunsToRoot s t := by
  induction n generalizing s with
  | zero =>
    rw [stepsLeft_runLevel hp] at hn
    omega
  | succ n ih =>
    rcases h.step_level ha hp with ⟨u, hstep, hu⟩ | ⟨hstep, hlast⟩
    · have hagenda : u.agenda = s.agenda := by rw [hu.fields]
      have hleft := hu.stepsLeft
      obtain ⟨t, hrun, ht⟩ := ih (stepKeepsInvariant s u h hstep) (merklizeBuildsTree s u h htree hstep).1
        (hagenda.trans ha) hu.phase (by omega)
      exact ⟨t, (run_step hstep).trans hrun, hu.then_root (h.onlyTreeBytesChange ha hp hstep) ht⟩
    · obtain rfl : n = 0 := by omega
      exact ⟨completeCommand s, run_step hstep, rfl, h.onlyTreeBytesChange ha hp hstep,
        (merklizeBuildsTree s _ h htree hstep).2 hp rfl⟩

end Running

/-! ## The accept -/

section Accept

variable {s : State} {v : Variant}

/-- A MERKLIZE just accepted has 2 * (N - 1) + L steps left (70_reset R325). -/
theorem stepsLeft_acceptMerklize (h : Inv (acceptCommand .merklize v (clearDone s))) :
    stepsLeft (acceptCommand .merklize v (clearDone s)) =
      2 * (s.x.leafCount.toNat - 1) + levels s.x.leafCount.toNat := by
  obtain ⟨L, hL, hk⟩ := h.legal_tree rfl
  have hN : s.x.leafCount.toNat = 2 ^ L := hL.leaves
  have hcounts := h.stepsLeft_waiting rfl rfl
  have hlevel : (acceptCommand .merklize v (clearDone s)).seq.k = 0 := rfl
  rw [hlevel] at hcounts hk
  rw [hL.leaves, levels_two_pow] at hcounts
  have hdouble := levelSize_eq_double hk
  have hpairs := pairCount_eq_levelSize hk
  have hleaves : levelSize (2 ^ L) 0 = 2 ^ L := Nat.div_one _
  have hpos := Nat.two_pow_pos L
  rw [hcounts, hN, levels_two_pow]
  omega

/-- The bytes of the leaves are none of those a MERKLIZE writes (43_merger R228). -/
theorem LegalTree.leaf_not_treeBytes {x : Args} {L i c : Nat} (h : LegalTree v x L) (hi : i < levelSize (2 ^ L) 0)
    (hc : c < dlen v) : ¬InTreeBytes v x (digestAddr v x 0 i + c) := by
  rintro ⟨q, hq, hlo, hhi⟩
  rw [h.leaves] at hq
  obtain ⟨hbase, htop⟩ := h.leaf_in hi
  have hslot := slot_room (v := v) (show q < 2 ^ L by omega)
  have hapart := h.apart
  omega

end Accept

/-- Settles O33: the accept is the first step and `run_level` the others; the tree over the leaves at the end is that
over the leaves at the start, which no step changes. -/
theorem merklizeCommandBuildsTree : Obligations.MerklizeCommandBuildsTree := by
  intro v s h hready hc ha
  have haccept : step s = .next (acceptCommand .merklize v (clearDone (s.withAgenda []))) :=
    (step_issue ha).trans (exec_merklizeOf_accepted hready hc)
  have hidle : s.seq.phase ≠ .runLevel := by simp [h.idle.mpr hready.1]
  have hinv := stepKeepsInvariant _ _ h haccept
  obtain ⟨t, hrun, hfields, hframe, hlevels⟩ :=
    run_level hinv (merklizeBuildsTree _ _ h (.of_not_level hidle) haccept).1 rfl rfl (stepsLeft_acceptMerklize hinv)
  obtain ⟨L, hL⟩ := checkMerklize_eq_none.mp hc
  have hleaves : LevelKept s.mem t.mem v s.x 0 := fun i hi =>
    readBytes_congr fun c hcd => hframe _ (hL.leaf_not_treeBytes (hL.leaves ▸ hi) hcd)
  refine ⟨t, ?_, (congrArg State.status hfields :), (congrArg State.x hfields :), (congrArg State.ie hfields :),
    (congrArg State.errInfo hfields :), (congrArg (·.seq.phase) hfields :), (congrArg State.replies hfields :),
    fun k i h1 hk hi => ?_, hframe⟩
  · rw [Nat.add_comm]
    exact (run_step haccept).trans hrun
  · obtain ⟨k, rfl⟩ := Nat.exists_eq_add_one_of_ne_zero (by omega : k ≠ 0)
    refine (hlevels (k + 1) hk i hi).trans (treeDigest_congr hL.leaves hleaves ?_ (hL.leaves ▸ hi))
    rwa [hL.leaves, levels_two_pow] at hk

end Sys2Proof.Machine

/-!
PROOF. MERKLIZE of two leaves (43_merger R227, R228): one level with one unit, whose digest is the root in slot 0.
-/

namespace Sys2Proof.Machine

open Sys2Proof

theorem readBytes_add (m : Memory) (a n k : Nat) :
    readBytes m a (n + k) = readBytes m a n ++ readBytes m (a + n) k := by
  simp [readBytes, List.range_add, Nat.add_assoc]

section SinglePair

variable {s : State} {rest : List Move}

/-- The MC's step at the head of the agenda completes a MERKLIZE whose last level has one unit, when that is FINISHED
(43_merger R229). -/
theorem step_completesMerklize (h : Inv s) (ha : s.agenda = .mc :: rest) (hp : s.seq.phase = .runLevel)
    (hone : unitCount s = 1) (hf : unitPhase s 0 = .finished) :
    step s = .next (completeCommand (s.withAgenda rest)) := by
  have hb : barrier s = true := (h.barrier_iff (by simp [hp])).mpr fun i hi => by
    obtain rfl : i = 0 := Nat.lt_one_iff.mp (hone ▸ hi)
    exact hf
  have hroot := (h.unitCount_eq hp).symm.trans hone
  exact (step_cons ha).trans (mcStep_completesMerklize (s := s.withAgenda rest) hp hb hroot)

/-- The three steps of the last level, when it has one unit and no access fails: the unit's digest is stored, and the
command completes. -/
theorem run_singlePair (h : Inv s) (ha : s.agenda = .unit 0 .ok :: .unit 0 .ok :: .mc :: rest)
    (hp : s.seq.phase = .runLevel) (hone : unitCount s = 1) (hw : unitPhase s 0 = .waiting) :
    ∃ t, Host.Core.run Sys2Proof.core 3 s = .next (completeCommand t) ∧
      t.mem = writeBytes s.mem (digestAddr s.latch.variant s.latch.a (s.seq.k + 1) 0) (compress s.latch.variant
        (readBytes s.mem (digestAddr s.latch.variant s.latch.a s.seq.k 0) (dlen s.latch.variant) ++
          readBytes s.mem (digestAddr s.latch.variant s.latch.a s.seq.k 1) (dlen s.latch.variant))) := by
  have hi : 0 < unitCount s := hone ▸ Nat.one_pos
  have hload := step_loads h ha hi hw fun _ _ => rfl
  have hloaded := stepKeepsInvariant _ _ h hload
  have hstore := step_stores hloaded rfl hi (unitPhase_moved h hi _).1 rfl
  have hstored := stepKeepsInvariant _ _ hloaded hstore
  have hdone := step_completesMerklize hstored rfl hp hone (unitPhase_moved hloaded hi .finished).1
  rw [← unitOut_runLevel hp, ← unitInput_runLevel hp (i := 0)]
  exact ⟨_, (run_step hload).trans ((run_step hstore).trans (run_step hdone)), rfl⟩

end SinglePair

/-- Settles O34: the accept is the first step, `run_singlePair` the other three; the addresses are those of N = 2. -/
theorem merklizeSinglePair : Obligations.MerklizeSinglePair := by
  intro v s rest h hready hc htwo ha
  have haccept : step s = .next (acceptCommand .merklize v (clearDone (s.withAgenda _))) :=
    (step_issue ha).trans (exec_merklizeOf_accepted hready hc)
  have hN : s.x.leafCount.toNat = 2 := by rw [htwo]; rfl
  obtain ⟨t, hrun, hmem⟩ := run_singlePair (stepKeepsInvariant _ _ h haccept) rfl rfl (congrArg (pairCount · 0) hN) rfl
  have hout : digestAddr v s.x 1 0 = s.x.dstPtr.toNat := by simp [dstSlot, levelOffset, levelSize, hN]
  have hleft : digestAddr v s.x 0 0 = s.x.srcPtr.toNat := by simp [srcSlot]
  have hright : digestAddr v s.x 0 1 = s.x.srcPtr.toNat + slotOf v := by simp [srcSlot]
  have hstored : t.mem = writeBytes s.mem s.x.dstPtr.toNat (compress v
      (readBytes s.mem s.x.srcPtr.toNat (dlen v) ++ readBytes s.mem (s.x.srcPtr.toNat + slotOf v) (dlen v))) := by
    rw [← hout, ← hright, ← hleft]
    exact hmem
  have hlen := compress_length v
    (readBytes s.mem s.x.srcPtr.toNat (dlen v) ++ readBytes s.mem (s.x.srcPtr.toNat + slotOf v) (dlen v))
  have hroot := readBytes_written h.memWf hlen (a := s.x.dstPtr.toNat)
  rw [← hstored] at hroot
  refine ⟨completeCommand t, (run_step haccept).trans hrun, rfl, rfl, hroot, fun hslot => hroot.trans ?_,
    fun c hc => ?_⟩
  · rw [hslot, ← readBytes_add, Nat.two_mul]
  · exact (congrArg (readByte · c) hstored).trans (readByte_kept h.memWf hlen hc)

end Sys2Proof.Machine

/-!
PROOF. The CMD write of a command's word as a step (44_system R250): the word is the one the encoder gives, so that the
move at the head of the agenda is the one that issues the command.
-/

namespace Sys2Proof.Machine

open Sys2Proof

/-- A table word the decoder reads is, on its table bits, the command's own word (log 23). -/
theorem eq_encode_of_decodeTableWord {nbits w : Nat} {i : Instr} (h : decodeTableWord nbits w = some i) :
    BitVec.ofNat 64 (w % 2 ^ nbits) = encode i := by
  rw [decodeTableWord, tableWord] at h
  split at h
  case h_1 => contradiction
  case h_2 c hc =>
    split at h
    case h_1 j hj =>
      obtain rfl := Option.some.inj h
      obtain ⟨-, hword⟩ := Option.ite_none_right_eq_some.mp hc
      exact (Option.some.inj hword).trans (eq_encode_of_decode hj)
    all_goals contradiction

/-- Where the decoder reads a command, `withFetchWord` places the move that issues it (log 17). -/
theorem withFetchWord_agenda {nbits w : Nat} {i : Instr} (h : decodeTableWord nbits w = some i) (s : State) :
    (s.withFetchWord nbits w).agenda = issue i :: s.agenda := by
  rw [issue, ← eq_encode_of_decodeTableWord h]
  rfl

/-- Settles O5: both moves are the one that issues the command. -/
theorem stepRunsDecodedCommand : Obligations.StepRunsDecodedCommand := by
  refine ⟨fun s c i rest ha hc _ => ?_, fun s nbits w i h => step_issue (withFetchWord_agenda h s)⟩
  obtain rfl := eq_encode_of_decode hc
  exact step_issue ha

end Sys2Proof.Machine

/-!
PROOF. CLEAR and the CMD writes that are dropped (44_system R251, R255). A word that is not CLEAR's is dropped while
BUSY = 1 and while ERR = 1, CLEAR's while BUSY = 1; and no move but a taken CLEAR and a reset lowers OVR.
-/

namespace Sys2Proof.Machine

open Sys2Proof

/-! ## The drop -/

theorem dropped_eq_true {s : State} : dropped s = true ↔ s.status.busy = true ∨ s.status.err = true := by
  simp [dropped]

/-- CLEAR's word is the one that decodes to it (30_encoding R94). -/
theorem eq_clear_word {c : Word} (h : decode c = .cmd .clear) : c = 0x03 := eq_encode_of_decode h

theorem exec_dropped {i : Instr} {s : State} (h : s.status.busy = true ∨ (s.status.err = true ∧ i ≠ .clear)) :
    exec i s = .next (dropCommand s) := by
  have hd : dropped s = true := dropped_eq_true.mpr (h.imp_right And.left)
  rcases exec_cases i s with ⟨-, he⟩ | ⟨hb, hi, -⟩ | ⟨hfree, -⟩ | ⟨hfree, -⟩
  · exact he
  · rcases h with hbusy | ⟨-, hne⟩
    · exact absurd (hb.symm.trans hbusy) Bool.false_ne_true
    · exact absurd hi hne
  all_goals exact absurd (hfree.symm.trans hd) Bool.false_ne_true

/-- A word of any kind is dropped as a command is (44_system R251; log 24). -/
theorem cmdWrite_dropped {c : Word} {s : State} (h : s.status.busy = true ∨ (s.status.err = true ∧ c ≠ 0x03)) :
    cmdWrite c s = .next (dropCommand s) := by
  have hd : dropped s = true := dropped_eq_true.mpr (h.imp_right And.left)
  rcases cmdWrite_cases c s with ⟨i, hi, he⟩ | ⟨-, he⟩ | ⟨hfree, -⟩ | ⟨hfree, -⟩
  · have hne (hc : c ≠ 0x03) : i ≠ .clear := fun hclear => hc (eq_clear_word (hclear ▸ hi))
    exact he.trans (exec_dropped (h.imp_right (And.imp_right hne)))
  · exact he
  all_goals exact absurd (hfree.symm.trans hd) Bool.false_ne_true

/-! ## CLEAR -/

theorem exec_clear_taken {s : State} (hb : s.status.busy = false) : exec .clear s = .next (acknowledge s) := by
  rw [exec_clear, issueClear, hb]
  rfl

/-- CLEAR's is the one command word with OP = 3 (30_encoding R94). -/
theorem decode_op_clear {c : Word} (hop : c.toNat % 16 = 3) (hc : c ≠ 0x03) : decode c = .illegal := by
  by_cases hlt : c.toNat < 0x100
  · have hne : c.toNat ≠ 3 := fun h => hc (BitVec.eq_of_toNat_eq h)
    exact decode_clear_variant hlt hop (by omega)
  · exact decode_reserved (Nat.le_of_not_lt hlt)

/-- Settles O14: the decoder's tests on OP = 3, CLEAR taken, and the drop of CLEAR and of every other command. -/
theorem clearEffect : Obligations.ClearEffect := by
  refine ⟨rfl, fun _ => decode_op_clear, fun s hb => ?_, fun s hb => exec_dropped (.inl hb),
    fun i s hi he => exec_dropped (.inr ⟨he, hi⟩)⟩
  refine ⟨acknowledge s, exec_clear_taken hb, ?_, ?_⟩
  · simp [irq, acknowledge]
  · simp only [acknowledge_eq, hb]

/-! ## OVR stays -/

/-- The one command that lowers OVR is a CLEAR that is taken. -/
theorem exec_keeps_ovr {i : Instr} {s t : State} (h : exec i s = .next t) (ho : s.status.ovr = true) :
    t.status.ovr = true ∨ (i = .clear ∧ s.status.busy = false) := by
  rcases exec_cases i s with ⟨-, he⟩ | ⟨hb, hi, -⟩ | ⟨-, e, info, he, -⟩ | ⟨-, op, v, he, -⟩
  case inr.inl => exact .inr ⟨hi, hb⟩
  all_goals obtain rfl := Host.Outcome.next.inj (he.symm.trans h)
  · exact .inl rfl
  · exact .inl ho
  · exact .inl ho

theorem cmdWrite_keeps_ovr {c : Word} {s t : State} (h : cmdWrite c s = .next t) (ho : s.status.ovr = true) :
    t.status.ovr = true ∨ (c = 0x03 ∧ s.status.busy = false) := by
  rcases cmdWrite_cases c s with ⟨i, hi, he⟩ | ⟨-, he⟩ | ⟨-, -, he⟩ | ⟨-, -, he⟩
  · rcases exec_keeps_ovr (he.symm.trans h) ho with hkept | ⟨rfl, hb⟩
    · exact .inl hkept
    · exact .inr ⟨eq_clear_word hi, hb⟩
  all_goals obtain rfl := Host.Outcome.next.inj (he.symm.trans h)
  · exact .inl rfl
  · exact .inl ho
  · exact .inl ho

theorem loadStep_keeps_ovr {i : Nat} {port : PortAnswer} {s t : State} (h : loadStep i port s = .next t) :
    t.status.ovr = s.status.ovr := by
  rcases loadStep_cases i port s with ⟨m, -, he⟩ | ⟨a, -, he⟩ | ⟨a, -, he⟩ <;> rw [he] at h
  case inr.inr => contradiction
  all_goals obtain rfl := Host.Outcome.next.inj h; rfl

theorem storeStep_keeps_ovr {i : Nat} {d : Bytes} {port : PortAnswer} {s t : State}
    (h : storeStep i d port s = .next t) : t.status.ovr = s.status.ovr := by
  rcases storeStep_cases i d port s with ⟨-, -, he⟩ | ⟨-, -, he⟩ | ⟨-, he⟩ <;> rw [he] at h
  case inr.inr => contradiction
  all_goals obtain rfl := Host.Outcome.next.inj h; rfl

theorem unitStep_keeps_ovr {i : Nat} {port : PortAnswer} {s t : State} (h : unitStep i port s = .next t) :
    t.status.ovr = s.status.ovr := by
  rcases unitStep_cases i port s with ⟨-, he⟩ | ⟨-, -, he⟩ | ⟨regs, d, -, -, he⟩ <;> have ht := he.symm.trans h
  · obtain rfl := Host.Outcome.next.inj ht
    rfl
  · exact loadStep_keeps_ovr ht
  · exact storeStep_keeps_ovr ht

theorem mcStep_keeps_ovr {s t : State} (h : mcStep s = .next t) : t.status.ovr = s.status.ovr := by
  rcases mcStep_cases s with ⟨-, he⟩ | ⟨-, -, he⟩ | ⟨-, -, -, he⟩ | ⟨-, -, -, he⟩ <;>
    obtain rfl := Host.Outcome.next.inj (he.symm.trans h) <;> rfl

theorem idleMove_keeps_ovr {s t : State} (h : idleMove s = .next t) : t.status.ovr = s.status.ovr := by
  unfold idleMove at h
  cases hp : s.seq.phase <;> simp only [hp] at h
  case idle =>
    obtain rfl := Host.Outcome.next.inj h
    rfl
  all_goals
    split at h
    · exact mcStep_keeps_ovr h
    · exact unitStep_keeps_ovr h

/-- The moves that can lower OVR: a CLEAR that is taken, and a reset. -/
theorem perform_keeps_ovr {m : Move} {s t : State} (h : perform m s = .next t) (ho : s.status.ovr = true) :
    t.status.ovr = true ∨ (m = .regWrite 0x08 0x03 ∧ s.status.busy = false) ∨ ∃ torn, m = .reset torn := by
  cases m with
  | reset torn => exact .inr (.inr ⟨torn, rfl⟩)
  | unit i port => exact .inl ((unitStep_keeps_ovr h).trans ho)
  | mc => exact .inl ((mcStep_keeps_ovr h).trans ho)
  | regWrite offset v =>
    simp only [perform, regWrite] at h
    split_ifs at h with hw hcmd
    · rcases cmdWrite_keeps_ovr h ho with hkept | ⟨rfl, hb⟩
      · exact .inl hkept
      · exact .inr (.inl ⟨hcmd ▸ rfl, hb⟩)
    all_goals
      obtain rfl := Host.Outcome.next.inj h
      exact .inl ho
  | regRead | memRead | memWrite =>
    simp only [perform, regRead, hostRead, hostWrite] at h
    split_ifs at h
    obtain rfl := Host.Outcome.next.inj h
    exact .inl ho

/-- Settles O13: the drop by `cmdWrite_dropped`, the step that lowers OVR by `perform_keeps_ovr`. -/
theorem droppedWriteOnlySetsOvr : Obligations.DroppedWriteOnlySetsOvr := by
  refine ⟨fun s c h => (perform_cmd c s).trans (cmdWrite_dropped h), fun s t h ho => ?_, fun _ _ => rfl⟩
  cases ha : s.agenda with
  | nil => exact .inl ((idleMove_keeps_ovr (step_nil ha ▸ h)).trans ho)
  | cons m rest =>
    have hmove : perform m (s.withAgenda rest) = .next t := (step_cons ha).symm.trans h
    rcases perform_keeps_ovr hmove ho with hkept | ⟨rfl, hb⟩ | ⟨torn, rfl⟩
    · exact .inl hkept
    · exact .inr (.inl ⟨rest, rfl, hb⟩)
    · exact .inr (.inr ⟨torn, rest, rfl⟩)

end Sys2Proof.Machine

/-!
PROOF. Words that are no command (60_exceptions R271, R272): each decodes as the tests of 30_encoding R94 say, and its
CMD write then raises the error of that answer.
-/

namespace Sys2Proof.Machine

open Sys2Proof

/-- Settles O4: the decoder's answer to each kind of word, then the CMD write of a word with that answer. -/
theorem badWordsRaise : Obligations.BadWordsRaise := by
  intro s c hready
  refine ⟨fun h => ?illegal, fun hlt hop hv => ?badVariant⟩
  case illegal =>
    have hc : decode c = .illegal := by
      rcases h with hrsvd | hop | hop | ⟨hop, hv⟩
      · exact decode_reserved hrsvd
      · exact decode_bad_op (.inl hop)
      · exact decode_bad_op (.inr hop)
      · exact decode_op_clear hop fun hclear => hv (hclear ▸ rfl)
    exact (perform_cmd c s).trans (cmdWrite_illegal hready hc)
  case badVariant => exact (perform_cmd c s).trans (cmdWrite_badVariant hready (decode_bad_variant hlt hop hv))

end Sys2Proof.Machine

/-!
PROOF. How large an accepted MERKLIZE can be (60_exceptions R273; 92 D33): its N * slot bytes are counted by the 64-bit
SRC_LEN, and a slot has at least 2^4 bytes.
-/

namespace Sys2Proof.Machine

open Sys2Proof

section

variable {v : Variant} {x : Args} {L k : Nat}

theorem LegalTree.exponent_lt (h : LegalTree v x L) (hk : 2 ^ k ≤ slotOf v) : L + k < 64 := by
  have hlt : 2 ^ (L + k) < 2 ^ 64 :=
    calc 2 ^ (L + k) = 2 ^ L * 2 ^ k := Nat.pow_add 2 L k
      _ ≤ 2 ^ L * slotOf v := Nat.mul_le_mul_left _ hk
      _ = x.srcLen.toNat := h.srcLen.symm
      _ < 2 ^ 64 := x.srcLen.isLt
  exact (Nat.pow_lt_pow_iff_right (by decide)).mp hlt

theorem LegalTree.leafCount_le (h : LegalTree v x L) (hk : 2 ^ k ≤ slotOf v) :
    x.leafCount.toNat ≤ 2 ^ (63 - k) := by
  have hlt := h.exponent_lt hk
  rw [h.leaves]
  exact Nat.pow_le_pow_right (by decide) (by omega)

end

/-- Settles O17: the bit test by `isLeafCount_iff`, the bounds with slots of at least 2^4, 2^5 and 2^6 bytes. -/
theorem leafCountBounds : Obligations.LeafCountBounds := by
  refine ⟨fun n => isLeafCount_iff, fun v x hcheck => ?_⟩
  obtain ⟨L, hL⟩ := checkMerklize_eq_none.mp hcheck
  have hslot : 2 ^ 4 ≤ slotOf v := (by decide : 2 ^ 4 ≤ 20).trans (slotOf_ge v)
  refine ⟨hL.leafCount_le hslot, hL.leafCount_le (k := 5), fun h64 => hL.leafCount_le (k := 6) h64.ge, ?_⟩
  have hlt := hL.exponent_lt hslot
  rw [hL.leaves, levels_two_pow]
  omega

end Sys2Proof.Machine

/-!
PROOF. The failure of a unit's access (60_exceptions R284; 20_memory R79). Every byte the unit reads or writes exists,
so the first access that goes wrong is the one the environment fails; DONE is 0 already because a command runs.
-/

namespace Sys2Proof.Machine

open Sys2Proof

section Failures

variable {s : State} {i : Nat} {subset : List Bool} {rest : List Move}

/-- The read the port fails is the one whose address is answered. -/
theorem readAll_failed {m : Memory} {n k : Nat} {l : List (Nat × Nat)} {p : Nat × Nat} (hk : l[k]? = some p)
    (hr : ∀ q ∈ l, q.1 + q.2 ≤ 2 ^ 64) : readAll m (.fail (n + k) subset) n l = .failed p.1 := by
  induction l generalizing n k with
  | nil => contradiction
  | cons q r ih =>
    have htop : ¬2 ^ 64 < q.1 + q.2 := Nat.not_lt.mpr (hr q List.mem_cons_self)
    rw [readAll, if_neg htop]
    cases k with
    | zero =>
      obtain rfl : q = p := Option.some.inj hk
      simp [portFailsAt]
    | succ k =>
      have hnext := ih (n := n + 1) hk fun a ha => hr a (List.mem_cons_of_mem _ ha)
      rw [show n + 1 + k = n + (k + 1) by omega] at hnext
      simp [portFailsAt, hnext]

theorem loadStep_failed (h : Inv s) (hi : i < unitCount s) {nth : Nat} {p : Nat × Nat}
    (hp : (unitReads s i)[nth]? = some p) : loadStep i (.fail nth subset) s = .next (failBackend p.1 s) := by
  have hread := readAll_failed (m := s.mem) (n := 0) (subset := subset) hp (h.reads_exist hi)
  rw [Nat.zero_add] at hread
  rw [loadStep, hread]

theorem storeStep_failed (h : Inv s) (hi : i < unitCount s) {d : Bytes} (hd : d.length = dlen s.latch.variant) :
    storeStep i d (.fail 0 subset) s =
      .next (failBackend (unitOut s i) (s.withMem (writeSome s.mem (unitOut s i) d subset))) := by
  have htop := h.out_exists hi
  rw [storeStep, if_neg (by omega)]
  rfl

/-- A backend failure of a running command, DONE written out: it is 0 as long as a command runs (10_state R26). -/
theorem failBackend_running (h : Inv s) (hi : i < unitCount s) (addr : Nat) :
    failBackend addr s =
      { s with
        status := { s.status with busy := false, done := false, err := true, errCode := 0x10 }
        errInfo := BitVec.ofNat 64 addr
        seq := { s.seq with phase := .idle, units := [] } } := by
  have hdone := h.done_of_busy (h.busy_of_phase (unitCount_pos_phase hi))
  simp only [failBackend_eq, hdone]

end Failures

/-- Settles O24: the failed read by `loadStep_failed`, the failed write by `storeStep_failed` and the law of a write
that performs a subset of its bytes. -/
theorem backendFailure : Obligations.BackendFailure := by
  refine ⟨fun s i nth subset rest h ha hi hp hnth => ?read, fun s i regs d subset rest h ha hi hp => ?write⟩
  case read =>
    obtain ⟨p, hread⟩ : ∃ p, (unitReads s i)[nth]? = some p := ⟨_, List.getElem?_eq_getElem hnth⟩
    have h' := h.agenda_free rest
    refine ⟨p.1, p.2, hread, ?_⟩
    calc step s = unitStep i (.fail nth subset) (s.withAgenda rest) := step_cons ha
      _ = loadStep i (.fail nth subset) (s.withAgenda rest) := unitStep_of_waiting hi hp
      _ = .next (failBackend p.1 (s.withAgenda rest)) := loadStep_failed h' hi hread
      _ = _ := congrArg _ (failBackend_running h' hi p.1)
  case write =>
    have h' := h.agenda_free rest
    have htop := (h.loaded_length hi hp).symm ▸ h.out_exists hi
    have hm := h'.withMem (writeSome_wf _ d subset h.memWf) (writeSome_bounded subset htop h.memBounded)
    have hstep : step s = .next (failBackend (unitOut s i)
        ((s.withAgenda rest).withMem (writeSome s.mem (unitOut s i) d subset))) :=
      calc step s = unitStep i (.fail 0 subset) (s.withAgenda rest) := step_cons ha
        _ = storeStep i d (.fail 0 subset) (s.withAgenda rest) := unitStep_of_loaded hi hp
        _ = _ := storeStep_failed h' hi (h.loaded_length hi hp)
    refine ⟨_, hstep, failBackend_running hm hi (unitOut s i), fun j hj => ?_, fun c hc => ?_⟩
    · refine (readByte_writeSome h.memWf (unitOut s i) d subset (unitOut s i + j)).trans ?_
      rw [Nat.add_sub_cancel_left]
      exact if_congr ⟨fun hw => hw.2.2, fun hw => ⟨by omega, by omega, hw⟩⟩ rfl rfl
    · exact (readByte_writeSome h.memWf (unitOut s i) d subset c).trans (if_neg (by omega))

end Sys2Proof.Machine

/-!
PROOF. Where errors arise and how long their record stays (60_exceptions R267, R285). What every move can do to ERR,
ERRCODE and ERRINFO is said once: keep them, lower them by CLEAR or a reset, refuse a word at the CMD write, or end the
running command with E_BACKEND.
-/

namespace Sys2Proof.Machine

open Sys2Proof

/-! ## The ways a step can treat the error record -/

/-- ERR, ERRCODE and ERRINFO are the same. -/
structure ErrorRecordKept (s t : State) : Prop where
  err : t.status.err = s.status.err
  errCode : t.status.errCode = s.status.errCode
  errInfo : t.errInfo = s.errInfo

/-- A CMD write of a ready machine raises one of the errors of the CMD write (60_exceptions R266). -/
structure RaisesAtIssue (s t : State) : Prop where
  ready : Ready s
  one_le : 1 ≤ t.status.errCode.toNat
  le_ten : t.status.errCode.toNat ≤ 0x0A

/-- A unit's access fails and ends the running command (60_exceptions R284). -/
structure FailsInBackend (s t : State) : Prop where
  running : s.status.busy = true
  errCode : t.status.errCode = 0x10
  busy : t.status.busy = false
  phase : t.seq.phase = .idle
  units : t.seq.units = []

/-! ## The CMD write -/

theorem checkHash_ne_backend {v : Variant} {x : Args} {e : ErrCode} {info : Word}
    (h : checkHash v x = some (e, info)) : e ≠ .backend := by
  rintro rfl
  unfold checkHash at h
  split_ifs at h <;> simp at h

theorem checkMerklize_ne_backend {v : Variant} {x : Args} {e : ErrCode} {info : Word}
    (h : checkMerklize v x = some (e, info)) : e ≠ .backend := by
  rintro rfl
  unfold checkMerklize at h
  split_ifs at h <;> simp at h

/-- The codes of 60_exceptions R266 but E_BACKEND are 0x01 to 0x0A. -/
theorem byte_of_ne_backend {e : ErrCode} (h : e ≠ .backend) : 1 ≤ e.byte.toNat ∧ e.byte.toNat ≤ 0x0A := by
  cases e with
  | backend => exact absurd rfl h
  | illegalCmd | badVariant | leafCount | srcLen | dstLen | itmdCount | batch | wrap | overlap | shape => decide

theorem raiseError_raisesAtIssue {s : State} {e : ErrCode} (hd : dropped s = false) (he : e ≠ .backend) (info : Word) :
    RaisesAtIssue s (raiseError e info (clearDone s)) := by
  obtain ⟨hone, hten⟩ := byte_of_ne_backend he
  exact ⟨dropped_eq_false.mp hd, hone, hten⟩

theorem exec_errorRecord {i : Instr} {s t : State} (h : exec i s = .next t) :
    ErrorRecordKept s t ∨ (i = .clear ∧ t.status.err = false) ∨ RaisesAtIssue s t := by
  rcases exec_cases i s with ⟨-, he⟩ | ⟨-, hi, he⟩ | ⟨hd, e, info, he, hcheck⟩ | ⟨-, op, v, he, -⟩ <;>
    obtain rfl := Host.Outcome.next.inj (he.symm.trans h)
  · exact .inl ⟨rfl, rfl, rfl⟩
  · exact .inr (.inl ⟨hi, rfl⟩)
  · have hne : e ≠ .backend := by
      rcases hcheck with ⟨v, -, hc⟩ | ⟨v, -, hc⟩
      · exact checkHash_ne_backend hc
      · exact checkMerklize_ne_backend hc
    exact .inr (.inr (raiseError_raisesAtIssue hd hne info))
  · exact .inl ⟨rfl, rfl, rfl⟩

theorem cmdWrite_errorRecord {c : Word} {s t : State} (h : cmdWrite c s = .next t) :
    ErrorRecordKept s t ∨ (c = 0x03 ∧ t.status.err = false) ∨ RaisesAtIssue s t := by
  rcases cmdWrite_cases c s with ⟨i, hi, he⟩ | ⟨-, he⟩ | ⟨hd, -, he⟩ | ⟨hd, -, he⟩
  · refine (exec_errorRecord (he.symm.trans h)).imp_right (Or.imp_left ?_)
    rintro ⟨rfl, herr⟩
    exact ⟨eq_clear_word hi, herr⟩
  all_goals obtain rfl := Host.Outcome.next.inj (he.symm.trans h)
  · exact .inl ⟨rfl, rfl, rfl⟩
  · exact .inr (.inr (raiseError_raisesAtIssue hd (by decide) c))
  · exact .inr (.inr (raiseError_raisesAtIssue hd (by decide) c))

/-! ## The running command -/

theorem failBackend_failsInBackend {s : State} (hb : s.status.busy = true) (m : Memory) (addr : Nat) :
    FailsInBackend s (failBackend addr (s.withMem m)) := ⟨hb, rfl, rfl, rfl, rfl⟩

theorem Inv.unitStep_errorRecord {i : Nat} {port : PortAnswer} {s t : State} (hinv : Inv s)
    (h : unitStep i port s = .next t) : ErrorRecordKept s t ∨ FailsInBackend s t := by
  have hbusy (hi : i < unitCount s) := hinv.busy_of_phase (unitCount_pos_phase hi)
  rcases unitStep_cases i port s with ⟨-, he⟩ | ⟨hi, -, he⟩ | ⟨regs, d, hi, -, he⟩ <;> have ht := he.symm.trans h
  · obtain rfl := Host.Outcome.next.inj ht
    exact .inl ⟨rfl, rfl, rfl⟩
  · rcases loadStep_cases i port s with ⟨m, -, hl⟩ | ⟨a, -, hl⟩ | ⟨a, -, hl⟩ <;> rw [hl] at ht
    case inr.inr => contradiction
    all_goals obtain rfl := Host.Outcome.next.inj ht
    · exact .inl ⟨rfl, rfl, rfl⟩
    · exact .inr (failBackend_failsInBackend (hbusy hi) s.mem a)
  · rcases storeStep_cases i d port s with ⟨-, -, hl⟩ | ⟨-, -, hl⟩ | ⟨-, hl⟩ <;> rw [hl] at ht
    case inr.inr => contradiction
    all_goals obtain rfl := Host.Outcome.next.inj ht
    · exact .inl ⟨rfl, rfl, rfl⟩
    · exact .inr (failBackend_failsInBackend (hbusy hi) _ _)

theorem mcStep_keeps_errorRecord {s t : State} (h : mcStep s = .next t) : ErrorRecordKept s t := by
  rcases mcStep_cases s with ⟨-, he⟩ | ⟨-, -, he⟩ | ⟨-, -, -, he⟩ | ⟨-, -, -, he⟩ <;>
    obtain rfl := Host.Outcome.next.inj (he.symm.trans h) <;> exact ⟨rfl, rfl, rfl⟩

/-- With no move listed no access fails (log 2), so no error arises. -/
theorem Inv.idleMove_keeps_errorRecord {s t : State} (hinv : Inv s) (h : idleMove s = .next t) :
    ErrorRecordKept s t := by
  by_cases hp : s.seq.phase = .idle
  · have hidle : idleMove s = .next s := by rw [idleMove, hp]
    obtain rfl := Host.Outcome.next.inj (hidle.symm.trans h)
    exact ⟨rfl, rfl, rfl⟩
  · rcases hinv.idleMove_running hp with ⟨i, -, -, he⟩ | ⟨-, he⟩
    · obtain rfl := Host.Outcome.next.inj (he.symm.trans h)
      exact ⟨rfl, rfl, rfl⟩
    · exact mcStep_keeps_errorRecord (he.symm.trans h)

/-! ## Once for all moves -/

/-- What a move can do to the error record. -/
theorem Inv.perform_errorRecord {m : Move} {s t : State} (hinv : Inv s) (h : perform m s = .next t) :
    ErrorRecordKept s t ∨ (t.status.err = false ∧ (m = .regWrite 0x08 0x03 ∨ ∃ torn, m = .reset torn)) ∨
      (RaisesAtIssue s t ∧ ∃ c, m = .regWrite 0x08 c) ∨ (FailsInBackend s t ∧ ∃ i port, m = .unit i port) := by
  cases m with
  | reset torn =>
    obtain rfl := Host.Outcome.next.inj h
    exact .inr (.inl ⟨rfl, .inr ⟨torn, rfl⟩⟩)
  | unit i port =>
    rcases hinv.unitStep_errorRecord h with hkept | hfails
    · exact .inl hkept
    · exact .inr (.inr (.inr ⟨hfails, i, port, rfl⟩))
  | mc => exact .inl (mcStep_keeps_errorRecord h)
  | regWrite offset v =>
    simp only [perform, regWrite] at h
    split_ifs at h with hw hcmd
    · subst hcmd
      rcases cmdWrite_errorRecord h with hkept | ⟨rfl, herr⟩ | hraises
      · exact .inl hkept
      · exact .inr (.inl ⟨herr, .inl rfl⟩)
      · exact .inr (.inr (.inl ⟨hraises, v, rfl⟩))
    all_goals
      obtain rfl := Host.Outcome.next.inj h
      exact .inl ⟨rfl, rfl, rfl⟩
  | regRead | memRead | memWrite =>
    simp only [perform, regRead, hostRead, hostWrite] at h
    split_ifs at h
    obtain rfl := Host.Outcome.next.inj h
    exact .inl ⟨rfl, rfl, rfl⟩

/-- What a step can do to the error record. -/
theorem Inv.step_errorRecord {s t : State} (hinv : Inv s) (h : step s = .next t) :
    ErrorRecordKept s t ∨
      (t.status.err = false ∧
        ((∃ rest, s.agenda = .regWrite 0x08 0x03 :: rest) ∨ ∃ torn rest, s.agenda = .reset torn :: rest)) ∨
      (RaisesAtIssue s t ∧ ∃ c rest, s.agenda = .regWrite 0x08 c :: rest) ∨
      (FailsInBackend s t ∧ ∃ i port rest, s.agenda = .unit i port :: rest) := by
  cases ha : s.agenda with
  | nil => exact .inl (hinv.idleMove_keeps_errorRecord (step_nil ha ▸ h))
  | cons m rest =>
    have hmove : perform m (s.withAgenda rest) = .next t := (step_cons ha).symm.trans h
    rcases (hinv.agenda_free rest).perform_errorRecord hmove with
      ⟨herr, hcode, hinfo⟩ | ⟨herr, rfl | ⟨torn, rfl⟩⟩ | ⟨⟨hready, hone, hten⟩, c, rfl⟩ |
      ⟨⟨hrun, hcode, hbusy, hphase, hunits⟩, i, port, rfl⟩
    · exact .inl ⟨herr, hcode, hinfo⟩
    · exact .inr (.inl ⟨herr, .inl ⟨rest, rfl⟩⟩)
    · exact .inr (.inl ⟨herr, .inr ⟨torn, rest, rfl⟩⟩)
    · exact .inr (.inr (.inl ⟨⟨hready, hone, hten⟩, c, rest, rfl⟩))
    · exact .inr (.inr (.inr ⟨⟨hrun, hcode, hbusy, hphase, hunits⟩, i, port, rest, rfl⟩))

/-- Settles O42: of the ways a step can treat the error record, two raise ERR, and neither is open while ERR = 1. -/
theorem errorsAndTheirRecord : Obligations.ErrorsAndTheirRecord := by
  intro s t hinv h
  rcases hinv.step_errorRecord h with
    hkept | ⟨herr, hlowers⟩ | ⟨hraises, c, rest, ha⟩ | ⟨hfails, i, port, rest, ha⟩
  · refine ⟨fun hs ht => ?_, fun hs => .inl ⟨hkept.err.trans hs, hkept.errCode, hkept.errInfo⟩⟩
    exact absurd (hs.symm.trans (hkept.err.symm.trans ht)) Bool.false_ne_true
  · exact ⟨fun _ ht => absurd (herr.symm.trans ht) Bool.false_ne_true, fun _ => .inr hlowers⟩
  · obtain ⟨hfree, hnoErr⟩ := hraises.ready
    exact ⟨fun _ _ => .inl ⟨c, rest, ha, hfree, hraises.one_le, hraises.le_ten⟩,
      fun hs => absurd (hnoErr.symm.trans hs) Bool.false_ne_true⟩
  · have hnoErr := hinv.err_of_busy hfails.running
    exact ⟨fun _ _ => .inr ⟨i, port, rest, ha, hfails.running, hfails.errCode, hfails.busy, hfails.phase, hfails.units⟩,
      fun hs => absurd (hnoErr.symm.trans hs) Bool.false_ne_true⟩

end Sys2Proof.Machine

/-!
PROOF. Progress (70_reset R325, R326): a running command has at least its completion left, each step of a unit and of
the MC takes one from the count, and the accept of a command sets it.
-/

namespace Sys2Proof.Machine

open Sys2Proof

section

variable {s : State} {v : Variant}

/-! ## The count and BUSY -/

/-- A running command has its completion left; an idle MSC has no step to take (70_reset R326). -/
theorem stepsLeft_eq_zero_iff : stepsLeft s = 0 ↔ s.seq.phase = .idle := by
  refine ⟨fun hzero => ?_, stepsLeft_idle⟩
  by_contra hp
  rcases phase_running hp with hrun | hrun
  · rw [stepsLeft_runHash hrun] at hzero
    omega
  · rw [stepsLeft_runLevel hrun] at hzero
    omega

/-! ## The MC's step at the barrier -/

/-- At the barrier of a HASH its completion is left. -/
theorem Inv.stepsLeft_lastOfHash (h : Inv s) (hp : s.seq.phase = .runHash) (hb : barrier s = true) :
    stepsLeft s = 1 := by
  rw [stepsLeft_runHash hp, unitStepsLeft_finished ((h.barrier_iff (by simp [hp])).mp hb)]

theorem stepsLeft_completeCommand (s : State) : stepsLeft (completeCommand s) = 0 := stepsLeft_idle rfl

/-- At the barrier the MC completes the command or opens the next level; either takes one from the steps left. -/
theorem Inv.mcStep_takes_one (h : Inv s) (hp : s.seq.phase ≠ .idle) (hb : barrier s = true) :
    ∃ t, mcStep s = .next t ∧ stepsLeft t + 1 = stepsLeft s := by
  rcases mcStep_cases s with ⟨hidle | hheld, -⟩ | ⟨hrun, -, hstep⟩ | ⟨hrun, -, hroot, hstep⟩ | ⟨hrun, -, hmore, hstep⟩
  · exact absurd hidle hp
  · exact absurd (hheld.symm.trans hb) Bool.false_ne_true
  · exact ⟨_, hstep, by rw [stepsLeft_completeCommand, h.stepsLeft_lastOfHash hrun hb]⟩
  · exact ⟨_, hstep, by rw [stepsLeft_completeCommand, h.stepsLeft_last hrun hb hroot]⟩
  · exact ⟨_, hstep, h.stepsLeft_openNextLevel hrun hb hmore⟩

/-- The MSC's own move while a command runs (log 2). -/
theorem Inv.idleMove_takes_one (h : Inv s) (hp : s.seq.phase ≠ .idle) :
    ∃ t, idleMove s = .next t ∧ stepsLeft t + 1 = stepsLeft s := by
  rcases h.idleMove_running hp with ⟨i, hi, hne, hmove⟩ | ⟨hb, hmove⟩
  · exact ⟨_, hmove, h.stepsLeft_afterUnit hi hne⟩
  · rw [hmove]
    exact h.mcStep_takes_one hp hb

/-! ## The accept -/

/-- BUSY rises in a CMD write only where the command passes its checks and is accepted. -/
theorem issueCommand_raises_busy {op : Op} {check : Option (ErrCode × Word)} (hs : s.status.busy = false)
    (ht : (issueCommand op v check s).status.busy = true) :
    check = none ∧ issueCommand op v check s = acceptCommand op v (clearDone s) := by
  rcases issueCommand_cases op v check s with ⟨-, he⟩ | ⟨-, e, info, -, he⟩ | ⟨-, hc, he⟩
  case inr.inr => exact ⟨hc, he⟩
  all_goals
    rw [he] at ht
    exact absurd (hs.symm.trans ht) Bool.false_ne_true

/-- A HASH just accepted has its unit's two steps and its completion left. -/
theorem stepsLeft_acceptHash (v : Variant) (s : State) : stepsLeft (acceptCommand .hash v s) = 3 := by
  rw [stepsLeft_runHash rfl, unitStepsLeft_waiting rfl]
  rfl

/-- What an accepted MERKLIZE has left is a matter of its arguments alone, so `stepsLeft_acceptMerklize` counts it in a
sound state with these arguments. -/
theorem stepsLeft_acceptMerklize_of_check (hc : checkMerklize v s.x = none) :
    stepsLeft (acceptCommand .merklize v (clearDone s)) =
      2 * (s.x.leafCount.toNat - 1) + levels s.x.leafCount.toNat := by
  have hready : Inv (State.reset.withX s.x) := inv_reset.of_same_core rfl rfl rfl rfl rfl
  exact stepsLeft_acceptMerklize (s := State.reset.withX s.x) (hready.accept rfl (seqSound_acceptMerklize hc))

end

/-- Settles O31: a unit's step is `afterUnit`, the MC's comes at the barrier, and a CMD write that raises BUSY is an
accept. -/
theorem progressCount : Obligations.ProgressCount := by
  refine ⟨fun s h => stepsLeft_eq_zero_iff.trans h.idle,
    fun s h hb => h.idleMove_takes_one (h.phase_of_busy hb),
    fun s i h hi hne => ⟨_, h.unitStep_eq hi fun _ _ => rfl, h.stepsLeft_afterUnit hi hne⟩,
    fun s h hb hfin => ?mc, fun v s t he hs ht => ?hash, fun v s t he hs ht => ?merklize⟩
  case mc =>
    have hp := h.phase_of_busy hb
    exact h.mcStep_takes_one hp ((h.barrier_iff hp).mpr hfin)
  case hash =>
    rw [exec_hashOf] at he
    obtain rfl := Host.Outcome.next.inj he
    rw [(issueCommand_raises_busy hs ht).2, stepsLeft_acceptHash]
  case merklize =>
    rw [exec_merklizeOf] at he
    obtain rfl := Host.Outcome.next.inj he
    obtain ⟨hc, haccept⟩ := issueCommand_raises_busy hs ht
    rw [haccept, stepsLeft_acceptMerklize_of_check hc]

end Sys2Proof.Machine
